-- ==== Sys2Proof/Word.lean ====
section
/-! DEFINITION. The bit-vector types the spec gives the block's values, and nothing else.
`00_scope.md` R9: every value is unsigned and bit 0 is the least significant bit. -/

namespace Sys2Proof

/-- One byte of a frame buffer, and the ARG half of a command word (`20_memory.md` R60, `30_encoding.md` R83). -/
abbrev Byte := BitVec 8

/-- A 32-bit register, counter, cycle-counter value or response word (`10_state.md` R27 to R33, `30_encoding.md` R80). -/
abbrev Word := BitVec 32

/-- A command word (`30_encoding.md` R83). -/
abbrev CommandWord := BitVec 16

/-- An event record (`30_encoding.md` R82). -/
abbrev EventRecord := BitVec 36

/-- A slot index: the width of HEAD, TAIL and a descriptor's slot field (`10_state.md` R24, R25, R35). -/
abbrev SlotIndex := BitVec 7

/-- A 10-bit line unit, the first bit received in bit 9 (`30_encoding.md` R95). -/
abbrev LineUnit := BitVec 10

/-- The 15-bit CRC register (`40_crc.md` R120). -/
abbrev CrcRegister := BitVec 15

end Sys2Proof
end

