-- ==== Sys2Proof/Config.lean ====
section
/-! DEFINITION. What one build of the block fixes (`00_scope.md` R6 to R8), and the free values.

The parameters are one record of plain data. `State` carries it in a field that no step writes, so that every
statement about every state is a statement about every parameter set (notes/assumptions/1). -/

namespace Sys2Proof.Config

/-- The implementation parameters of `00_scope.md` R6. `CW` is fixed at 32 and is the width of `Word`.
`ACK_TIMEOUT_TICKS` is OPEN in the spec and is `ackTimeoutTicks` below. -/
structure Params where
  /-- `Q`: the number of packet descriptors in the pool. -/
  q : Nat
  /-- `MAX_PACKET`: the byte capacity of one descriptor buffer. -/
  maxPacket : Nat
  /-- `THR1` to `THR6`: the classification thresholds, in cycles. -/
  thr1 : Nat
  thr2 : Nat
  thr3 : Nat
  thr4 : Nat
  thr5 : Nat
  thr6 : Nat
  /-- `LIN_DIV`: the divisor of the linear fallback formula. -/
  linDiv : Nat
  /-- `LIN_ADD`: the rounding addend of the linear fallback formula. -/
  linAdd : Nat
  /-- `EAT_CARRY`: the cycles carried forward when a run eats one bit. -/
  eatCarry : Nat
  /-- `MANCHESTER_CHECK`: enable the optional Manchester-parity check. -/
  manchesterCheck : Bool
deriving DecidableEq, Repr

/-- The queue depth and the buffer capacity lie in the ranges of `00_scope.md` R6. -/
abbrev Params.SizesLegal (p : Params) : Prop :=
  (1 ≤ p.q ∧ p.q ≤ 128) ∧ (5 ≤ p.maxPacket ∧ p.maxPacket ≤ 255)

/-- The thresholds ascend and fit 32 bits (`00_scope.md` R6). -/
abbrev Params.ThresholdsAscend (p : Params) : Prop :=
  p.thr1 < p.thr2 ∧ p.thr2 < p.thr3 ∧ p.thr3 < p.thr4 ∧ p.thr4 < p.thr5 ∧ p.thr5 < p.thr6 ∧ p.thr6 < 2 ^ 32

/-- The linear fallback and the eaten bit's carry lie in their ranges (`00_scope.md` R6), and the fallback is at
least 5 at `THR6` (`00_scope.md` R8). -/
abbrev Params.FallbackLegal (p : Params) : Prop :=
  1 ≤ p.linDiv ∧ p.linAdd < 2 ^ 32 ∧ p.eatCarry < 2 ^ 31 ∧ 5 ≤ (p.thr6 + p.linAdd) / p.linDiv

/-- A legal parameter set (`00_scope.md` R6 and R8). -/
abbrev Params.Legal (p : Params) : Prop :=
  p.SizesLegal ∧ p.ThresholdsAscend ∧ p.FallbackLegal

/-- The reference configuration (`92_eei_decisions.md` D12). DESIGN CHOICE (notes/assumptions/1): `State.reset`
carries it; no rule of the model reads a reference value. -/
def reference : Params where
  q := 4
  maxPacket := 32
  thr1 := 960
  thr2 := 1600
  thr3 := 2240
  thr4 := 2880
  thr5 := 3520
  thr6 := 3840
  linDiv := 640
  linAdd := 320
  eatCarry := 640
  manchesterCheck := false

/-- A timing parameter scaled from the calibration clock to the clock that drives the cycle counter: the integrator's
`floor(P_cal * CPU_HZ / CAL_HZ)` (`00_scope.md` R7, `41_bit_timing.md` R149). -/
def scaleTiming (cpuHz calHz value : Nat) : Nat := value * cpuHz / calHz

/-- A parameter set calibrated at `calHz`, as the integrator gives it to a block whose counter runs at `cpuHz`. The
block itself does no scaling (`00_scope.md` R7). -/
def Params.scaled (p : Params) (cpuHz calHz : Nat) : Params :=
  { p with
    thr1 := scaleTiming cpuHz calHz p.thr1
    thr2 := scaleTiming cpuHz calHz p.thr2
    thr3 := scaleTiming cpuHz calHz p.thr3
    thr4 := scaleTiming cpuHz calHz p.thr4
    thr5 := scaleTiming cpuHz calHz p.thr5
    thr6 := scaleTiming cpuHz calHz p.thr6
    linDiv := scaleTiming cpuHz calHz p.linDiv
    linAdd := scaleTiming cpuHz calHz p.linAdd
    eatCarry := scaleTiming cpuHz calHz p.eatCarry }

/-- `ACK_TIMEOUT_TICKS` (`00_scope.md` R6, `92_eei_decisions.md` D42): OPEN, so a free value. No step depends on it
(`42_frame_fsm.md` R177); it is only what an arm of the external timer asks for (notes/assumptions/7). -/
opaque ackTimeoutTicks : Nat

/-- The 32-bit value of JIT when `JIT + EAT_CARRY` does not fit JIT's 32 bits, which the spec does not state: a free
value, the argument being a counter of such events (notes/assumptions/6). -/
opaque freeJitter : Nat → Word

end Sys2Proof.Config
end

