-- ==== Sys2Proof/Syntax.lean ====
section
/-! DEFINITION. The steps of the block as terms: the 18 consumer commands and the 3 input events of
`30_encoding.md` R87, and the raw presentations they are written as. -/

namespace Sys2Proof

/-- A pin level (`00_scope.md` R12, `30_encoding.md` R80). -/
inductive Level where
  /-- 0: low, dominant. -/
  | low
  /-- 1: high, recessive. -/
  | high
deriving DecidableEq, Repr

/-- One step of the block, one constructor per row of the opcode table (`30_encoding.md` R87). A NONE argument has
no field (R84); BUFSEL, REGNUM and INDEX arguments are the ARG byte itself, since which BUFSEL values are legal
depends on `Q` (R85). -/
inductive Instr where
  /-- SETUP: attach the block to its input (`43_queue.md` R200). -/
  | setup
  /-- RECEIVE: drain the oldest completed frame (`43_queue.md` R201). -/
  | receive
  /-- AVAILABLE (`43_queue.md` R202). -/
  | available
  /-- GET_COUNT (`43_queue.md` R203). -/
  | getCount
  /-- GET_CORRUPT (`43_queue.md` R204). -/
  | getCorrupt
  /-- GET_REPAIRED (`43_queue.md` R205). -/
  | getRepaired
  /-- READ_REG with its REGNUM (`43_queue.md` R206). -/
  | readReg (num : Byte)
  /-- CRC_COMPUTE with its BUFSEL (`40_crc.md` R124). -/
  | crcCompute (sel : Byte)
  /-- CRC_VERIFY with its BUFSEL (`40_crc.md` R125). -/
  | crcVerify (sel : Byte)
  /-- CRC_REPAIR with its BUFSEL (`40_crc.md` R126). -/
  | crcRepair (sel : Byte)
  /-- OUT_BYTE with its INDEX (`44_descriptor_access.md` R230). -/
  | outByte (index : Byte)
  /-- OUT_SIZE (`44_descriptor_access.md` R231). -/
  | outSize
  /-- OUT_META (`44_descriptor_access.md` R232). -/
  | outMeta
  /-- OUT_SEQNO (`44_descriptor_access.md` R233). -/
  | outSeqno
  /-- FRAME_IDEN (`44_descriptor_access.md` R234). -/
  | frameIden
  /-- FRAME_FLAGS (`44_descriptor_access.md` R235). -/
  | frameFlags
  /-- FRAME_DATALEN (`44_descriptor_access.md` R236). -/
  | frameDatalen
  /-- FRAME_CRC (`44_descriptor_access.md` R237). -/
  | frameCrc
  /-- EDGE: a pin transition to a level, at a cycle count (`42_frame_fsm.md` R161). -/
  | edge (level : Level) (cycle : Word)
  /-- ACK_TIMEOUT: the external one-shot timer expired (`42_frame_fsm.md` R176). -/
  | ackTimeout
  /-- RESET (`70_reset_and_hazards.md` R260). -/
  | reset
deriving DecidableEq, Repr

/-- Whether a step is a consumer command, which has a response, or an event, which has none (`30_encoding.md` R81). -/
def Instr.isCommand : Instr → Bool
  | .setup => true
  | .receive => true
  | .available => true
  | .getCount => true
  | .getCorrupt => true
  | .getRepaired => true
  | .readReg _ => true
  | .crcCompute _ => true
  | .crcVerify _ => true
  | .crcRepair _ => true
  | .outByte _ => true
  | .outSize => true
  | .outMeta => true
  | .outSeqno => true
  | .frameIden => true
  | .frameFlags => true
  | .frameDatalen => true
  | .frameCrc => true
  | .edge _ _ => false
  | .ackTimeout => false
  | .reset => false

/-- The pseudo-instructions of the assembler (`30_encoding.md` R90). They are no rows of the opcode table. -/
inductive Pseudo where
  | tryReceive
  | isAvailable
  | stats
  | payloadByte (j : Byte)
deriving DecidableEq, Repr

/-- What the environment presents for one step, as the spec writes it: a command word on the command port, or an
event record (`30_encoding.md` R81 to R83). -/
inductive Presentation where
  | command (w : CommandWord)
  | event (r : EventRecord)
deriving DecidableEq, Repr

end Sys2Proof
end

