-- ==== Sys2Proof/Machine/State.lean ====
section
/-! DEFINITION. The state of the block (`10_state.md`), the reasons a step can stop, and the state after reset. -/

namespace Sys2Proof.Machine

/-- The decode state of a descriptor (`10_state.md` R35, `30_encoding.md` R92). -/
inductive DState where
  | vacant
  | searching
  | loading
  | waitingAck
  | done
deriving DecidableEq, Repr

/-- The decode outcome of a descriptor (`10_state.md` R35, `30_encoding.md` R93, `60_exceptions.md` R241). -/
inductive DecodeResult where
  | ok
  | errorNbits
  | errorMaxPacket
  | errorManchester
deriving DecidableEq, Repr

/-- Whether a bus acknowledgement was observed (`10_state.md` R35, `30_encoding.md` R94). -/
inductive Ack where
  | none
  | ack
deriving DecidableEq, Repr

/-- The contents of one byte buffer (`20_memory.md` R60): index and byte pairs, indexes strictly rising, no byte
equal to what an unlisted index reads as. -/
abbrev Memory := List Host.Cell

/-- A packet descriptor (`10_state.md` R35). -/
structure Descriptor where
  /-- The frame buffer, `MAX_PACKET` bytes. -/
  bytes : Memory
  /-- Count of bytes decoded so far, then the frame length. -/
  size : Byte
  /-- The decode state, which is also the ownership flag (`20_memory.md` R69). -/
  state : DState
  /-- Whether an acknowledgement was observed. -/
  ack : Ack
  /-- The decode outcome. -/
  result : DecodeResult
  /-- The sequence number assigned at the SOF match. -/
  seqNo : Word
  /-- The index of this descriptor within the pool. -/
  slot : SlotIndex
deriving DecidableEq, Repr

/-- A command's status (`30_encoding.md` R86). The code 11 is reserved and never produced, so it has no name here. -/
inductive Status where
  | ok
  | illegal
  | busy
deriving DecidableEq, Repr

/-- The response to one command (`30_encoding.md` R86). -/
structure Response where
  status : Status
  data : Word
deriving DecidableEq, Repr

/-- The output ports that belong to the step just taken (`30_encoding.md` R80, R81): `rsp` is the response port
(`none`: rsp_valid is low) and `armAckTimer` the pulse that arms the external timer. The `avail` port is continuous
and computed from the state (`State.availPort`). -/
structure Outputs where
  rsp : Option Response
  armAckTimer : Bool
deriving DecidableEq, Repr

/-- The state. The block's own registers are those of `10_state.md` R23 to R37. Four fields are the model's: the
parameters (notes/assumptions/1), the presentations the environment will make, in its order (notes/assumptions/3),
the output ports of the last step (notes/assumptions/4) and the free-value counter (notes/assumptions/6). -/
structure State where
  /-- The parameters of this build (`00_scope.md` R6). No step writes them. -/
  params : Config.Params
  /-- ENABLED (`10_state.md` R23). -/
  enabled : Bool
  /-- HEAD (`10_state.md` R24). -/
  head : SlotIndex
  /-- TAIL (`10_state.md` R25). -/
  tail : SlotIndex
  /-- OVERRUN (`10_state.md` R26). -/
  overrun : Bool
  /-- COUNT (`10_state.md` R27). -/
  count : Word
  /-- NCORRUPT (`10_state.md` R28). -/
  nCorrupt : Word
  /-- NREPAIRED (`10_state.md` R28). -/
  nRepaired : Word
  /-- SEQ (`10_state.md` R29). -/
  seq : Word
  /-- PREV (`10_state.md` R30). -/
  prev : Word
  /-- ATBIT (`10_state.md` R31). -/
  atBit : BitVec 5
  /-- BITS (`10_state.md` R32). -/
  bits : Word
  /-- JIT (`10_state.md` R33). -/
  jit : Word
  /-- TIMER_ARMED (`10_state.md` R34). -/
  timerArmed : Bool
  /-- The descriptor pool `slot[0..Q-1]` (`10_state.md` R35). -/
  slot : List Descriptor
  /-- The copy-out descriptor OUT (`10_state.md` R37). -/
  out : Descriptor
  /-- The presentations still to be taken, the next one first: the environment's total order (`20_memory.md` R66). -/
  inputs : List Presentation
  /-- The output ports of the step just taken. -/
  outputs : Outputs
  /-- How many free values have been used; the argument of the next one. -/
  freeCount : Nat
deriving DecidableEq, Repr

/-- Why the machine stops. Neither can happen in a state that meets `State.Inv` (Safety.lean). -/
inductive Fault where
  /-- A rule names `slot[k]` and the pool has no descriptor `k` (`20_memory.md` R61). Raised by the operations that
  select a slot by HEAD, TAIL or a BUFSEL. Safe: the model stops where the spec says nothing exists. -/
  | noSuchSlot
  /-- A rule accesses a byte at an index of `MAX_PACKET` or above (`20_memory.md` R60, R64). Raised by the buffer
  accesses. Safe: the model stops where the spec says nothing exists. -/
  | noSuchByte
deriving DecidableEq, Repr

/-- Why a presentation is refused. -/
inductive Refusal where
  /-- No meaning for this instruction yet. No arm of exec answers it. Safe. -/
  | notModelled (mnemonic : String)
  /-- A record that spells no event (`30_encoding.md` R82: "A model refuses it: the step does not exist"). Raised by
  `step`, never by a meaning. Safe: the spec itself refuses the step. -/
  | noSuchEvent
deriving DecidableEq, Repr

/-- Descriptor `k` of the pool after reset (`10_state.md` R36). -/
def Descriptor.atReset (k : Nat) : Descriptor where
  bytes := []
  size := 0#8
  state := .vacant
  ack := .none
  result := .ok
  seqNo := 0#32
  slot := BitVec.ofNat 7 k

/-- The state right after reset of the block built with parameters `p` (`70_reset_and_hazards.md` R260, R261), with
nothing presented yet and the output ports low. -/
def State.resetWith (p : Config.Params) : State where
  params := p
  enabled := false
  head := 0#7
  tail := 0#7
  overrun := false
  count := 0#32
  nCorrupt := 0#32
  nRepaired := 0#32
  seq := 0#32
  prev := 0#32
  atBit := 0#5
  bits := 0#32
  jit := 0#32
  timerArmed := false
  slot := (List.range p.q).map Descriptor.atReset
  out := Descriptor.atReset 0
  inputs := []
  outputs := { rsp := Option.none, armAckTimer := false }
  freeCount := 0

/-- The state right after reset, in the reference configuration (notes/assumptions/1). -/
def State.reset : State := State.resetWith Config.reference

end Sys2Proof.Machine
end

