-- ==== Sys2Proof/Machine/Ops.lean ====
section
/-! DEFINITION. The operations every meaning is written over: byte buffers, descriptors, responses and the two raises.

The block takes no trap (`60_exceptions.md` R247, R248): what stands in the place of an exception is `raise`, which
ends a command with a status (R243). -/

namespace Sys2Proof.Machine

/-- What a meaning answers. -/
abbrev Result := Host.Outcome State Fault Refusal

/-! ### Byte buffers (`20_memory.md` R60) -/

/-- What an unlisted index of a buffer reads as: the reset value of every byte (`10_state.md` R36, R37). -/
def Memory.unlisted : Byte := 0#8

/-- The byte at an index of a buffer's contents. -/
def Memory.read : Memory → Nat → Byte
  | [], _ => Memory.unlisted
  | (a, b) :: rest, i => if a = i then b else Memory.read rest i

/-- The contents after a byte is written, in canonical form again. -/
def Memory.write : Memory → Nat → Byte → Memory
  | [], i, v => if v = Memory.unlisted then [] else [(i, v)]
  | (a, b) :: rest, i, v =>
    if a < i then (a, b) :: Memory.write rest i v
    else
      let tail := if a = i then rest else (a, b) :: rest
      if v = Memory.unlisted then tail else (i, v) :: tail

/-- Every listed index is at least `lo`, the indexes rise strictly, and no listed byte is the unlisted value. -/
def Memory.wfFrom : Nat → Memory → Bool
  | _, [] => true
  | lo, (a, b) :: rest => decide (lo ≤ a) && decide (b ≠ Memory.unlisted) && Memory.wfFrom (a + 1) rest

/-- The canonical form of a buffer's contents. -/
def Memory.wf (m : Memory) : Bool := Memory.wfFrom 0 m

/-- Every listed index lies inside a buffer of `cap` bytes. -/
def Memory.within (cap : Nat) (m : Memory) : Bool := m.all fun cell => decide (cell.1 < cap)

/-- `MemRead((B, i), 1)`: none where the buffer has no byte `i` (`00_scope.md` R10, `20_memory.md` R61). -/
def memRead (p : Config.Params) (m : Memory) (i : Nat) : Option Byte :=
  if i < p.maxPacket then some (m.read i) else none

/-- `MemWrite((B, i), 1, v)`: none where the buffer has no byte `i` (`00_scope.md` R10, `20_memory.md` R61). -/
def memWrite (p : Config.Params) (m : Memory) (i : Nat) (v : Byte) : Option Memory :=
  if i < p.maxPacket then some (m.write i v) else none

/-! ### Small arithmetic -/

/-- `zext` to a response word (`00_scope.md` R10). -/
def zext {w : Nat} (v : BitVec w) : Word := v.setWidth 32

/-- A boolean as a 1-bit value in a response word (`00_scope.md` R9, `30_encoding.md` R86). -/
def boolWord (b : Bool) : Word := if b then 1#32 else 0#32

/-- The next slot index, modulo `Q` (`00_scope.md` R13). -/
def nextIndex (p : Config.Params) (k : SlotIndex) : SlotIndex := BitVec.ofNat 7 ((k.toNat + 1) % p.q)

/-! ### Descriptors -/

/-- The head descriptor `slot[HEAD]`, if the pool has it. -/
def State.headSlot? (s : State) : Option Descriptor := s.slot[s.head.toNat]?

/-- The tail descriptor `slot[TAIL]`, if the pool has it. -/
def State.tailSlot? (s : State) : Option Descriptor := s.slot[s.tail.toNat]?

/-- Write fields of `slot[k]`. -/
def State.modifySlot (s : State) (k : Nat) (f : Descriptor → Descriptor) : State :=
  { s with slot := s.slot.modify k f }

/-- Write fields of `slot[HEAD]`. -/
def State.modifyHead (s : State) (f : Descriptor → Descriptor) : State :=
  s.modifySlot s.head.toNat f

/-- Run with the head descriptor; a HEAD outside the pool names nothing that exists. -/
def State.withHead (s : State) (f : Descriptor → Result) : Result :=
  match s.headSlot? with
  | some d => f d
  | none => .fault .noSuchSlot

/-- Run with the tail descriptor; a TAIL outside the pool names nothing that exists. -/
def State.withTail (s : State) (f : Descriptor → Result) : Result :=
  match s.tailSlot? with
  | some d => f d
  | none => .fault .noSuchSlot

/-! ### Output ports and responses (`30_encoding.md` R80, R81, R86) -/

/-- The output ports with no response and no pulse: those of an event step that arms nothing, and of no step. -/
def Outputs.quiet : Outputs := { rsp := none, armAckTimer := false }

/-- A state whose output ports are low. -/
def State.quiet (s : State) : State := { s with outputs := Outputs.quiet }

/-- The output ports of a command step that ended with status `st` and data `v`. -/
def Outputs.response (st : Status) (v : Word) : Outputs :=
  { rsp := some { status := st, data := v }, armAckTimer := false }

/-- `respond(v)`: end a command with ST_OK and response word `v` (`00_scope.md` R10). -/
def respond (v : Word) (s : State) : Result := .next { s with outputs := Outputs.response .ok v }

/-- `raise st`: end a command with a status that is not ST_OK, data 0 and no state change (`60_exceptions.md` R243). -/
def raise (st : Status) (s : State) : Result := .next { s with outputs := Outputs.response st 0#32 }

/-- `raise ST_ILLEGAL()`. -/
def raiseIllegal (s : State) : Result := raise .illegal s

/-- `raise ST_BUSY()`. -/
def raiseBusy (s : State) : Result := raise .busy s

/-- What the arm pulse asks of the external one-shot timer: `ACK_TIMEOUT_TICKS` ticks (`30_encoding.md` R80). -/
def State.armRequest (s : State) : Option Nat :=
  if s.outputs.armAckTimer then some Config.ackTimeoutTicks else none

end Sys2Proof.Machine
end

