-- ==== Sys2Proof/Machine/Operands.lean ====
section
/-! DEFINITION. The ARG readings (`30_encoding.md` R84, R85), the enum encodings (R92 to R94), and the buffer a
BUFSEL argument reaches (`40_crc.md` R121). A NONE argument is read by the decoder; an INDEX is the ARG byte. -/

namespace Sys2Proof.Machine

/-- A buffer a command can name (`30_encoding.md` R85). -/
inductive BufferRef where
  /-- OUT. -/
  | out
  /-- Pool slot `k`. -/
  | pool (k : Nat)
deriving DecidableEq, Repr

/-- The BUFSEL reading of ARG (`30_encoding.md` R85); none for an illegal value. -/
def bufSel (p : Config.Params) (arg : Byte) : Option BufferRef :=
  if arg = 0x80#8 then some .out
  else if arg.toNat < p.q then some (.pool arg.toNat)
  else none

/-- A register of the register view (`10_state.md` R41). -/
inductive RegNum where
  | status
  | count
  | nCorrupt
  | nRepaired
  | seq
  | config
deriving DecidableEq, Repr

/-- The REGNUM reading of ARG (`10_state.md` R41); none for a reserved number. -/
def regNum (arg : Byte) : Option RegNum :=
  match arg with
  | 0x00#8 => some .status
  | 0x01#8 => some .count
  | 0x02#8 => some .nCorrupt
  | 0x03#8 => some .nRepaired
  | 0x04#8 => some .seq
  | 0x05#8 => some .config
  | _ => none

/-- The 3-bit encoding of a decode state (`30_encoding.md` R92). -/
def DState.code : DState → BitVec 3
  | .vacant => 0#3
  | .searching => 1#3
  | .loading => 2#3
  | .waitingAck => 3#3
  | .done => 4#3

/-- The 2-bit encoding of a decode outcome (`30_encoding.md` R93). -/
def DecodeResult.code : DecodeResult → BitVec 2
  | .ok => 0#2
  | .errorNbits => 1#2
  | .errorMaxPacket => 2#2
  | .errorManchester => 3#2

/-- The 1-bit encoding of an acknowledgement (`30_encoding.md` R94). -/
def Ack.code : Ack → BitVec 1
  | .none => 0#1
  | .ack => 1#1

/-- The 2-bit encoding of a status (`30_encoding.md` R86). -/
def Status.code : Status → BitVec 2
  | .ok => 0b00#2
  | .illegal => 0b01#2
  | .busy => 0b10#2

/-- What `Resolve(ARG)` comes to (`40_crc.md` R121). -/
inductive Resolved where
  /-- A buffer and its length. -/
  | buffer (ref : BufferRef) (bytes : Memory) (size : Nat)
  /-- ST_BUSY: the slot is not DONE. -/
  | busy
  /-- ST_ILLEGAL: an illegal BUFSEL. -/
  | illegal
  /-- The pool has no such slot, or the length passes the buffer's end. -/
  | absent (f : Fault)
deriving DecidableEq, Repr

/-- A descriptor's buffer and length; a length above `MAX_PACKET` would name bytes that do not exist. -/
def sizedBuffer (p : Config.Params) (ref : BufferRef) (d : Descriptor) : Resolved :=
  if d.size.toNat ≤ p.maxPacket then .buffer ref d.bytes d.size.toNat else .absent .noSuchByte

/-- `Resolve(ARG)` (`40_crc.md` R121). -/
def resolve (arg : Byte) (s : State) : Resolved :=
  match bufSel s.params arg with
  | some .out => sizedBuffer s.params .out s.out
  | some (.pool k) =>
    match s.slot[k]? with
    | some d => if d.state = .done then sizedBuffer s.params (.pool k) d else .busy
    | none => .absent .noSuchSlot
  | none => .illegal

/-- Run with the buffer a BUFSEL names, or raise as `Resolve` does. -/
def withBuffer (arg : Byte) (s : State) (f : BufferRef → Memory → Nat → Result) : Result :=
  match resolve arg s with
  | .buffer ref m n => f ref m n
  | .busy => raiseBusy s
  | .illegal => raiseIllegal s
  | .absent why => .fault why

/-- Put a buffer's contents back. -/
def State.setBuffer (s : State) (ref : BufferRef) (m : Memory) : State :=
  match ref with
  | .out => { s with out := { s.out with bytes := m } }
  | .pool k => s.modifySlot k fun d => { d with bytes := m }

end Sys2Proof.Machine
end

