-- ==== Sys2Proof/Machine/Flags.lean ====
section
/-! DEFINITION. The flags of `10_state.md` R40 and the words that pack them (`10_state.md` R41,
`43_queue.md` R201, R206, `44_descriptor_access.md` R232). -/

namespace Sys2Proof.Machine

/-- AVAIL of a tail descriptor (`10_state.md` R40). -/
def Descriptor.isDone (d : Descriptor) : Bool := d.state == .done

/-- The `avail` output port, continuously `slot[TAIL].state == DONE` (`30_encoding.md` R80). -/
def State.availPort (s : State) : Bool :=
  match s.tailSlot? with
  | some d => d.isDone
  | none => false

/-- The response port, `rsp_status` and `rsp_data`, while `rsp_valid` is high (`30_encoding.md` R80, R86). -/
def State.responsePort (s : State) : Option (BitVec 2 × Word) := s.outputs.rsp.map fun r => (r.status.code, r.data)

/-- A falling edge at a DONE head sets OVERRUN; a rising edge leaves it (`42_frame_fsm.md` R162). -/
def overrunAfter (L : Level) (overrun : Bool) : Bool :=
  match L with
  | .low => true
  | .high => overrun

/-- RECEIVE's response: GOT in [0], the overrun flag as it was in [1] (`43_queue.md` R201). -/
def receiveWord (overrun : Bool) : Word := 1#32 ||| (boolWord overrun <<< 1)

/-- Register 0x00, STATUS, with the tail and the head descriptor (`43_queue.md` R206, `10_state.md` R41). -/
def statusWord (s : State) (tail head : Descriptor) : Word :=
  boolWord tail.isDone
    ||| (boolWord s.overrun <<< 1) ||| (boolWord s.enabled <<< 2) ||| (boolWord s.timerArmed <<< 3)
    ||| (zext head.state.code <<< 4) ||| (zext s.head <<< 8) ||| (zext s.tail <<< 16)

/-- Register 0x05, CONFIG (`43_queue.md` R206, `10_state.md` R41). -/
def configWord (p : Config.Params) : Word :=
  BitVec.ofNat 32 p.q ||| (BitVec.ofNat 32 p.maxPacket <<< 8) ||| (boolWord p.manchesterCheck <<< 16)

/-- OUT_META's word (`44_descriptor_access.md` R232). -/
def metaWord (d : Descriptor) : Word :=
  zext d.state.code ||| (zext d.ack.code <<< 4) ||| (zext d.result.code <<< 8) ||| (zext d.slot <<< 16)

end Sys2Proof.Machine
end

