-- ==== Sys2Proof/Machine/Access.lean ====
section
/-! DEFINITION. The copy-out descriptor and frame field accessors (`44_descriptor_access.md` R230 to R237). -/

namespace Sys2Proof.Machine

/-- Run with byte `i` of `OUT.bytes`. -/
def withOutByte (s : State) (i : Nat) (f : Byte → Result) : Result :=
  match memRead s.params s.out.bytes i with
  | some b => f b
  | none => .fault .noSuchByte

/-- An accessor's size precondition: ST_ILLEGAL for a frame shorter than `k` bytes (`60_exceptions.md` R242). -/
def requireSize (k : Nat) (s : State) (run : Result) : Result :=
  if s.out.size.toNat < k then raiseIllegal s else run

/-- OUT_BYTE (`44_descriptor_access.md` R230). -/
def execOutByte (index : Byte) (s : State) : Result :=
  if s.out.size.toNat ≤ index.toNat then raiseIllegal s
  else withOutByte s index.toNat fun b => respond (zext b) s

/-- OUT_SIZE (`44_descriptor_access.md` R231). -/
def execOutSize (s : State) : Result := respond (zext s.out.size) s

/-- OUT_META (`44_descriptor_access.md` R232). -/
def execOutMeta (s : State) : Result := respond (metaWord s.out) s

/-- OUT_SEQNO (`44_descriptor_access.md` R233). -/
def execOutSeqno (s : State) : Result := respond s.out.seqNo s

/-- FRAME_IDEN (`44_descriptor_access.md` R234). -/
def execFrameIden (s : State) : Result :=
  requireSize 3 s <|
    withOutByte s 1 fun b1 => withOutByte s 2 fun b2 => respond ((zext b1 <<< 4) ||| (zext b2 >>> 4)) s

/-- FRAME_FLAGS (`44_descriptor_access.md` R235). -/
def execFrameFlags (s : State) : Result :=
  requireSize 3 s <| withOutByte s 2 fun b2 => respond (zext b2 &&& 0xF#32) s

/-- FRAME_DATALEN (`44_descriptor_access.md` R236). -/
def execFrameDatalen (s : State) : Result :=
  requireSize 5 s <| respond (zext s.out.size - 5#32) s

/-- FRAME_CRC (`44_descriptor_access.md` R237): high byte first. -/
def execFrameCrc (s : State) : Result :=
  requireSize 5 s <|
    withOutByte s (s.out.size.toNat - 2) fun hi =>
      withOutByte s (s.out.size.toNat - 1) fun lo => respond ((zext hi <<< 8) ||| zext lo) s

end Sys2Proof.Machine
end

