-- ==== Sys2Proof/Machine/Crc.lean ====
section
/-! DEFINITION. The CRC-15 engine: compute, verify, and the single-bit repair search (`40_crc.md` R120 to R126). -/

namespace Sys2Proof.Machine

/-- The polynomial 0x0F9D (`40_crc.md` R120). -/
def crcPoly : CrcRegister := 0x0F9D#15

/-- The initial register 0x7FFF (`40_crc.md` R120). -/
def crcInit : CrcRegister := 0x7FFF#15

/-- The residue 0x19B7 of a valid frame (`40_crc.md` R123). -/
def crcResidue : CrcRegister := 0x19B7#15

/-- One input bit: shift, and add the polynomial when the shifted-out bit and the input bit disagree
(`40_crc.md` R120). -/
def crcBit (c : CrcRegister) (b : Bool) : CrcRegister :=
  if c.getLsbD 14 ^^ b then (c <<< 1) ^^^ crcPoly else c <<< 1

/-- One byte, most significant bit first (`40_crc.md` R120). -/
def crcByte (c : CrcRegister) (b : Byte) : CrcRegister :=
  [7, 6, 5, 4, 3, 2, 1, 0].foldl (fun c j => crcBit c (b.getLsbD j)) c

/-- The register after the `count` bytes from index `i`. -/
def crcRun (m : Memory) : Nat → Nat → CrcRegister → CrcRegister
  | _, 0, c => c
  | i, count + 1, c => crcRun m (i + 1) count (crcByte c (m.read i))

/-- `CrcReg(B, lo, hi)` (`40_crc.md` R120). -/
def crcReg (m : Memory) (lo hi : Nat) : CrcRegister := crcRun m lo (hi - lo) crcInit

/-- `CrcCompute(B, n)` (`40_crc.md` R122): complement within 15 bits, then shift left by one. -/
def crcCompute (m : Memory) (n : Nat) : BitVec 16 :=
  let c := if 3 ≤ n then crcReg m 1 (n - 2) else crcInit
  ((c ^^^ 0x7FFF#15).setWidth 16) <<< 1

/-- `CrcVerify(B, n)` (`40_crc.md` R123). -/
def crcVerify (m : Memory) (n : Nat) : Bool := crcReg m 1 n == crcResidue

/-- A byte with bit `j` flipped (`40_crc.md` R126). -/
def flipBit (v : Byte) (j : Nat) : Byte := v ^^^ (1#8 <<< j)

/-- The flips in the order they are tried: byte 0 first, and in each byte bit 0 first (`40_crc.md` R126). -/
def repairOrder (n : Nat) : List (Nat × Nat) :=
  (List.range n).flatMap fun i => (List.range 8).map fun j => (i, j)

/-- Try each flip in order on a buffer of length `n`, restoring those that do not verify (`40_crc.md` R126). The
answer is the flip kept, if any, and the buffer on return. -/
def repairSearch (n : Nat) : List (Nat × Nat) → Memory → Option (Nat × Nat) × Memory
  | [], m => (none, m)
  | (i, j) :: rest, m =>
    let v := m.read i
    let flipped := m.write i (flipBit v j)
    if crcVerify flipped n then (some (i, j), flipped)
    else repairSearch n rest (flipped.write i v)

/-- The response of a repair that flipped bit `j` of byte `i` (`40_crc.md` R126). -/
def repairWord (i j : Nat) : Word :=
  0x00000003#32 ||| (BitVec.ofNat 32 j <<< 8) ||| (BitVec.ofNat 32 i <<< 16)

/-- The repair of a buffer that does not verify (`40_crc.md` R126). -/
def repairBuffer (ref : BufferRef) (m : Memory) (n : Nat) (s : State) : Result :=
  let counted := { s with nCorrupt := s.nCorrupt + 1#32 }
  match repairSearch n (repairOrder n) m with
  | (some (i, j), m') =>
    respond (repairWord i j) { counted.setBuffer ref m' with nRepaired := s.nRepaired + 1#32 }
  | (none, m') => respond 0x00000000#32 (counted.setBuffer ref m')

/-- CRC_COMPUTE (`40_crc.md` R124). -/
def execCrcCompute (sel : Byte) (s : State) : Result :=
  withBuffer sel s fun _ m n => respond (zext (crcCompute m n)) s

/-- CRC_VERIFY (`40_crc.md` R125). -/
def execCrcVerify (sel : Byte) (s : State) : Result :=
  withBuffer sel s fun _ m n => respond (boolWord (crcVerify m n)) s

/-- CRC_REPAIR (`40_crc.md` R126). -/
def execCrcRepair (sel : Byte) (s : State) : Result :=
  withBuffer sel s fun ref m n =>
    if crcVerify m n then respond 0x00000001#32 s else repairBuffer ref m n s

end Sys2Proof.Machine
end

