-- ==== Sys2Proof/Machine/BitTiming.lean ====
section
/-! DEFINITION. The bit-timing decoder and jitter compensator (`41_bit_timing.md` R140 to R146). -/

namespace Sys2Proof.Machine

/-- The delta `EdgeDelta(t)` returns (`41_bit_timing.md` R140): one wrap of the counter is absorbed. -/
def edgeDelta (t : Word) (s : State) : Word := t - s.prev

/-- The PREV write of `EdgeDelta(t)` (`41_bit_timing.md` R140). -/
def recordEdge (t : Word) (s : State) : State := { s with prev := t }

/-- The count `EffectiveCycles(delta)` returns (`41_bit_timing.md` R141): an exact sum. Its clearing of JIT is
absorbed in `storeJitter`, which writes JIT before anything reads it. -/
def effectiveCycles (delta : Word) (s : State) : Nat := delta.toNat + s.jit.toNat

/-- `Classify(c)`: the run length and the new jitter (`41_bit_timing.md` R143). -/
def classify (p : Config.Params) (c : Nat) : Nat × Nat :=
  if c < p.thr1 then (1, 0)
  else if c < p.thr2 then (2, 0)
  else if c < p.thr3 then (3, 0)
  else if c < p.thr4 then (4, 0)
  else if c < p.thr5 then (5, 0)
  else if c < p.thr6 then (5, c - p.thr5)
  else ((c + p.linAdd) / p.linDiv, 0)

/-- The JIT write of a classification (`41_bit_timing.md` R144). -/
def storeJitter (jout : Nat) (s : State) : State := { s with jit := BitVec.ofNat 32 jout }

/-- The eat rule's condition on the bits assembled and the run (`41_bit_timing.md` R146). -/
def eats (s : State) (n : Nat) : Bool := decide (2 ≤ n ∧ s.atBit.toNat + n = 5)

/-- `JIT <- JIT + EAT_CARRY` (`41_bit_timing.md` R146). A sum that does not fit JIT's 32 bits is a value the spec
does not state: DESIGN CHOICE, a free value (notes/assumptions/6). -/
def carryEatenBit (s : State) : State :=
  if s.jit.toNat + s.params.eatCarry < 2 ^ 32 then
    { s with jit := BitVec.ofNat 32 (s.jit.toNat + s.params.eatCarry) }
  else { s with jit := Config.freeJitter s.freeCount, freeCount := s.freeCount + 1 }

/-- The run length `EatRule(n)` returns (`41_bit_timing.md` R146). -/
def eatenLength (s : State) (n : Nat) : Nat := if eats s n then n - 1 else n

/-- The state writes of `EatRule(n)` (`41_bit_timing.md` R146). -/
def eatRule (n : Nat) (s : State) : State := if eats s n then carryEatenBit s else s

end Sys2Proof.Machine
end

