-- ==== Sys2Proof/Machine/LineCode.lean ====
section
/-! DEFINITION. The Enhanced-Manchester line code: 10-bit units and the bytes they carry
(`30_encoding.md` R95 to R97). -/

namespace Sys2Proof.Machine

/-- `Unpack(u)`: drop the check bits 5 and 0 (`30_encoding.md` R96). -/
def unpack (u : LineUnit) : Byte :=
  (((u >>> 2) &&& 0xF0#10) ||| ((u >>> 1) &&& 0x0F#10)).setWidth 8

/-- `Pack(b)`: each nibble followed by the complement of its last bit (`30_encoding.md` R96). Used only to build
test inputs and statements. -/
def pack (b : Byte) : LineUnit :=
  b.extractLsb' 4 4 ++ (~~~(b.extractLsb' 4 1) ++ (b.extractLsb' 0 4 ++ ~~~(b.extractLsb' 0 1)))

/-- The start-of-frame unit (`30_encoding.md` R97). -/
def sofUnit : LineUnit := 0x03D#10

/-- End of data: the low two bits of the unit are both zero (`30_encoding.md` R97). -/
def isEod (u : LineUnit) : Bool := u.extractLsb' 0 2 == 0b00#2

/-- A check bit equals the data bit before it, in a unit that is not EOD (`42_frame_fsm.md` R171). -/
def checkBitsBad (u : LineUnit) : Bool :=
  (u.getLsbD 5 == u.getLsbD 6) || u.extractLsb' 0 2 == 0b11#2

end Sys2Proof.Machine
end

