-- ==== Sys2Proof/Machine/Frame.lean ====
section
/-! DEFINITION. The frame state machine: EDGE and ACK_TIMEOUT (`42_frame_fsm.md` R160 to R177). -/

namespace Sys2Proof.Machine

/-- `AdvanceHead()` (`42_frame_fsm.md` R175). -/
def advanceHead (s : State) : State :=
  { s.modifyHead fun d => { d with state := .done } with
    count := s.count + 1#32
    head := nextIndex s.params s.head }

/-- `OnEdgeDone(L)` (`42_frame_fsm.md` R162). -/
def onEdgeDone (L : Level) (s : State) : State := { s with overrun := overrunAfter L s.overrun }

/-- The fields a frame start resets in the head slot (`42_frame_fsm.md` R163). -/
def Descriptor.started (d : Descriptor) : Descriptor :=
  { d with state := .searching, size := 0#8, result := .ok, ack := .none }

/-- The unit-assembly registers cleared (`42_frame_fsm.md` R163, R166). -/
def clearAssembly (s : State) : State := { s with atBit := 0#5, bits := 0#32, jit := 0#32 }

/-- `OnEdgeVacant(L)` (`42_frame_fsm.md` R163). -/
def onEdgeVacant (L : Level) (s : State) : State :=
  match L with
  | .high => s
  | .low => clearAssembly (s.modifyHead Descriptor.started)

/-- `OnEdgeAck()` (`42_frame_fsm.md` R164). -/
def onEdgeAck (s : State) : State := advanceHead (s.modifyHead fun d => { d with ack := .ack })

/-- `RestartSearch()` (`42_frame_fsm.md` R166). -/
def restartSearch (s : State) : State := clearAssembly (s.modifyHead fun d => { d with size := 0#8 })

/-- Force-complete the head frame with a result that is not OK (`42_frame_fsm.md` R165, R173). -/
def forceComplete (r : DecodeResult) (s : State) : State :=
  advanceHead (s.modifyHead fun d => { d with result := r })

/-- The bits a run of `n` appends: ones for a high run, which a falling edge ends (`42_frame_fsm.md` R167). -/
def runFill (L : Level) (n : Nat) : Word :=
  match L with
  | .low => BitVec.ofNat 32 (2 ^ n - 1)
  | .high => 0#32

/-- `AppendRun(L, n)` (`42_frame_fsm.md` R167). -/
def appendRun (L : Level) (n : Nat) (s : State) : State :=
  { s with bits := (s.bits <<< n) ||| runFill L n, atBit := s.atBit + BitVec.ofNat 5 n }

/-- The ten oldest unassembled bits, when `left` bits of the next unit are left over (`42_frame_fsm.md` R168). -/
def extractUnit (bits : Word) (left : Nat) : LineUnit := ((bits >>> left) &&& 0x3FF#32).setWidth 10

/-- `MemWrite((slot[HEAD].bytes, k), 1, v)`; none where the buffer has no byte `k`. -/
def storeHeadByte (d : Descriptor) (k : Nat) (v : Byte) (s : State) : Option State :=
  match memWrite s.params d.bytes k v with
  | some m => some (s.modifyHead fun d => { d with bytes := m })
  | none => none

/-- `OnSofUnit(u)`, `d` being the head descriptor (`42_frame_fsm.md` R169). -/
def onSofUnit (d : Descriptor) (u : LineUnit) (s : State) : Result :=
  if u ≠ sofUnit then .next (s.modifyHead fun d => { d with state := .vacant })
  else
    match storeHeadByte d 0 (unpack u) s with
    | some s' =>
      .next { s'.modifyHead fun d => { d with size := 1#8, seqNo := s.seq, state := .loading } with
        seq := s.seq + 1#32 }
    | none => .fault .noSuchByte

/-- `ManchesterCheck(u)` on a result (`42_frame_fsm.md` R171). -/
def manchesterResult (u : LineUnit) (r : DecodeResult) : DecodeResult :=
  if checkBitsBad u ∧ r = .ok then .errorManchester else r

/-- `ManchesterCheck(u)`, only where `MANCHESTER_CHECK = 1` (`42_frame_fsm.md` R170, R171). -/
def manchesterCheck (u : LineUnit) (s : State) : State :=
  if s.params.manchesterCheck then s.modifyHead fun d => { d with result := manchesterResult u d.result } else s

/-- `EnterWaitAck()` (`42_frame_fsm.md` R172): `emit ARM_ACK_TIMER` is the pulse on the output port. -/
def enterWaitAck (s : State) : State :=
  { s.modifyHead fun d => { d with state := .waitingAck } with
    timerArmed := true
    outputs := { s.outputs with armAckTimer := true } }

/-- `Overflow()` (`42_frame_fsm.md` R173). -/
def overflow (s : State) : State := forceComplete .errorMaxPacket s

/-- What follows an append that left `size` bytes in the head slot: EOD before capacity (`42_frame_fsm.md` R170). -/
def afterAppend (u : LineUnit) (size : Byte) (s : State) : State :=
  if isEod u then enterWaitAck s
  else if size.toNat = s.params.maxPacket then overflow s
  else s

/-- `OnDataUnit(u)`, `d` being the head descriptor (`42_frame_fsm.md` R170). -/
def onDataUnit (d : Descriptor) (u : LineUnit) (s : State) : Result :=
  match storeHeadByte d d.size.toNat (unpack u) s with
  | some s' =>
    .next (afterAppend u (d.size + 1#8)
      (manchesterCheck u (s'.modifyHead fun d => { d with size := d.size + 1#8 })))
  | none => .fault .noSuchByte

/-- `OnUnit()`, `d` being the head descriptor (`42_frame_fsm.md` R168). -/
def onUnit (d : Descriptor) (s : State) : Result :=
  let left := s.atBit - 10#5
  let u := extractUnit s.bits left.toNat
  let s' := { s with atBit := left }
  if d.state = .searching then onSofUnit d u s' else onDataUnit d u s'

/-- An over-long run (`42_frame_fsm.md` R165): restart the search, or force-complete the frame. -/
def onLongRun (d : Descriptor) (s : State) : State :=
  if d.state = .searching then restartSearch s else forceComplete .errorNbits s

/-- A run of 1 to 9 bits: the eat rule, the append, and the unit it may complete (`42_frame_fsm.md` R165). -/
def onShortRun (d : Descriptor) (L : Level) (n : Nat) (s : State) : Result :=
  let s' := appendRun L (eatenLength s n) (eatRule n s)
  if 10 ≤ s'.atBit.toNat then onUnit d s' else .next s'

/-- `OnEdgeRun(L, delta)`, `d` being the head descriptor (`42_frame_fsm.md` R165). -/
def onEdgeRun (d : Descriptor) (L : Level) (delta : Word) (s : State) : Result :=
  let run := classify s.params (effectiveCycles delta s)
  let s' := storeJitter run.2 s
  if 9 < run.1 then .next (onLongRun d s') else onShortRun d L run.1 s'

/-- The head state's branch of an edge step (`42_frame_fsm.md` R161). -/
def onEdge (d : Descriptor) (L : Level) (delta : Word) (s : State) : Result :=
  match d.state with
  | .done => .next (onEdgeDone L s)
  | .vacant => .next (onEdgeVacant L s)
  | .waitingAck => .next (onEdgeAck s)
  | .searching => onEdgeRun d L delta s
  | .loading => onEdgeRun d L delta s

/-- EDGE (`42_frame_fsm.md` R160, R161). -/
def execEdge (L : Level) (t : Word) (s : State) : Result :=
  if s.enabled then
    s.quiet.withHead fun d => onEdge d L (edgeDelta t s) (recordEdge t s.quiet)
  else .next s.quiet

/-- ACK_TIMEOUT (`42_frame_fsm.md` R176). -/
def execAckTimeout (s : State) : Result :=
  if s.timerArmed then
    s.quiet.withHead fun d =>
      let s' := { s.quiet with timerArmed := false }
      .next (if d.state = .waitingAck then advanceHead s' else s')
  else .next s.quiet

end Sys2Proof.Machine
end

