-- ==== Sys2Proof/Machine/Queue.lean ====
section
/-! DEFINITION. The consumer commands of the circular receive queue (`43_queue.md` R200 to R206). -/

namespace Sys2Proof.Machine

/-- SETUP (`43_queue.md` R200). -/
def execSetup (s : State) : Result :=
  if s.enabled then respond 0#32 s else respond 1#32 { s with enabled := true }

/-- The fields RECEIVE resets in the slot it frees (`43_queue.md` R201). -/
def Descriptor.freed (d : Descriptor) : Descriptor :=
  { d with state := .vacant, size := 0#8, result := .ok, ack := .none }

/-- The state writes of a RECEIVE that drains the tail descriptor `d` (`43_queue.md` R201). -/
def drainTail (d : Descriptor) (s : State) : State :=
  { s.modifySlot s.tail.toNat Descriptor.freed with
    out := d
    overrun := false
    tail := nextIndex s.params s.tail }

/-- RECEIVE (`43_queue.md` R201). -/
def execReceive (s : State) : Result :=
  s.withTail fun d =>
    if d.isDone then respond (receiveWord s.overrun) (drainTail d s) else respond 0#32 s

/-- AVAILABLE (`43_queue.md` R202). -/
def execAvailable (s : State) : Result :=
  s.withTail fun d => respond (boolWord d.isDone) s

/-- GET_COUNT (`43_queue.md` R203). -/
def execGetCount (s : State) : Result := respond s.count s

/-- GET_CORRUPT (`43_queue.md` R204). -/
def execGetCorrupt (s : State) : Result := respond s.nCorrupt s

/-- GET_REPAIRED (`43_queue.md` R205). -/
def execGetRepaired (s : State) : Result := respond s.nRepaired s

/-- READ_REG (`43_queue.md` R206). -/
def execReadReg (num : Byte) (s : State) : Result :=
  match regNum num with
  | some .status => s.withTail fun t => s.withHead fun h => respond (statusWord s t h) s
  | some .count => respond s.count s
  | some .nCorrupt => respond s.nCorrupt s
  | some .nRepaired => respond s.nRepaired s
  | some .seq => respond s.seq s
  | some .config => respond (configWord s.params) s
  | none => raiseIllegal s

end Sys2Proof.Machine
end

