-- ==== Sys2Proof/Machine/Reset.lean ====
section
/-! DEFINITION. The reset step (`70_reset_and_hazards.md` R260). -/

namespace Sys2Proof.Machine

/-- A descriptor with every field at its reset value and its own index (`10_state.md` R36, R37). -/
def clearedDescriptor (k : Nat) : Descriptor where
  bytes := []
  size := 0#8
  state := .vacant
  ack := .none
  result := .ok
  seqNo := 0#32
  slot := BitVec.ofNat 7 k

/-- `RESET()` (`70_reset_and_hazards.md` R260): every register of the block. The parameters, the presentations still
to come and the free-value counter are not the block's state and stay. -/
def resetBlock (s : State) : State :=
  { s with
    enabled := false
    head := 0#7
    tail := 0#7
    overrun := false
    count := 0#32
    nCorrupt := 0#32
    nRepaired := 0#32
    seq := 0#32
    prev := 0#32
    atBit := 0#5
    bits := 0#32
    jit := 0#32
    timerArmed := false
    slot := (List.range s.params.q).map clearedDescriptor
    out := clearedDescriptor 0 }

/-- RESET (`70_reset_and_hazards.md` R260). -/
def execReset (s : State) : Result := .next (resetBlock s.quiet)

end Sys2Proof.Machine
end

