-- ==== Sys2Proof/Machine/Dispatch.lean ====
section
/-! DEFINITION. One arm per row of the opcode table (`30_encoding.md` R87). -/

namespace Sys2Proof.Machine

/-- The effect of one step of the block. -/
def exec (i : Instr) (s : State) : Host.Outcome State Fault Refusal :=
  match i with
  -- 43_queue.md
  | .setup => Sys2Proof.Machine.execSetup s
  | .receive => Sys2Proof.Machine.execReceive s
  | .available => Sys2Proof.Machine.execAvailable s
  | .getCount => Sys2Proof.Machine.execGetCount s
  | .getCorrupt => Sys2Proof.Machine.execGetCorrupt s
  | .getRepaired => Sys2Proof.Machine.execGetRepaired s
  | .readReg num => Sys2Proof.Machine.execReadReg num s
  -- 40_crc.md
  | .crcCompute sel => Sys2Proof.Machine.execCrcCompute sel s
  | .crcVerify sel => Sys2Proof.Machine.execCrcVerify sel s
  | .crcRepair sel => Sys2Proof.Machine.execCrcRepair sel s
  -- 44_descriptor_access.md
  | .outByte index => Sys2Proof.Machine.execOutByte index s
  | .outSize => Sys2Proof.Machine.execOutSize s
  | .outMeta => Sys2Proof.Machine.execOutMeta s
  | .outSeqno => Sys2Proof.Machine.execOutSeqno s
  | .frameIden => Sys2Proof.Machine.execFrameIden s
  | .frameFlags => Sys2Proof.Machine.execFrameFlags s
  | .frameDatalen => Sys2Proof.Machine.execFrameDatalen s
  | .frameCrc => Sys2Proof.Machine.execFrameCrc s
  -- 42_frame_fsm.md
  | .edge level cycle => Sys2Proof.Machine.execEdge level cycle s
  | .ackTimeout => Sys2Proof.Machine.execAckTimeout s
  -- 70_reset_and_hazards.md
  | .reset => Sys2Proof.Machine.execReset s

end Sys2Proof.Machine
end

