-- ==== Sys2Proof/Decode.lean ====
section
/-! DEFINITION. The decoder of command words and event records, total, rejecting by name, and after it the encoder
(`30_encoding.md` R82, R83, R87, R88, R91). -/

namespace Sys2Proof

/-- Why a presentation is no instruction of the opcode table. -/
inductive Reject where
  /-- A command word whose opcode R87 does not assign (R88): the block answers ST_ILLEGAL. -/
  | reservedOpcode
  /-- A NONE-argument command word whose ARG is not 0 (R88): the block answers ST_ILLEGAL. -/
  | nonzeroArgument
  /-- A record with KIND 00 (R82): it spells no event. -/
  | reservedKind
  /-- A record with bit 33 set (R82): it spells no event. -/
  | reservedBit
  /-- An ACK_TIMEOUT or RESET record with a nonzero LEVEL or CYCLE (R82): it spells no event. -/
  | nonzeroField
deriving DecidableEq, Repr

/-- What a presentation decodes to. -/
inductive Decoded where
  /-- An instruction of the opcode table. -/
  | instr (i : Instr)
  /-- A command word that raises ST_ILLEGAL by its encoding alone (R88). -/
  | illegalWord (why : Reject)
  /-- A record that spells no event (R82). -/
  | noEvent (why : Reject)
deriving DecidableEq, Repr

/-- OPC, bits [15:8] (R83). -/
def opcodeOf (w : CommandWord) : Byte := w.extractLsb' 8 8

/-- ARG, bits [7:0] (R83). -/
def argOf (w : CommandWord) : Byte := w.extractLsb' 0 8

/-- A NONE-argument command: ARG must be 0x00 (R84). -/
def decodeNone (arg : Byte) (i : Instr) : Decoded :=
  if arg = 0#8 then .instr i else .illegalWord .nonzeroArgument

/-- The opcode map of R87. Every opcode without a row is reserved (R88). -/
def decodeCommand (w : CommandWord) : Decoded :=
  match opcodeOf w with
  | 0x01#8 => decodeNone (argOf w) .setup
  | 0x02#8 => decodeNone (argOf w) .receive
  | 0x03#8 => decodeNone (argOf w) .available
  | 0x04#8 => decodeNone (argOf w) .getCount
  | 0x05#8 => decodeNone (argOf w) .getCorrupt
  | 0x06#8 => decodeNone (argOf w) .getRepaired
  | 0x07#8 => .instr (.readReg (argOf w))
  | 0x10#8 => .instr (.crcCompute (argOf w))
  | 0x11#8 => .instr (.crcVerify (argOf w))
  | 0x12#8 => .instr (.crcRepair (argOf w))
  | 0x20#8 => .instr (.outByte (argOf w))
  | 0x21#8 => decodeNone (argOf w) .outSize
  | 0x22#8 => decodeNone (argOf w) .outMeta
  | 0x23#8 => decodeNone (argOf w) .outSeqno
  | 0x24#8 => decodeNone (argOf w) .frameIden
  | 0x25#8 => decodeNone (argOf w) .frameFlags
  | 0x26#8 => decodeNone (argOf w) .frameDatalen
  | 0x27#8 => decodeNone (argOf w) .frameCrc
  | _ => .illegalWord .reservedOpcode

/-- KIND, bits [35:34] (R82). -/
def kindOf (r : EventRecord) : BitVec 2 := r.extractLsb' 34 2

/-- The reserved bit 33 (R82). -/
def reservedOf (r : EventRecord) : BitVec 1 := r.extractLsb' 33 1

/-- LEVEL, bit [32] (R82). -/
def levelOf (r : EventRecord) : BitVec 1 := r.extractLsb' 32 1

/-- CYCLE, bits [31:0] (R82). -/
def cycleOf (r : EventRecord) : Word := r.extractLsb' 0 32

/-- The level a LEVEL bit names (R80). -/
def Level.ofBit (b : BitVec 1) : Level := if b = 1#1 then .high else .low

/-- The LEVEL bit of a level (R80). -/
def Level.toBit : Level → BitVec 1
  | .low => 0#1
  | .high => 1#1

/-- An event whose record has LEVEL and CYCLE 0 (R82). -/
def decodePlainEvent (r : EventRecord) (i : Instr) : Decoded :=
  if levelOf r = 0#1 ∧ cycleOf r = 0#32 then .instr i else .noEvent .nonzeroField

/-- The event records of R82. -/
def decodeEvent (r : EventRecord) : Decoded :=
  if reservedOf r = 1#1 then .noEvent .reservedBit
  else
    match kindOf r with
    | 0b01#2 => .instr (.edge (Level.ofBit (levelOf r)) (cycleOf r))
    | 0b10#2 => decodePlainEvent r .ackTimeout
    | 0b11#2 => decodePlainEvent r .reset
    | _ => .noEvent .reservedKind

/-- The decoder, total on every presentation (R91). -/
def decode : Presentation → Decoded
  | .command w => decodeCommand w
  | .event r => decodeEvent r

/-- The instruction a presentation spells, if it spells one. -/
def decodeInstr? (p : Presentation) : Option Instr :=
  match decode p with
  | .instr i => some i
  | .illegalWord _ => none
  | .noEvent _ => none

/-- The presentation that an opcode-table word of `nbits` bits stands for: CMD16 rows are command words, EVT36 rows
are event records, which take five whole bytes. A word that does not fit its row's format is none. -/
def presentationOfTableWord (nbits w : Nat) : Option Presentation :=
  if nbits ≤ 16 then
    if w < 2 ^ 16 then some (.command (BitVec.ofNat 16 w)) else none
  else if w < 2 ^ 36 then some (.event (BitVec.ofNat 36 w)) else none

/-- The instruction the decoder reads from an opcode-table word. -/
def decodeTableWord (nbits w : Nat) : Option Instr :=
  match presentationOfTableWord nbits w with
  | some p => decodeInstr? p
  | none => none

/-- A command word from its two bytes: OPC in [15:8], ARG in [7:0] (R83). -/
def commandWord (opc arg : Byte) : CommandWord := opc ++ arg

/-- An event record from its fields: KIND [35:34], bit 33 clear, LEVEL [32], CYCLE [31:0] (R82). -/
def eventRecord (kind : BitVec 2) (level : BitVec 1) (cycle : Word) : EventRecord :=
  kind ++ (0#1 ++ (level ++ cycle))

/-- The encoder: the presentation of an instruction (R82, R83, R87). -/
def encode : Instr → Presentation
  | .setup => .command (commandWord 0x01#8 0#8)
  | .receive => .command (commandWord 0x02#8 0#8)
  | .available => .command (commandWord 0x03#8 0#8)
  | .getCount => .command (commandWord 0x04#8 0#8)
  | .getCorrupt => .command (commandWord 0x05#8 0#8)
  | .getRepaired => .command (commandWord 0x06#8 0#8)
  | .readReg num => .command (commandWord 0x07#8 num)
  | .crcCompute sel => .command (commandWord 0x10#8 sel)
  | .crcVerify sel => .command (commandWord 0x11#8 sel)
  | .crcRepair sel => .command (commandWord 0x12#8 sel)
  | .outByte index => .command (commandWord 0x20#8 index)
  | .outSize => .command (commandWord 0x21#8 0#8)
  | .outMeta => .command (commandWord 0x22#8 0#8)
  | .outSeqno => .command (commandWord 0x23#8 0#8)
  | .frameIden => .command (commandWord 0x24#8 0#8)
  | .frameFlags => .command (commandWord 0x25#8 0#8)
  | .frameDatalen => .command (commandWord 0x26#8 0#8)
  | .frameCrc => .command (commandWord 0x27#8 0#8)
  | .edge level cycle => .event (eventRecord 0b01#2 level.toBit cycle)
  | .ackTimeout => .event (eventRecord 0b10#2 0#1 0#32)
  | .reset => .event (eventRecord 0b11#2 0#1 0#32)

/-- The expansion of a pseudo-instruction, one step per element (R90); none for a `PAYLOAD_BYTE j` with `j` above 252. -/
def Pseudo.expand : Pseudo → Option (List Instr)
  | .tryReceive => some [.receive]
  | .isAvailable => some [.available]
  | .stats => some [.getCount, .getCorrupt, .getRepaired]
  | .payloadByte j => if j.toNat ≤ 252 then some [.outByte (3#8 + j)] else none

end Sys2Proof
end

