-- ==== Sys2Proof/Machine/Fetch.lean ====
section
/-! DEFINITION. Taking the next presentation (`20_memory.md` R66, `30_encoding.md` R81). The block fetches nothing
(`20_memory.md` R73): what it runs next is what the environment presents next. -/

namespace Sys2Proof.Machine

/-- What the block takes next. -/
inductive Taken where
  /-- Nothing is presented: the block is idle. -/
  | idle
  /-- A presentation, and the state with it taken off the environment's order. -/
  | presented (p : Presentation) (s : State)
deriving DecidableEq, Repr

/-- The first presentation of the environment's order. -/
def takeInput (s : State) : Taken :=
  match s.inputs with
  | [] => .idle
  | p :: rest => .presented p { s with inputs := rest }

/-- With nothing presented the block keeps all of its state (`60_exceptions.md` R256) and its step ports are low. -/
def idleStep (s : State) : Result := .next s.quiet

/-- A command word that is no row of the opcode table raises ST_ILLEGAL (`30_encoding.md` R88). -/
def illegalWordStep (s : State) : Result := raiseIllegal s

/-- A record that spells no event is refused: the step does not exist (`30_encoding.md` R82). -/
def noEventStep : Result := .refused .noSuchEvent

/-- Put a presentation at the front of the environment's order, so that it is the next one taken. -/
def State.present (s : State) (p : Presentation) : State := { s with inputs := p :: s.inputs }

end Sys2Proof.Machine
end

