-- ==== Sys2Proof/Machine/Step.lean ====
section
/-! DEFINITION. One step: take the next presentation, decode it, run it (`20_memory.md` R66, `30_encoding.md` R81). -/

namespace Sys2Proof.Machine

/-- One step of the block. -/
def step (s : State) : Host.Outcome State Fault Refusal :=
  match takeInput s with
  | .idle => idleStep s
  | .presented p s' =>
    match decode p with
    | .instr i => exec i s'
    | .illegalWord _ => illegalWordStep s'
    | .noEvent _ => noEventStep

/-- The state with an opcode-table word presented next (notes/assumptions/3). A word that fits no format of the table
cannot be presented and leaves the state as it is. -/
def State.withFetchWord (s : State) (nbits w : Nat) : State :=
  match presentationOfTableWord nbits w with
  | some p => s.present p
  | none => s

end Sys2Proof.Machine
end

