-- ==== Sys2Proof/Safety.lean ====
section
/-! DEFINITION. What a state of a run looks like: the invariants of `10_state.md` R38 with what the rules need beside
them, and the shape of the queue and of its sequence numbers (`43_queue.md` R207, `44_descriptor_access.md` R233). -/

namespace Sys2Proof.Machine

/-- The SOF byte, `Unpack(0x03D)` (`30_encoding.md` R97). -/
def sofByte : Byte := 0x0E#8

/-- A decode outcome that a frame still being decoded can have: ERROR_MANCHESTER needs the check enabled
(`42_frame_fsm.md` R171). -/
def DecodeResult.live (p : Config.Params) (r : DecodeResult) : Prop :=
  r = .ok ∨ (r = .errorManchester ∧ p.manchesterCheck = true)

/-- The fields of a descriptor whose state is VACANT or SEARCHING: frame start and RECEIVE clear them. -/
def Descriptor.Blank (d : Descriptor) : Prop := d.size = 0#8 ∧ d.ack = .none ∧ d.result = .ok

/-- The fields of a descriptor whose frame is confirmed and not completed. -/
def Descriptor.Live (p : Config.Params) (d : Descriptor) : Prop :=
  1 ≤ d.size.toNat ∧ d.ack = .none ∧ d.result.live p

/-- The fields of a completed frame (`60_exceptions.md` R241): every delivered frame holds its SOF byte, and only a
frame that ended by acknowledgement or timeout can be acknowledged. -/
def Descriptor.Completed (p : Config.Params) (d : Descriptor) : Prop :=
  1 ≤ d.size.toNat ∧
    (d.result.live p ∨ (d.result = .errorNbits ∧ d.ack = .none) ∨
      (d.result = .errorMaxPacket ∧ d.ack = .none ∧ d.size.toNat = p.maxPacket))

/-- The fields that go with each decode state. -/
def Descriptor.Phase (p : Config.Params) (d : Descriptor) : Prop :=
  match d.state with
  | .vacant => d.Blank
  | .searching => d.Blank
  | .loading => d.Live p ∧ d.size.toNat < p.maxPacket
  | .waitingAck => d.Live p
  | .done => d.Completed p

/-- A descriptor's buffer and length: the length fits (`10_state.md` R38), the contents are in canonical form inside
the buffer, and a frame starts with its SOF byte (`30_encoding.md` R98). -/
structure Descriptor.BufferOk (p : Config.Params) (d : Descriptor) : Prop where
  sizeFits : d.size.toNat ≤ p.maxPacket
  canonical : d.bytes.wf = true
  inside : d.bytes.within p.maxPacket = true
  startsWithSof : 1 ≤ d.size.toNat → d.bytes.read 0 = sofByte

/-- Pool descriptor `k`: `slot[k].slot` is the constant `k` (`10_state.md` R35). -/
structure Descriptor.PoolOk (p : Config.Params) (k : Nat) (d : Descriptor) : Prop where
  buffer : d.BufferOk p
  phase : d.Phase p
  self : d.slot.toNat = k

/-- OUT: as after reset, or a copy of a completed frame (`43_queue.md` R201). -/
structure Descriptor.OutOk (p : Config.Params) (d : Descriptor) : Prop where
  buffer : d.BufferOk p
  phase : d.Phase p
  copied : d.state = .vacant ∨ d.state = .done
  self : d.slot.toNat < p.q

/-- The bound of JIT (`10_state.md` R33). -/
def jitterBound (p : Config.Params) : Nat := (p.thr6 - p.thr5 - 1) + p.eatCarry

/-- What holds between any two steps (`10_state.md` R24, R25, R33, R35, R38, `42_frame_fsm.md` R172). -/
structure State.Inv (s : State) : Prop where
  legal : s.params.Legal
  poolSize : s.slot.length = s.params.q
  headInPool : s.head.toNat < s.params.q
  tailInPool : s.tail.toNat < s.params.q
  poolOk : ∀ (k : Nat) (d : Descriptor), s.slot[k]? = some d → d.PoolOk s.params k
  onlyHeadActive : ∀ (k : Nat) (d : Descriptor), s.slot[k]? = some d → k ≠ s.head.toNat → d.state = .vacant ∨ d.state = .done
  outOk : s.out.OutOk s.params
  atBitSmall : s.atBit.toNat ≤ 9
  jitterSmall : s.jit.toNat ≤ jitterBound s.params
  armedWhileWaiting : ∀ d : Descriptor, s.headSlot? = some d → d.state = .waitingAck → s.timerArmed = true

/-- The pool index that lies `j` after TAIL, modulo `Q`. -/
def State.afterTail (s : State) (j : Nat) : Nat := (s.tail.toNat + j) % s.params.q

/-- The queue holds `held` frames: the DONE slots are the `held` consecutive ones from TAIL, and HEAD follows them
(`43_queue.md` R207). -/
structure State.Holds (s : State) (held : Nat) : Prop where
  fits : held ≤ s.params.q
  headFollows : s.head.toNat = s.afterTail held
  doneExactly : ∀ (j : Nat) (d : Descriptor), j < s.params.q → s.slot[s.afterTail j]? = some d → (d.state = .done ↔ j < held)

/-- A decode state in which a frame is confirmed but not completed. -/
def DState.confirmed (st : DState) : Bool := st == .loading || st == .waitingAck

/-- Sequence numbers count completed frames (`44_descriptor_access.md` R233, `20_memory.md` R71): with `held` frames
in the queue, the frame `j` after TAIL carries `COUNT - held + j`, OUT carries the number before TAIL's, and the frame
being decoded, once confirmed, carries `COUNT`. All modulo 2^32. -/
structure State.Numbered (s : State) (held : Nat) : Prop where
  queued : ∀ (j : Nat) (d : Descriptor), j < held → s.slot[s.afterTail j]? = some d →
    d.seqNo = s.count - BitVec.ofNat 32 held + BitVec.ofNat 32 j
  drained : s.out.state = .done → s.out.seqNo = s.count - BitVec.ofNat 32 held - 1#32
  confirmed : ∀ d : Descriptor, s.headSlot? = some d → d.state.confirmed = true →
    d.seqNo = s.count ∧ s.seq = s.count + 1#32
  unconfirmed : ∀ d : Descriptor, s.headSlot? = some d → d.state.confirmed = false → s.seq = s.count

/-- The queue is in order: some number of frames is held, and they are numbered in arrival order. -/
def State.InOrder (s : State) : Prop := ∃ held, s.Holds held ∧ s.Numbered held

/-- A step that does not stop with a fault. -/
def State.StepSafe (s : State) : Prop := ∀ f, step s ≠ .fault f

end Sys2Proof.Machine
end

