-- ==== Sys2Proof/WellFormed.lean ====
section
/-! DEFINITION. Which argument values a command's ARG reading allows (`30_encoding.md` R84, R85; `10_state.md` R41).
A command with an ill-formed argument is still a step of the block: it raises ST_ILLEGAL (R88, R206). -/

namespace Sys2Proof

/-- A legal BUFSEL: 0x80 names OUT, `k < Q` names pool slot `k` (`30_encoding.md` R85). -/
def bufSelLegal (p : Config.Params) (sel : Byte) : Bool :=
  sel == 0x80#8 || decide (sel.toNat < p.q)

/-- An assigned register number (`10_state.md` R41). -/
def regNumLegal (num : Byte) : Bool := decide (num.toNat ≤ 5)

/-- The argument is one that the opcode's reading allows. An INDEX is any byte, and a NONE argument has no field. -/
def Instr.wellFormed (p : Config.Params) : Instr → Bool
  | .setup => true
  | .receive => true
  | .available => true
  | .getCount => true
  | .getCorrupt => true
  | .getRepaired => true
  | .readReg num => regNumLegal num
  | .crcCompute sel => bufSelLegal p sel
  | .crcVerify sel => bufSelLegal p sel
  | .crcRepair sel => bufSelLegal p sel
  | .outByte _ => true
  | .outSize => true
  | .outMeta => true
  | .outSeqno => true
  | .frameIden => true
  | .frameFlags => true
  | .frameDatalen => true
  | .frameCrc => true
  | .edge _ _ => true
  | .ackTimeout => true
  | .reset => true

end Sys2Proof
end

