-- ==== Sys2Proof/Certificates/Slice0/Obligations.lean ====
section
/-! DEFINITION. The statements about the block. A statement of an instruction's effect gives the WHOLE next state, so
its result, its frame and its completion are one equation: every field that the record update does not name is
unchanged, memory included. No statement rests on a parameter's value: `s.params` is any parameter set. -/

namespace Sys2Proof.Claims

open Sys2Proof.Machine

/-- The state after a command step that wrote the registers as `s` has them and answered `(st, v)`. -/
def answer (st : Status) (v : Word) (s : State) : State :=
  { s with outputs := { rsp := some { status := st, data := v }, armAckTimer := false } }

/-- The state after an event step that wrote the registers as `s` has them: no response, no pulse. -/
def silent (s : State) : State := { s with outputs := { rsp := none, armAckTimer := false } }

/-- A NONE-argument command (`30_encoding.md` R84, R88): the word with ARG 0 is the instruction, every other word
with that opcode raises ST_ILLEGAL and changes nothing. -/
def NoneCommand (opc : Byte) (i : Instr) : Prop :=
  decode (.command (opc ++ 0#8)) = .instr i ∧
    ∀ (s : State) (rest : List Presentation) (arg : Byte), arg ≠ 0#8 → s.inputs = .command (opc ++ arg) :: rest →
      step s = .next (answer .illegal 0#32 { s with inputs := rest })

/-- The reserved opcodes (`30_encoding.md` R88). -/
def ReservedOpcode (opc : Byte) : Prop :=
  opc.toNat = 0 ∨ (0x08 ≤ opc.toNat ∧ opc.toNat ≤ 0x0F) ∨ (0x13 ≤ opc.toNat ∧ opc.toNat ≤ 0x1F) ∨ 0x28 ≤ opc.toNat

/-- The opcodes with a NONE argument (`30_encoding.md` R87). -/
def NoneOpcode (opc : Byte) : Prop :=
  (0x01 ≤ opc.toNat ∧ opc.toNat ≤ 0x06) ∨ (0x21 ≤ opc.toNat ∧ opc.toNat ≤ 0x27)

/-- The opcodes with a BUFSEL argument (`30_encoding.md` R87). -/
def BufselOpcode (opc : Byte) : Prop := 0x10 ≤ opc.toNat ∧ opc.toNat ≤ 0x12

/-- The value of a boolean in a response word. -/
def bit (b : Bool) : Word := if b = true then 1#32 else 0#32

/-- The encoding of a decode state (`30_encoding.md` R92). -/
def stateNumber (st : DState) : Nat :=
  if st = .vacant then 0 else if st = .searching then 1 else if st = .loading then 2 else if st = .waitingAck then 3 else 4

/-- The encoding of a decode outcome (`30_encoding.md` R93). -/
def resultNumber (r : DecodeResult) : Nat :=
  if r = .ok then 0 else if r = .errorNbits then 1 else if r = .errorMaxPacket then 2 else 3

/-- The encoding of an acknowledgement (`30_encoding.md` R94). -/
def ackNumber (a : Ack) : Nat := if a = .ack then 1 else 0

/-- The index after `k`, modulo `Q` (`00_scope.md` R13). -/
def succIndex (s : State) (k : SlotIndex) : SlotIndex := BitVec.ofNat 7 ((k.toNat + 1) % s.params.q)

/-- A BUFSEL argument that names a buffer: 0x80 is OUT, a number below `Q` is a DONE pool slot
(`30_encoding.md` R85, `40_crc.md` R121). -/
def Names (s : State) (sel : Byte) (d : Descriptor) : Prop :=
  (sel = 0x80#8 ∧ d = s.out) ∨
    (sel ≠ 0x80#8 ∧ sel.toNat < s.params.q ∧ s.slot[sel.toNat]? = some d ∧ d.state = .done)

/-- The state with the contents of the named buffer replaced. -/
def rewritten (s : State) (sel : Byte) (m : Memory) : State :=
  if sel = 0x80#8 then { s with out := { s.out with bytes := m } }
  else { s with slot := s.slot.modify sel.toNat fun d => { d with bytes := m } }

/-- The contents with bit `j` of byte `i` flipped. -/
def flipped (m : Memory) (i j : Nat) : Memory := m.write i (m.read i ^^^ (1#8 <<< j))

/-- The flip `(i', j')` is tried before `(i, j)`: bytes ascending, then bits ascending (`40_crc.md` R126). -/
def TriedBefore (i' j' i j : Nat) : Prop := i' < i ∨ (i' = i ∧ j' < j)

/-- One input bit of the CRC register, in the words of `40_crc.md` R120. -/
def specCrcBit (c : CrcRegister) (b : Bool) : CrcRegister :=
  let shifted := BitVec.ofNat 15 (2 * c.toNat)
  if c.getLsbD 14 = b then shifted else shifted ^^^ 0x0F9D#15

/-- The run that an edge at `t` ends: its length and its jitter (`41_bit_timing.md` R140, R141, R143). -/
def runOf (s : State) (t : Word) : Nat × Nat := classify s.params ((t - s.prev).toNat + s.jit.toNat)

/-- The eat rule fires (`41_bit_timing.md` R146). -/
def Eaten (s : State) (n : Nat) : Prop := 2 ≤ n ∧ s.atBit.toNat + n = 5

/-- `k` is the length of a run of `n` after the eat rule (`41_bit_timing.md` R146). -/
def Kept (s : State) (n k : Nat) : Prop := (Eaten s n → k = n - 1) ∧ (¬ Eaten s n → k = n)

/-- JIT after a classified run of `n` bits with jitter `jout` (`41_bit_timing.md` R148). Where the sum does not fit
32 bits the spec states no value: `j` is then any value, and only there may the free-value counter move. -/
def JitterAfter (s : State) (n jout : Nat) (j : Word) (f : Nat) : Prop :=
  (¬ Eaten s n → j.toNat = jout ∧ f = s.freeCount) ∧
    (Eaten s n → jout + s.params.eatCarry < 2 ^ 32 → j.toNat = jout + s.params.eatCarry ∧ f = s.freeCount)

/-- BITS after `k` bits of the level that just ended are appended (`42_frame_fsm.md` R167). -/
def bitsAfter (s : State) (L : Level) (k : Nat) : Word :=
  (s.bits <<< k) ||| (if L = .low then BitVec.ofNat 32 (2 ^ k - 1) else 0#32)

/-- The registers after a run of `k` bits is appended and `left` bits stay unassembled. -/
def assembled (s : State) (L : Level) (t : Word) (k left : Nat) (j : Word) (f : Nat) : State :=
  { s with prev := t, jit := j, freeCount := f, bits := bitsAfter s L k, atBit := BitVec.ofNat 5 left,
           outputs := { rsp := none, armAckTimer := false } }

/-- The unit that completes when `left` bits are left over: the ten oldest unassembled bits (`42_frame_fsm.md` R168). -/
def unitOf (s : State) (L : Level) (k left : Nat) : LineUnit := (bitsAfter s L k >>> left).setWidth 10

/-- `Unpack(u)` as `{u[9:6], u[4:1]}` (`30_encoding.md` R96). -/
def dataByte (u : LineUnit) : Byte := u.extractLsb' 6 4 ++ u.extractLsb' 1 4

/-- What an edge step finds when it ends a run in a frame being decoded: the block is enabled, the head descriptor
`d` is SEARCHING or LOADING, and the run has `n` bits and jitter `jout`. -/
structure EndsRun (s : State) (t : Word) (d : Descriptor) (n jout : Nat) : Prop where
  legal : s.params.Legal
  enabled : s.enabled = true
  head : s.slot[s.head.toNat]? = some d
  active : d.state = .searching ∨ d.state = .loading
  run : runOf s t = (n, jout)

/-- The run is of 1 to 9 bits, `k` of them are kept, and they complete a unit with `left` bits left over. -/
structure CompletesUnit (s : State) (t : Word) (d : Descriptor) (n jout k left : Nat) : Prop extends
    EndsRun s t d n jout where
  short : n ≤ 9
  kept : Kept s n k
  assembling : s.atBit.toNat ≤ 9
  completes : s.atBit.toNat + k = left + 10

/-- The head descriptor after the data unit `u` is appended and, where enabled, checked
(`42_frame_fsm.md` R170, R171). -/
def appended (p : Config.Params) (d : Descriptor) (u : LineUnit) : Descriptor :=
  { d with
    bytes := d.bytes.write d.size.toNat (dataByte u)
    size := d.size + 1#8
    result :=
      if p.manchesterCheck = true ∧ (u.getLsbD 5 = u.getLsbD 6 ∨ u.extractLsb' 0 2 = 0b11#2) ∧ d.result = .ok
      then .errorManchester else d.result }

/-- The state with the head frame completed: the slot holds `d`, COUNT and HEAD advance (`42_frame_fsm.md` R175). -/
def completedWith (s : State) (d : Descriptor) : State :=
  { s with slot := s.slot.set s.head.toNat { d with state := .done }, count := s.count + 1#32
           head := succIndex s s.head }

/-- The causes of ST_ILLEGAL among the commands of the table (`60_exceptions.md` R242). -/
def IllegalCause (s : State) : Instr → Prop
  | .readReg num => 6 ≤ num.toNat
  | .crcCompute sel => sel ≠ 0x80#8 ∧ s.params.q ≤ sel.toNat
  | .crcVerify sel => sel ≠ 0x80#8 ∧ s.params.q ≤ sel.toNat
  | .crcRepair sel => sel ≠ 0x80#8 ∧ s.params.q ≤ sel.toNat
  | .outByte index => s.out.size.toNat ≤ index.toNat
  | .frameIden => s.out.size.toNat < 3
  | .frameFlags => s.out.size.toNat < 3
  | .frameDatalen => s.out.size.toNat < 5
  | .frameCrc => s.out.size.toNat < 5
  | .setup => False
  | .receive => False
  | .available => False
  | .getCount => False
  | .getCorrupt => False
  | .getRepaired => False
  | .outSize => False
  | .outMeta => False
  | .outSeqno => False
  | .edge _ _ => False
  | .ackTimeout => False
  | .reset => False

/-- A BUFSEL argument that names a pool slot that is not DONE (`60_exceptions.md` R242). -/
def BusyCause (s : State) (sel : Byte) : Prop :=
  sel ≠ 0x80#8 ∧ ∃ d, sel.toNat < s.params.q ∧ s.slot[sel.toNat]? = some d ∧ d.state ≠ .done

/-- The cause of ST_BUSY among the commands of the table (`60_exceptions.md` R242). -/
def BusyInstr (s : State) : Instr → Prop
  | .crcCompute sel => BusyCause s sel
  | .crcVerify sel => BusyCause s sel
  | .crcRepair sel => BusyCause s sel
  | .setup => False
  | .receive => False
  | .available => False
  | .getCount => False
  | .getCorrupt => False
  | .getRepaired => False
  | .readReg _ => False
  | .outByte _ => False
  | .outSize => False
  | .outMeta => False
  | .outSeqno => False
  | .frameIden => False
  | .frameFlags => False
  | .frameDatalen => False
  | .frameCrc => False
  | .edge _ _ => False
  | .ackTimeout => False
  | .reset => False

/-- The commands with no side effect (`20_memory.md` R65). -/
def ReadsOnly : Instr → Prop
  | .available => True
  | .getCount => True
  | .getCorrupt => True
  | .getRepaired => True
  | .readReg _ => True
  | .crcCompute _ => True
  | .crcVerify _ => True
  | .outByte _ => True
  | .outSize => True
  | .outMeta => True
  | .outSeqno => True
  | .frameIden => True
  | .frameFlags => True
  | .frameDatalen => True
  | .frameCrc => True
  | .setup => False
  | .receive => False
  | .crcRepair _ => False
  | .edge _ _ => False
  | .ackTimeout => False
  | .reset => False

end Sys2Proof.Claims

open Sys2Proof Sys2Proof.Machine Sys2Proof.Claims

/-! ### Encoding and stepping -/

/-- `30_encoding.md` R82, R83, R87, R91: the decoder reads an instruction from exactly its encoding, and from nothing
else. -/
def Obligations.DecodeInvertsEncode : Prop :=
  ∀ (p : Presentation) (i : Instr), decode p = .instr i ↔ encode i = p

/-- `30_encoding.md` R89 and `95_test_vectors.md` V-ENC-14 to V-ENC-16: words written out in the spec. -/
def Obligations.WrittenWordsDecode : Prop :=
  decode (.command 0x1280#16) = .instr (.crcRepair 0x80#8) ∧
  decode (.command 0x1102#16) = .instr (.crcVerify 0x02#8) ∧
  decode (.command 0x0701#16) = .instr (.readReg 0x01#8) ∧
  decode (.command 0x0200#16) = .instr .receive ∧
  decode (.command 0x2001#16) = .instr (.outByte 0x01#8) ∧
  decode (.event 0x4000003E8#36) = .instr (.edge .low 1000#32) ∧
  decode (.event 0x500000DE8#36) = .instr (.edge .high 3560#32) ∧
  decode (.event 0x800000000#36) = .instr .ackTimeout ∧
  decode (.event 0xC00000000#36) = .instr .reset

/-- `30_encoding.md` R88: a reserved opcode, a NONE argument that is not 0 and an illegal BUFSEL raise ST_ILLEGAL and
change no state. -/
def Obligations.IllegalWordsAnswerIllegal : Prop :=
  ∀ (s : State) (rest : List Presentation) (opc arg : Byte), s.inputs = .command (opc ++ arg) :: rest →
    (ReservedOpcode opc ∨ (NoneOpcode opc ∧ arg ≠ 0#8) ∨
      (BufselOpcode opc ∧ arg ≠ 0x80#8 ∧ s.params.q ≤ arg.toNat)) →
    step s = .next (answer .illegal 0#32 { s with inputs := rest })

/-- `30_encoding.md` R82: which records spell which events, and that the others are refused. -/
def Obligations.RecordsSpellEvents : Prop :=
  ∀ (s : State) (r : EventRecord) (rest : List Presentation), s.inputs = .event r :: rest →
    ((r.extractLsb' 34 2 = 0b00#2 ∨ r.extractLsb' 33 1 = 1#1) → step s = .refused .noSuchEvent) ∧
    ((r.extractLsb' 34 2 = 0b10#2 ∨ r.extractLsb' 34 2 = 0b11#2) → (r.extractLsb' 32 1 ≠ 0#1 ∨ r.extractLsb' 0 32 ≠ 0#32) →
      step s = .refused .noSuchEvent) ∧
    (r.extractLsb' 33 1 = 0#1 →
      (r.extractLsb' 34 2 = 0b01#2 →
        step s = exec (.edge (if r.extractLsb' 32 1 = 1#1 then .high else .low) (r.extractLsb' 0 32))
          { s with inputs := rest }) ∧
      (r.extractLsb' 32 1 = 0#1 → r.extractLsb' 0 32 = 0#32 →
        (r.extractLsb' 34 2 = 0b10#2 → step s = exec .ackTimeout { s with inputs := rest }) ∧
        (r.extractLsb' 34 2 = 0b11#2 → step s = exec .reset { s with inputs := rest })))

/-- A step takes the next presentation and runs the instruction it decodes to; with nothing presented the block is
idle and keeps its state, its step ports low (`30_encoding.md` R81, `60_exceptions.md` R256; the order of
presentations held in the state is the model's choice, notes/assumptions/3 and 5). -/
def Obligations.StepRunsDecoded : Prop :=
  (∀ (s : State) (p : Presentation) (rest : List Presentation) (i : Instr), s.inputs = p :: rest →
    decode p = .instr i → step s = exec i { s with inputs := rest }) ∧
  ∀ s : State, s.inputs = [] → step s = .next (silent s)

/-! ### Queue commands (43_queue.md) -/

/-- `43_queue.md` R200: SETUP attaches once, clears nothing, and nothing but reset takes ENABLED back to 0. -/
def Obligations.SetupAttachesOnce : Prop :=
  NoneCommand 0x01#8 .setup ∧
  (∀ s : State, s.enabled = true → exec .setup s = .next (answer .ok 0#32 s)) ∧
  (∀ s : State, s.enabled = false → exec .setup s = .next (answer .ok 1#32 { s with enabled := true })) ∧
  ∀ (i : Instr) (s t : State), exec i s = .next t → s.enabled = true → i ≠ .reset → t.enabled = true

/-- `43_queue.md` R201: RECEIVE copies the tail frame to OUT, reports and clears OVERRUN, frees the slot and advances
TAIL; with nothing to drain it changes nothing. The copy is no reference: no producer step changes OUT. -/
def Obligations.ReceiveDrainsTail : Prop :=
  NoneCommand 0x02#8 .receive ∧
  ∀ (s : State) (d : Descriptor), s.slot[s.tail.toNat]? = some d →
    (d.state ≠ .done → exec .receive s = .next (answer .ok 0#32 s)) ∧
    (d.state = .done →
      exec .receive s = .next (answer .ok (1#32 ||| (bit s.overrun <<< 1))
        { s with
          out := d
          overrun := false
          slot := s.slot.set s.tail.toNat { d with state := .vacant, size := 0#8, result := .ok, ack := .none }
          tail := succIndex s s.tail })) ∧
    (∀ (L : Level) (c : Word) (t : State), exec (.edge L c) s = .next t → t.out = s.out) ∧
    ∀ t : State, exec .ackTimeout s = .next t → t.out = s.out

/-- `43_queue.md` R202: AVAILABLE answers whether the tail slot is DONE, is 1 exactly when a RECEIVE issued next would
answer GOT, agrees with the avail port, and stays 1 until the consumer drains or a reset comes. -/
def Obligations.AvailableForetellsReceive : Prop :=
  NoneCommand 0x03#8 .available ∧
  (∀ (s : State) (d : Descriptor), s.slot[s.tail.toNat]? = some d →
    exec .available s = .next (answer .ok (bit (d.state == .done)) s) ∧ s.availPort = (d.state == .done) ∧
    ∃ (t : State) (v : Word), exec .receive (answer .ok (bit (d.state == .done)) s) = .next t ∧
      t.outputs.rsp = some { status := .ok, data := v } ∧ v.getLsbD 0 = (d.state == .done)) ∧
  ∀ (i : Instr) (s t : State), exec i s = .next t → i ≠ .receive → i ≠ .reset → s.availPort = true → t.availPort = true

/-- `43_queue.md` R203 to R205: the three statistics reads answer their counter and change nothing, and only CRC_REPAIR
and RESET change the two repair counters. -/
def Obligations.CounterReadsAnswer : Prop :=
  NoneCommand 0x04#8 .getCount ∧ NoneCommand 0x05#8 .getCorrupt ∧ NoneCommand 0x06#8 .getRepaired ∧
  (∀ s : State,
    exec .getCount s = .next (answer .ok s.count s) ∧
    exec .getCorrupt s = .next (answer .ok s.nCorrupt s) ∧
    exec .getRepaired s = .next (answer .ok s.nRepaired s)) ∧
  ∀ (i : Instr) (s t : State), exec i s = .next t → (∀ sel, i ≠ .crcRepair sel) → i ≠ .reset →
    t.nCorrupt = s.nCorrupt ∧ t.nRepaired = s.nRepaired

/-- `10_state.md` R41, `43_queue.md` R206: every bit of the register view reads back what the block holds, every
reserved bit is 0, a reserved number raises ST_ILLEGAL, and reading changes nothing. -/
def Obligations.RegisterViewFields : Prop :=
  ∀ (s : State) (t h : Descriptor), s.params.Legal → s.slot[s.tail.toNat]? = some t →
    s.slot[s.head.toNat]? = some h →
    (∃ v : Word, exec (.readReg 0x00#8) s = .next (answer .ok v s) ∧
      v.getLsbD 0 = (t.state == .done) ∧ v.getLsbD 1 = s.overrun ∧ v.getLsbD 2 = s.enabled ∧
      v.getLsbD 3 = s.timerArmed ∧ v.extractLsb' 4 3 = BitVec.ofNat 3 (stateNumber h.state) ∧ v.getLsbD 7 = false ∧
      v.extractLsb' 8 7 = s.head ∧ v.getLsbD 15 = false ∧ v.extractLsb' 16 7 = s.tail ∧
      v.extractLsb' 23 9 = 0#9) ∧
    (exec (.readReg 0x01#8) s = .next (answer .ok s.count s) ∧
      exec (.readReg 0x02#8) s = .next (answer .ok s.nCorrupt s) ∧
      exec (.readReg 0x03#8) s = .next (answer .ok s.nRepaired s) ∧
      exec (.readReg 0x04#8) s = .next (answer .ok s.seq s)) ∧
    (∃ v : Word, exec (.readReg 0x05#8) s = .next (answer .ok v s) ∧
      (v.extractLsb' 0 8).toNat = s.params.q ∧ (v.extractLsb' 8 8).toNat = s.params.maxPacket ∧
      v.getLsbD 16 = s.params.manchesterCheck ∧ v.extractLsb' 17 15 = 0#15) ∧
    ∀ num : Byte, 6 ≤ num.toNat → exec (.readReg num) s = .next (answer .illegal 0#32 s)

/-! ### CRC commands (40_crc.md) -/

/-- `40_crc.md` R120: the CRC register, byte by byte, and that it reads only the bytes of its range. -/
def Obligations.CrcRegisterFollowsBytes : Prop :=
  ∀ (m : Memory) (lo hi : Nat),
    (hi ≤ lo → crcReg m lo hi = 0x7FFF#15) ∧
    (lo ≤ hi → crcReg m lo (hi + 1) =
      (List.range 8).foldl (fun c k => specCrcBit c ((m.read hi).getLsbD (7 - k))) (crcReg m lo hi)) ∧
    ∀ m' : Memory, (∀ i, lo ≤ i → i < hi → m.read i = m'.read i) → crcReg m lo hi = crcReg m' lo hi

/-- `40_crc.md` R121: which BUFSEL arguments the CRC commands take, and what they raise for the others. -/
def Obligations.ResolveRaises : Prop :=
  ∀ (s : State) (sel : Byte),
    (sel ≠ 0x80#8 → s.params.q ≤ sel.toNat →
      exec (.crcCompute sel) s = .next (answer .illegal 0#32 s) ∧
      exec (.crcVerify sel) s = .next (answer .illegal 0#32 s) ∧
      exec (.crcRepair sel) s = .next (answer .illegal 0#32 s)) ∧
    (∀ d : Descriptor, sel ≠ 0x80#8 → sel.toNat < s.params.q → s.slot[sel.toNat]? = some d → d.state ≠ .done →
      exec (.crcCompute sel) s = .next (answer .busy 0#32 s) ∧
      exec (.crcVerify sel) s = .next (answer .busy 0#32 s) ∧
      exec (.crcRepair sel) s = .next (answer .busy 0#32 s)) ∧
    ∀ d : Descriptor, Names s sel d → d.size.toNat ≤ s.params.maxPacket →
      resolve sel s = .buffer (if sel = 0x80#8 then .out else .pool sel.toNat) d.bytes d.size.toNat

/-- `40_crc.md` R122, R124: CRC_COMPUTE answers the complemented register shifted by one, 0 for a frame below 3 bytes,
and reads neither byte 0 nor the two trailing bytes. -/
def Obligations.CrcComputeAnswers : Prop :=
  (∀ (s : State) (sel : Byte) (d : Descriptor), Names s sel d → d.size.toNat ≤ s.params.maxPacket →
    exec (.crcCompute sel) s = .next (answer .ok ((crcCompute d.bytes d.size.toNat).setWidth 32) s)) ∧
  ∀ (m : Memory) (n : Nat),
    (n < 3 → crcCompute m n = 0#16) ∧
    (3 ≤ n → (crcCompute m n).toNat = 2 * (crcReg m 1 (n - 2) ^^^ 0x7FFF#15).toNat) ∧
    (crcCompute m n).getLsbD 0 = false ∧
    ∀ m' : Memory, (∀ i, 1 ≤ i → i + 2 < n → m.read i = m'.read i) → crcCompute m n = crcCompute m' n

/-- `40_crc.md` R123, R125: CRC_VERIFY answers whether the register over bytes 1 to n-1 is the residue; it changes
nothing, fails below 2 bytes, and does not read byte 0. -/
def Obligations.CrcVerifyAnswers : Prop :=
  (∀ (s : State) (sel : Byte) (d : Descriptor), Names s sel d → d.size.toNat ≤ s.params.maxPacket →
    exec (.crcVerify sel) s = .next (answer .ok (if crcReg d.bytes 1 d.size.toNat = 0x19B7#15 then 1#32 else 0#32) s)) ∧
  ∀ (m : Memory) (n : Nat),
    (n ≤ 1 → crcVerify m n = false) ∧
    ∀ v : Byte, m.wf = true → crcVerify (m.write 0 v) n = crcVerify m n

/-- `40_crc.md` R126: CRC_REPAIR. A clean frame is left alone; otherwise NCORRUPT counts, and the first flip in the
order byte ascending, bit ascending that verifies is kept and counted, or nothing changes but NCORRUPT. An argument that
names no DONE buffer raises, and counts nothing. -/
def Obligations.RepairKeepsFirstVerifyingFlip : Prop :=
  (∀ (s : State) (sel : Byte), sel ≠ 0x80#8 →
    (s.params.q ≤ sel.toNat → exec (.crcRepair sel) s = .next (answer .illegal 0#32 s)) ∧
    ∀ d : Descriptor, sel.toNat < s.params.q → s.slot[sel.toNat]? = some d → d.state ≠ .done →
      exec (.crcRepair sel) s = .next (answer .busy 0#32 s)) ∧
  ∀ (s : State) (sel : Byte) (d : Descriptor), Names s sel d → d.size.toNat ≤ s.params.maxPacket →
    d.bytes.wf = true →
    (crcVerify d.bytes d.size.toNat = true → exec (.crcRepair sel) s = .next (answer .ok 1#32 s)) ∧
    (crcVerify d.bytes d.size.toNat = false →
      (∀ i j, i < d.size.toNat → j < 8 → crcVerify (flipped d.bytes i j) d.size.toNat = true →
        (∀ i' j', i' < d.size.toNat → j' < 8 → TriedBefore i' j' i j →
          crcVerify (flipped d.bytes i' j') d.size.toNat = false) →
        exec (.crcRepair sel) s = .next (answer .ok (3#32 ||| (BitVec.ofNat 32 j <<< 8) ||| (BitVec.ofNat 32 i <<< 16))
          { rewritten s sel (flipped d.bytes i j) with
            nCorrupt := s.nCorrupt + 1#32, nRepaired := s.nRepaired + 1#32 })) ∧
      ((∀ i j, i < d.size.toNat → j < 8 → crcVerify (flipped d.bytes i j) d.size.toNat = false) →
        exec (.crcRepair sel) s = .next (answer .ok 0#32 { s with nCorrupt := s.nCorrupt + 1#32 }))) ∧
    ∀ j, crcVerify (flipped d.bytes 0 j) d.size.toNat = crcVerify d.bytes d.size.toNat

/-- `40_crc.md` R126, `70_reset_and_hazards.md` R274: a second CRC_REPAIR of a buffer that the first one fixed takes
the clean path: it answers 1, changes nothing and counts nothing. -/
def Obligations.RepairTwiceCountsOnce : Prop :=
  ∀ (s t : State) (sel : Byte) (v : Word), s.Inv → exec (.crcRepair sel) s = .next t →
    t.outputs.rsp = some { status := .ok, data := v } → v.getLsbD 1 = true →
    exec (.crcRepair sel) t = .next (answer .ok 1#32 t)

/-- `40_crc.md` R125: every single-bit flip in bytes 1 to n-1 of a frame that verifies makes it fail. -/
def Obligations.SingleBitErrorDetected : Prop :=
  ∀ (m : Memory) (n i j : Nat), m.wf = true → crcVerify m n = true → 1 ≤ i → i < n → j < 8 →
    crcVerify (flipped m i j) n = false

/-- `40_crc.md` R127: CRC_REPAIR restores a frame of at most 224 bytes that differs from a valid one in exactly one bit
of bytes 1 to n-1, and reports which. -/
def Obligations.RepairRestoresSingleBitError : Prop :=
  ∀ (s : State) (sel : Byte) (d : Descriptor) (m : Memory) (i j : Nat), Names s sel d →
    d.size.toNat ≤ s.params.maxPacket → d.size.toNat ≤ 224 → m.wf = true → crcVerify m d.size.toNat = true →
    1 ≤ i → i < d.size.toNat → j < 8 → d.bytes = flipped m i j →
    exec (.crcRepair sel) s = .next (answer .ok (3#32 ||| (BitVec.ofNat 32 j <<< 8) ||| (BitVec.ofNat 32 i <<< 16))
      { rewritten s sel m with nCorrupt := s.nCorrupt + 1#32, nRepaired := s.nRepaired + 1#32 })

/-- `40_crc.md` R128: a frame of at least 3 bytes whose two trailing bytes are the computed CRC field, high byte
first, verifies. -/
def Obligations.ComputedCrcVerifies : Prop :=
  ∀ (m : Memory) (n : Nat), m.wf = true → 3 ≤ n →
    crcVerify ((m.write (n - 2) ((crcCompute m n).extractLsb' 8 8)).write (n - 1)
      ((crcCompute m n).extractLsb' 0 8)) n = true

/-! ### Accessors (44_descriptor_access.md) -/

/-- `44_descriptor_access.md` R230: OUT_BYTE. -/
def Obligations.OutByteAnswers : Prop :=
  ∀ (s : State) (index : Byte), s.out.size.toNat ≤ s.params.maxPacket →
    (s.out.size.toNat ≤ index.toNat → exec (.outByte index) s = .next (answer .illegal 0#32 s)) ∧
    (index.toNat < s.out.size.toNat →
      exec (.outByte index) s = .next (answer .ok ((s.out.bytes.read index.toNat).setWidth 32) s))

/-- `44_descriptor_access.md` R231, R233: OUT_SIZE and OUT_SEQNO. Before the first copy the length is 0, and after it from
1 to `MAX_PACKET`. -/
def Obligations.OutSizeAndSeqnoAnswer : Prop :=
  NoneCommand 0x21#8 .outSize ∧ NoneCommand 0x23#8 .outSeqno ∧
  ∀ s : State,
    exec .outSize s = .next (answer .ok (s.out.size.setWidth 32) s) ∧
    exec .outSeqno s = .next (answer .ok s.out.seqNo s) ∧
    (s.Inv → (s.out.state ≠ .done → s.out.size = 0#8) ∧
      (s.out.state = .done → 1 ≤ s.out.size.toNat ∧ s.out.size.toNat ≤ s.params.maxPacket))

/-- `44_descriptor_access.md` R232: OUT_META's fields; every other bit is 0. After a copy the state field is 4; until
one succeeds OUT keeps its reset value, and the response is 0. -/
def Obligations.OutMetaFields : Prop :=
  NoneCommand 0x22#8 .outMeta ∧
  (∀ s : State, ∃ v : Word, exec .outMeta s = .next (answer .ok v s) ∧
    v.extractLsb' 0 3 = BitVec.ofNat 3 (stateNumber s.out.state) ∧ v.getLsbD 3 = false ∧
    v.extractLsb' 4 1 = BitVec.ofNat 1 (ackNumber s.out.ack) ∧ v.extractLsb' 5 3 = 0#3 ∧
    v.extractLsb' 8 2 = BitVec.ofNat 2 (resultNumber s.out.result) ∧ v.extractLsb' 10 6 = 0#6 ∧
    v.extractLsb' 16 7 = s.out.slot ∧ v.extractLsb' 23 9 = 0#9 ∧
    (s.out.state = .done → v.extractLsb' 0 3 = 4#3)) ∧
  ∀ (i : Instr) (s t : State), s.out = Descriptor.atReset 0 → exec i s = .next t →
    (t.out = Descriptor.atReset 0 ∨
      (i = .receive ∧ t.out.state = .done ∧ s.slot[s.tail.toNat]? = some t.out)) ∧
    exec .outMeta s = .next (answer .ok 0#32 s)

/-- `44_descriptor_access.md` R234, R235: FRAME_IDEN and FRAME_FLAGS. -/
def Obligations.FrameHeaderAnswers : Prop :=
  NoneCommand 0x24#8 .frameIden ∧ NoneCommand 0x25#8 .frameFlags ∧
  ∀ s : State, s.params.Legal →
    (s.out.size.toNat < 3 → exec .frameIden s = .next (answer .illegal 0#32 s) ∧
      exec .frameFlags s = .next (answer .illegal 0#32 s)) ∧
    (3 ≤ s.out.size.toNat →
      exec .frameIden s = .next (answer .ok
        (BitVec.ofNat 32 ((s.out.bytes.read 1).toNat * 16 + (s.out.bytes.read 2).toNat / 16)) s) ∧
      exec .frameFlags s = .next (answer .ok (BitVec.ofNat 32 ((s.out.bytes.read 2).toNat % 16)) s))

/-- `44_descriptor_access.md` R236, R237: FRAME_DATALEN and FRAME_CRC. The byte order of the CRC field is the spec's own
inference (`20_memory.md` R63). -/
def Obligations.FrameTrailerAnswers : Prop :=
  NoneCommand 0x26#8 .frameDatalen ∧ NoneCommand 0x27#8 .frameCrc ∧
  ∀ s : State, s.out.size.toNat ≤ s.params.maxPacket →
    (s.out.size.toNat < 5 → exec .frameDatalen s = .next (answer .illegal 0#32 s) ∧
      exec .frameCrc s = .next (answer .illegal 0#32 s)) ∧
    (5 ≤ s.out.size.toNat →
      exec .frameDatalen s = .next (answer .ok (BitVec.ofNat 32 (s.out.size.toNat - 5)) s) ∧
      exec .frameCrc s = .next (answer .ok
        (BitVec.ofNat 32 ((s.out.bytes.read (s.out.size.toNat - 2)).toNat * 256
          + (s.out.bytes.read (s.out.size.toNat - 1)).toNat)) s))

/-! ### Bit timing (41_bit_timing.md) -/

/-- `41_bit_timing.md` R143: the bands of Classify. -/
def Obligations.ClassifyBands : Prop :=
  ∀ (p : Config.Params) (c : Nat),
    (c < p.thr1 → classify p c = (1, 0)) ∧
    (p.thr1 ≤ c → c < p.thr2 → classify p c = (2, 0)) ∧
    (p.thr1 ≤ c → p.thr2 ≤ c → c < p.thr3 → classify p c = (3, 0)) ∧
    (p.thr1 ≤ c → p.thr2 ≤ c → p.thr3 ≤ c → c < p.thr4 → classify p c = (4, 0)) ∧
    (p.thr1 ≤ c → p.thr2 ≤ c → p.thr3 ≤ c → p.thr4 ≤ c → c < p.thr5 → classify p c = (5, 0)) ∧
    (p.thr1 ≤ c → p.thr2 ≤ c → p.thr3 ≤ c → p.thr4 ≤ c → p.thr5 ≤ c → c < p.thr6 →
      classify p c = (5, c - p.thr5)) ∧
    (p.thr1 ≤ c → p.thr2 ≤ c → p.thr3 ≤ c → p.thr4 ≤ c → p.thr5 ≤ c → p.thr6 ≤ c →
      classify p c = ((c + p.linAdd) / p.linDiv, 0)) ∧
    (p.thr5 < p.thr6 → (classify p c).2 < p.thr6 - p.thr5)

/-- `41_bit_timing.md` R145, `00_scope.md` R8: with a legal parameter set a larger count never gives a shorter run, and
every run has at least one bit. -/
def Obligations.ClassifyMonotone : Prop :=
  ∀ (p : Config.Params) (c c' : Nat), p.Legal → c ≤ c' →
    1 ≤ (classify p c).1 ∧ (classify p c).1 ≤ (classify p c').1

/-- `41_bit_timing.md` R140: the delta is the difference modulo 2^32, and every edge processed while ENABLED = 1 writes
PREV, whatever the head state. -/
def Obligations.EdgeDeltaWrapsAndRecords : Prop :=
  (∀ (s : State) (t : Word), (edgeDelta t s).toNat = (t.toNat + 2 ^ 32 - s.prev.toNat) % 2 ^ 32) ∧
  ∀ (s u : State) (L : Level) (t : Word), s.enabled = true → exec (.edge L t) s = .next u → u.prev = t

/-! ### The frame state machine (42_frame_fsm.md) -/

/-- `42_frame_fsm.md` R160: an edge before SETUP has no effect, on PREV neither. -/
def Obligations.EdgeBeforeSetupIgnored : Prop :=
  ∀ (s : State) (L : Level) (t : Word), s.enabled = false → exec (.edge L t) s = .next (silent s)

/-- `42_frame_fsm.md` R162: a falling edge at a DONE head drops the frame and latches OVERRUN; a rising edge writes
PREV alone. -/
def Obligations.EdgeAtDoneHead : Prop :=
  ∀ (s : State) (L : Level) (t : Word) (d : Descriptor), s.enabled = true → s.slot[s.head.toNat]? = some d →
    d.state = .done →
    exec (.edge L t) s =
      .next (silent { s with prev := t, overrun := if L = .low then true else s.overrun })

/-- `42_frame_fsm.md` R163: a falling edge at a VACANT head starts a search; a rising edge starts nothing. -/
def Obligations.EdgeAtVacantHead : Prop :=
  ∀ (s : State) (t : Word) (d : Descriptor), s.enabled = true → s.slot[s.head.toNat]? = some d →
    d.state = .vacant →
    exec (.edge .high t) s = .next (silent { s with prev := t }) ∧
    exec (.edge .low t) s = .next (silent
      { s with
        prev := t
        slot := s.slot.set s.head.toNat { d with state := .searching, size := 0#8, result := .ok, ack := .none }
        atBit := 0#5
        bits := 0#32
        jit := 0#32 })

/-- `42_frame_fsm.md` R164, R175: the first edge of either level in WAITING_ACK is the acknowledgement; the frame is
completed and TIMER_ARMED stays. -/
def Obligations.EdgeAcknowledges : Prop :=
  ∀ (s : State) (L : Level) (t : Word) (d : Descriptor), s.enabled = true → s.slot[s.head.toNat]? = some d →
    d.state = .waitingAck →
    exec (.edge L t) s = .next (silent { completedWith s { d with ack := .ack } with prev := t })

/-- `42_frame_fsm.md` R165, R166: a run above 9 bits while SEARCHING restarts the search in place. -/
def Obligations.LongRunRestartsSearch : Prop :=
  ∀ (s : State) (L : Level) (t : Word) (d : Descriptor) (n jout : Nat), EndsRun s t d n jout → 9 < n →
    d.state = .searching →
    exec (.edge L t) s = .next (silent
      { s with
        prev := t
        slot := s.slot.set s.head.toNat { d with size := 0#8 }
        atBit := 0#5
        bits := 0#32
        jit := 0#32 })

/-- `42_frame_fsm.md` R165, R175: a run above 9 bits while LOADING force-completes the frame with ERROR_NBITS. -/
def Obligations.LongRunEndsFrame : Prop :=
  ∀ (s : State) (L : Level) (t : Word) (d : Descriptor) (n jout : Nat), EndsRun s t d n jout → 9 < n →
    d.state = .loading →
    exec (.edge L t) s = .next (silent
      { completedWith s { d with result := .errorNbits } with prev := t, jit := BitVec.ofNat 32 jout })

/-- `42_frame_fsm.md` R165, R167, `41_bit_timing.md` R146, R148: a run of at most 9 bits that completes no unit appends
its bits, the complement of the new level, after the eat rule, and stores its jitter. -/
def Obligations.ShortRunAppends : Prop :=
  ∀ (s : State) (L : Level) (t : Word) (d : Descriptor) (n jout k : Nat), EndsRun s t d n jout → n ≤ 9 →
    Kept s n k → s.atBit.toNat + k < 10 →
    ∃ (j : Word) (f : Nat), JitterAfter s n jout j f ∧
      exec (.edge L t) s = .next (assembled s L t k (s.atBit.toNat + k) j f)

/-- `42_frame_fsm.md` R169: the first unit of a search. The SOF pattern stores the SOF byte, assigns the sequence number
and starts LOADING; any other unit is a false start: the slot becomes VACANT and nothing is counted. Surplus bits stay
for the next unit (R168). -/
def Obligations.FirstUnitStartsOrReverts : Prop :=
  ∀ (s : State) (L : Level) (t : Word) (d : Descriptor) (n jout k left : Nat),
    CompletesUnit s t d n jout k left → d.state = .searching →
    ∃ (j : Word) (f : Nat), JitterAfter s n jout j f ∧
      (unitOf s L k left = 0x03D#10 →
        exec (.edge L t) s = .next
          { assembled s L t k left j f with
            slot := s.slot.set s.head.toNat
              { d with bytes := d.bytes.write 0 0x0E#8, size := 1#8, seqNo := s.seq, state := .loading }
            seq := s.seq + 1#32 }) ∧
      (unitOf s L k left ≠ 0x03D#10 →
        exec (.edge L t) s = .next
          { assembled s L t k left j f with slot := s.slot.set s.head.toNat { d with state := .vacant } })

/-- `42_frame_fsm.md` R170, R171: a data unit that is neither EOD nor the last that fits appends its byte, and LOADING
goes on. -/
def Obligations.DataUnitAppendsByte : Prop :=
  ∀ (s : State) (L : Level) (t : Word) (d : Descriptor) (n jout k left : Nat),
    CompletesUnit s t d n jout k left → d.state = .loading → d.size.toNat + 1 < s.params.maxPacket →
    (unitOf s L k left).extractLsb' 0 2 ≠ 0b00#2 →
    ∃ (j : Word) (f : Nat), JitterAfter s n jout j f ∧
      exec (.edge L t) s = .next
        { assembled s L t k left j f with
          slot := s.slot.set s.head.toNat (appended s.params d (unitOf s L k left)) }

/-- `42_frame_fsm.md` R170, R172: an EOD unit appends its byte, even one that fills the buffer, opens the
acknowledgement window and pulses the timer arm. -/
def Obligations.EodOpensAckWindow : Prop :=
  ∀ (s : State) (L : Level) (t : Word) (d : Descriptor) (n jout k left : Nat),
    CompletesUnit s t d n jout k left → d.state = .loading → d.size.toNat < s.params.maxPacket →
    (unitOf s L k left).extractLsb' 0 2 = 0b00#2 →
    ∃ (j : Word) (f : Nat), JitterAfter s n jout j f ∧
      exec (.edge L t) s = .next
        { assembled s L t k left j f with
          slot := s.slot.set s.head.toNat { appended s.params d (unitOf s L k left) with state := .waitingAck }
          timerArmed := true
          outputs := { rsp := none, armAckTimer := true } }

/-- `42_frame_fsm.md` R170, R173, R175: a data unit that is not EOD and fills the buffer completes the frame with
ERROR_MAX_PACKET, the acknowledgement staying NONE. -/
def Obligations.FullBufferEndsFrame : Prop :=
  ∀ (s : State) (L : Level) (t : Word) (d : Descriptor) (n jout k left : Nat),
    CompletesUnit s t d n jout k left → d.state = .loading → d.size.toNat + 1 = s.params.maxPacket →
    (unitOf s L k left).extractLsb' 0 2 ≠ 0b00#2 →
    ∃ (j : Word) (f : Nat), JitterAfter s n jout j f ∧
      exec (.edge L t) s = .next
        (completedWith (assembled s L t k left j f)
          { appended s.params d (unitOf s L k left) with result := .errorMaxPacket })

/-- `42_frame_fsm.md` R176: an acknowledgement timeout. -/
def Obligations.AckTimeoutCompletes : Prop :=
  ∀ s : State,
    (s.timerArmed = false → exec .ackTimeout s = .next (silent s)) ∧
    ∀ d : Descriptor, s.timerArmed = true → s.slot[s.head.toNat]? = some d →
      (d.state = .waitingAck →
        exec .ackTimeout s = .next (silent { completedWith s d with timerArmed := false })) ∧
      (d.state ≠ .waitingAck → exec .ackTimeout s = .next (silent { s with timerArmed := false }))

/-- `30_encoding.md` R95 to R97: Unpack inverts Pack, valid units carry complementary check bits, and the SOF unit
carries the byte 0x0E. -/
def Obligations.UnpackInvertsPack : Prop :=
  (∀ b : Byte, unpack (pack b) = b ∧ (pack b).getLsbD 5 = !(pack b).getLsbD 6 ∧
    (pack b).getLsbD 0 = !(pack b).getLsbD 1) ∧
  (∀ u : LineUnit, unpack u = u.extractLsb' 6 4 ++ u.extractLsb' 1 4) ∧
  pack 0xB2#8 = 0x2C5#10 ∧ unpack 0x03D#10 = 0x0E#8

/-! ### Reset (70_reset_and_hazards.md) -/

/-- `70_reset_and_hazards.md` R260: RESET writes every register of the block, every descriptor and OUT; the parameters
stay, and so do the model's own presentations to come and free-value counter; that these two stay and that the step
ports are low is the model's reading (DEDUCED, notes/assumptions/12). -/
def Obligations.ResetClearsBlock : Prop :=
  ∀ s : State, ∃ t : State, exec .reset s = .next t ∧
    t.enabled = false ∧ t.head = 0#7 ∧ t.tail = 0#7 ∧ t.overrun = false ∧
    t.count = 0#32 ∧ t.nCorrupt = 0#32 ∧ t.nRepaired = 0#32 ∧ t.seq = 0#32 ∧
    t.prev = 0#32 ∧ t.atBit = 0#5 ∧ t.bits = 0#32 ∧ t.jit = 0#32 ∧ t.timerArmed = false ∧
    t.slot.length = s.params.q ∧
    (∀ k, k < s.params.q → ∃ d, t.slot[k]? = some d ∧ d.state = .vacant ∧ d.size = 0#8 ∧ d.ack = .none ∧
      d.result = .ok ∧ d.seqNo = 0#32 ∧ d.slot = BitVec.ofNat 7 k ∧ ∀ i, d.bytes.read i = 0#8) ∧
    (t.out.state = .vacant ∧ t.out.size = 0#8 ∧ t.out.ack = .none ∧ t.out.result = .ok ∧
      t.out.seqNo = 0#32 ∧ t.out.slot = 0#7 ∧ ∀ i, t.out.bytes.read i = 0#8) ∧
    t.params = s.params ∧ t.inputs = s.inputs ∧ t.freeCount = s.freeCount ∧
    t.outputs = { rsp := none, armAckTimer := false }

/-- `70_reset_and_hazards.md` R261: the state after reset is a function of the parameters alone: RESET in any state
gives it, with the presentations to come and the free-value counter, which are the model's own, left in place
(DEDUCED, notes/assumptions/12). -/
def Obligations.ResetIsInitialState : Prop :=
  ∀ s : State, exec .reset s =
    .next { State.resetWith s.params with inputs := s.inputs, freeCount := s.freeCount }

/-! ### Whole-machine rules -/

/-- After reset the invariant holds and the empty queue is in order, for every legal parameter set (`10_state.md` R38),
and `State.reset` is that state for the reference parameters (the model's choice, notes/assumptions/1). -/
def Obligations.ResetMeetsInvariant : Prop :=
  (∀ p : Config.Params, p.Legal → (State.resetWith p).Inv ∧ (State.resetWith p).InOrder) ∧
    State.reset = State.resetWith Config.reference ∧ Config.reference.Legal

/-- `10_state.md` R38 and the rules it follows from: every step keeps the invariant, from every state that meets it. -/
def Obligations.StepKeepsInvariant : Prop :=
  ∀ s t : State, s.Inv → step s = .next t → t.Inv

/-- `60_exceptions.md` R240 (nothing in the core is fatal), `20_memory.md` R64 (no access is out of range),
`30_encoding.md` R81, R82: a step of a state that meets the invariant never faults, and it completes unless the
presentation is a record that spells no event. -/
def Obligations.EveryPresentationCompletes : Prop :=
  ∀ s : State, s.Inv →
    (∀ f : Fault, step s ≠ .fault f) ∧
    ∀ (p : Presentation) (rest : List Presentation), s.inputs = p :: rest →
      ((∃ t, step s = .next t) ↔ ¬ ∃ why, decode p = .noEvent why)

/-- `43_queue.md` R207, `20_memory.md` R71, `44_descriptor_access.md` R233: every step keeps the queue in order: the
DONE slots are consecutive from TAIL up to HEAD, and the frames in the queue, in OUT and in the head slot carry
consecutive sequence numbers in arrival order. -/
def Obligations.StepKeepsQueueInOrder : Prop :=
  ∀ s t : State, s.Inv → s.InOrder → step s = .next t → t.InOrder

/-- `43_queue.md` R208: with the queue full, a falling edge sets OVERRUN and starts nothing; no slot and no counter
changes. -/
def Obligations.FullQueueDropsFrame : Prop :=
  ∀ (s : State) (t : Word), s.Inv → s.Holds s.params.q → s.enabled = true →
    exec (.edge .low t) s = .next (silent { s with prev := t, overrun := true })

/-- `10_state.md` R39, `20_memory.md` R69: no edge and no timeout writes any field of a DONE slot, and only RECEIVE and
RESET take a slot out of DONE. -/
def Obligations.DoneSlotsAreTheConsumers : Prop :=
  ∀ (s t : State) (i : Instr) (k : Nat) (d : Descriptor), exec i s = .next t → s.slot[k]? = some d →
    d.state = .done →
    ((∃ L c, i = .edge L c) ∨ i = .ackTimeout → t.slot[k]? = some d) ∧
    (i ≠ .receive → i ≠ .reset → ∃ d', t.slot[k]? = some d' ∧ d' = { d with bytes := d'.bytes })

/-- `42_frame_fsm.md` R169, R170: an edge stores at most one byte, the next one of the frame being decoded in the head
slot; every other byte of every buffer reads as before. -/
def Obligations.EdgeStoresOnlyNextByte : Prop :=
  ∀ (s t : State) (L : Level) (c : Word), s.Inv → exec (.edge L c) s = .next t →
    t.out = s.out ∧
    ∀ (k : Nat) (d : Descriptor), s.slot[k]? = some d →
      ∃ d', t.slot[k]? = some d' ∧
        ∀ i, ¬ (k = s.head.toNat ∧ ((d.state = .searching ∧ i = 0) ∨ (d.state = .loading ∧ i = d.size.toNat))) →
          d'.bytes.read i = d.bytes.read i

/-- `60_exceptions.md` R243, `30_encoding.md` R86: a response that is not ST_OK carries data 0 and the step changed
nothing. -/
def Obligations.RaiseChangesNothing : Prop :=
  ∀ (i : Instr) (s t : State) (r : Response), exec i s = .next t → t.outputs.rsp = some r → r.status ≠ .ok →
    t = answer r.status 0#32 s

/-- `30_encoding.md` R81: a command step produces exactly one response, an event step none. -/
def Obligations.OneResponsePerCommand : Prop :=
  ∀ (i : Instr) (s t : State), exec i s = .next t →
    (i.isCommand = true → ∃ r, t.outputs = { rsp := some r, armAckTimer := false }) ∧
    (i.isCommand = false → t.outputs.rsp = none)

/-- `60_exceptions.md` R242, `30_encoding.md` R86: which commands raise which status code on the response port, and
when; code 11 is never produced. -/
def Obligations.StatusCauses : Prop :=
  ∀ (i : Instr) (s t : State) (code : BitVec 2) (v : Word), exec i s = .next t → t.responsePort = some (code, v) →
    (code = 0b01#2 ↔ IllegalCause s i) ∧ (code = 0b10#2 ↔ BusyInstr s i) ∧ code ≠ 0b11#2 ∧
    (code ≠ 0b00#2 → v = 0#32)

/-- `20_memory.md` R65: the commands without side effects change nothing but the response port. -/
def Obligations.ReadOnlyCommands : Prop :=
  ∀ (i : Instr) (s t : State), ReadsOnly i → exec i s = .next t → t = { s with outputs := t.outputs }

/-- `60_exceptions.md` R254: what the consumer writes. No command writes the producer's registers, and a slot that is
not DONE is left alone. -/
def Obligations.ConsumerFrame : Prop :=
  ∀ (i : Instr) (s t : State), i.isCommand = true → exec i s = .next t →
    t.params = s.params ∧ t.inputs = s.inputs ∧ t.head = s.head ∧ t.count = s.count ∧ t.seq = s.seq ∧
    t.prev = s.prev ∧ t.atBit = s.atBit ∧ t.bits = s.bits ∧ t.jit = s.jit ∧ t.timerArmed = s.timerArmed ∧
    t.freeCount = s.freeCount ∧
    (i ≠ .setup → t.enabled = s.enabled) ∧ (i ≠ .receive → t.tail = s.tail ∧ t.overrun = s.overrun) ∧
    ((∀ sel, i ≠ .crcRepair sel) → t.nCorrupt = s.nCorrupt ∧ t.nRepaired = s.nRepaired) ∧
    ∀ (k : Nat) (d : Descriptor), s.slot[k]? = some d → d.state ≠ .done → t.slot[k]? = some d

/-- `60_exceptions.md` R254: what the producer and the timer write. Neither writes the consumer's registers or OUT, nor
any slot but the head one, and the timer writes only TIMER_ARMED, COUNT, HEAD and the head slot's state. -/
def Obligations.ProducerFrame : Prop :=
  (∀ (L : Level) (c : Word) (s t : State), exec (.edge L c) s = .next t →
    t.params = s.params ∧ t.inputs = s.inputs ∧ t.enabled = s.enabled ∧ t.tail = s.tail ∧
    t.nCorrupt = s.nCorrupt ∧ t.nRepaired = s.nRepaired ∧ t.out = s.out ∧
    (s.overrun = true → t.overrun = true) ∧ (s.timerArmed = true → t.timerArmed = true) ∧
    ∀ k, k ≠ s.head.toNat → t.slot[k]? = s.slot[k]?) ∧
  ∀ s t : State, exec .ackTimeout s = .next t →
    t = silent { s with timerArmed := false } ∨
    t = silent
      { s with
        timerArmed := false
        count := s.count + 1#32
        head := succIndex s s.head
        slot := s.slot.modify s.head.toNat fun d => { d with state := .done } }

/-- `10_state.md` R24 to R27: HEAD and TAIL only move forward, by one modulo `Q`. COUNT counts exactly the moves of HEAD.
TAIL moves only in a RECEIVE that answers GOT, which alone clears a latched OVERRUN and reports it; RESET apart. -/
def Obligations.IndicesMoveForward : Prop :=
  ∀ (i : Instr) (s t : State), exec i s = .next t → i ≠ .reset →
    ((t.head = s.head ∧ t.count = s.count) ∨ (t.head = succIndex s s.head ∧ t.count = s.count + 1#32)) ∧
    ((t.tail = s.tail ∧ (s.overrun = true → t.overrun = true)) ∨
      (i = .receive ∧ t.tail = succIndex s s.tail ∧ t.overrun = false ∧
        ∃ v : Word, t.outputs.rsp = some { status := .ok, data := v } ∧ v.getLsbD 0 = true ∧ v.getLsbD 1 = s.overrun))

/-- `43_queue.md` R205: NREPAIRED stays at most NCORRUPT until NCORRUPT wraps. -/
def Obligations.RepairedAtMostCorrupt : Prop :=
  ∀ (i : Instr) (s t : State), exec i s = .next t → s.nRepaired.toNat ≤ s.nCorrupt.toNat →
    s.nCorrupt.toNat + 1 < 2 ^ 32 → t.nRepaired.toNat ≤ t.nCorrupt.toNat

/-- `92_eei_decisions.md` D7, `00_scope.md` R6: no step changes a parameter. `30_encoding.md` R81: a step takes exactly
one presentation; that it is the first of a list held in the state is the model's choice (DESIGN CHOICE,
notes/assumptions/3). -/
def Obligations.ParametersAreFixed : Prop :=
  ∀ s t : State, step s = .next t → t.params = s.params ∧ t.inputs = s.inputs.tail
end

