-- ==== Sys2Proof/Laws/Memory.lean ====
section
/-! SUPPORT. The laws of byte buffers: a read after a write, and that a write keeps the canonical form. -/

namespace Sys2Proof.Machine

@[simp] theorem Memory.read_nil (i : Nat) : Memory.read [] i = Memory.unlisted := rfl

theorem Memory.read_cons (a : Nat) (b : Byte) (rest : Memory) (i : Nat) :
    Memory.read ((a, b) :: rest) i = if a = i then b else Memory.read rest i := rfl

/-- Raising the lower bound of a canonical list weakens nothing below the list's first index. -/
theorem Memory.wfFrom_mono {lo lo' : Nat} {m : Memory} (h : lo' ≤ lo) (hm : m.wfFrom lo = true) :
    m.wfFrom lo' = true := by
  cases m with
  | nil => rfl
  | cons c rest =>
    obtain ⟨a, b⟩ := c
    simp only [Memory.wfFrom, Bool.and_eq_true, decide_eq_true_eq] at hm ⊢
    exact ⟨⟨by omega, hm.1.2⟩, hm.2⟩

/-- Below its lower bound a canonical list lists nothing. -/
theorem Memory.read_below {m : Memory} : ∀ {lo i : Nat}, m.wfFrom lo = true → i < lo → m.read i = Memory.unlisted := by
  induction m with
  | nil => intros; rfl
  | cons c rest ih =>
    obtain ⟨a, b⟩ := c
    intro lo i hm hi
    simp only [Memory.wfFrom, Bool.and_eq_true, decide_eq_true_eq] at hm
    rw [Memory.read_cons, if_neg (by omega)]
    exact ih hm.2 (by omega)

/-- A write keeps the canonical form above a bound the written index meets. -/
theorem Memory.wfFrom_write {m : Memory} :
    ∀ {lo i : Nat} {v : Byte}, m.wfFrom lo = true → lo ≤ i → (m.write i v).wfFrom lo = true := by
  induction m with
  | nil =>
    intro lo i v _ hi
    by_cases hv : v = Memory.unlisted <;> simp [Memory.write, hv, Memory.wfFrom, hi]
  | cons c rest ih =>
    obtain ⟨a, b⟩ := c
    intro lo i v hm hi
    simp only [Memory.wfFrom, Bool.and_eq_true, decide_eq_true_eq] at hm
    obtain ⟨⟨hlo, hb⟩, hrest⟩ := hm
    unfold Memory.write
    by_cases hai : a < i
    · simp only [hai, if_true, Memory.wfFrom, Bool.and_eq_true, decide_eq_true_eq]
      exact ⟨⟨hlo, hb⟩, ih hrest (by omega)⟩
    · have hcell : ∀ k, k ≤ a → Memory.wfFrom k ((a, b) :: rest) = true := fun k hk => by
        simp only [Memory.wfFrom, Bool.and_eq_true, decide_eq_true_eq]; exact ⟨⟨hk, hb⟩, hrest⟩
      have htail : ∀ k, k ≤ a + 1 → (k ≤ a ∨ a = i) →
          Memory.wfFrom k (if a = i then rest else (a, b) :: rest) = true := by
        intro k hk hor
        by_cases hi' : a = i
        · simpa [hi'] using Memory.wfFrom_mono (by omega) hrest
        · simpa [hi'] using hcell k (by omega)
      simp only [hai, if_false]
      by_cases hv : v = Memory.unlisted
      · simpa [hv] using htail lo (by omega) (by omega)
      · simp only [hv, if_false, Memory.wfFrom, Bool.and_eq_true, decide_eq_true_eq]
        exact ⟨⟨hi, hv⟩, htail (i + 1) (by omega) (by omega)⟩

/-- Every write keeps the canonical form. -/
theorem Memory.wf_write {m : Memory} {i : Nat} {v : Byte} (hm : m.wf = true) : (m.write i v).wf = true :=
  Memory.wfFrom_write hm (Nat.zero_le i)

theorem Memory.read_write_from {m : Memory} :
    ∀ {lo i : Nat} {v : Byte} (j : Nat), m.wfFrom lo = true →
      (m.write i v).read j = if j = i then v else m.read j := by
  induction m with
  | nil =>
    intro lo i v j _
    by_cases hv : v = Memory.unlisted
    · simp [Memory.write, hv]
    · simp [Memory.write, hv, Memory.read_cons, eq_comm]
  | cons c rest ih =>
    obtain ⟨a, b⟩ := c
    intro lo i v j hm
    simp only [Memory.wfFrom, Bool.and_eq_true, decide_eq_true_eq] at hm
    obtain ⟨⟨hlo, hb⟩, hrest⟩ := hm
    unfold Memory.write
    by_cases hai : a < i
    · simp only [hai, if_true, Memory.read_cons]
      rw [ih j hrest]
      by_cases haj : a = j
      · simp [haj, show ¬ j = i by omega]
      · simp [haj]
    · simp only [hai, if_false]
      have htail : ∀ j, j ≠ i →
          Memory.read (if a = i then rest else (a, b) :: rest) j = Memory.read ((a, b) :: rest) j := by
        intro j hj
        by_cases hi' : a = i
        · simp [hi', Memory.read_cons, Ne.symm hj]
        · simp [hi']
      by_cases hv : v = Memory.unlisted
      · simp only [hv, if_true]
        by_cases hj : j = i
        · subst hj
          by_cases hi' : a = j
          · subst hi'
            simp [Memory.read_below hrest (Nat.lt_succ_self a)]
          · have hr : Memory.read ((a, b) :: rest) j = Memory.unlisted :=
              Memory.read_below (lo := a)
                (by simp only [Memory.wfFrom, Bool.and_eq_true, decide_eq_true_eq]; exact ⟨⟨le_refl _, hb⟩, hrest⟩)
                (by omega)
            simp [hi', hr]
        · rw [htail j hj, if_neg hj]
      · simp only [hv, if_false]
        by_cases hj : j = i
        · simp [hj, Memory.read_cons]
        · rw [if_neg hj, ← htail j hj]
          exact (Memory.read_cons i v _ j).trans (if_neg (Ne.symm hj))

/-- A read after a write: the written index gives the written byte, every other index what it gave before. -/
theorem Memory.read_write {m : Memory} {i : Nat} {v : Byte} (hm : m.wf = true) (j : Nat) :
    (m.write i v).read j = if j = i then v else m.read j :=
  Memory.read_write_from j hm

/-- Two canonical lists that read alike are the same list. -/
theorem Memory.ext_from {m : Memory} : ∀ {m' : Memory} {lo : Nat}, m.wfFrom lo = true → m'.wfFrom lo = true →
    (∀ i, m.read i = m'.read i) → m = m' := by
  induction m with
  | nil =>
    intro m' lo _ hm' h
    cases m' with
    | nil => rfl
    | cons c rest =>
      obtain ⟨a, b⟩ := c
      simp only [Memory.wfFrom, Bool.and_eq_true, decide_eq_true_eq] at hm'
      exact absurd (by simpa [Memory.read_cons] using (h a).symm) hm'.1.2
  | cons c rest ih =>
    obtain ⟨a, b⟩ := c
    intro m' lo hm hm' h
    simp only [Memory.wfFrom, Bool.and_eq_true, decide_eq_true_eq] at hm
    obtain ⟨⟨hlo, hb⟩, hrest⟩ := hm
    cases m' with
    | nil => exact absurd (by simpa [Memory.read_cons] using h a) hb
    | cons c' rest' =>
      obtain ⟨a', b'⟩ := c'
      simp only [Memory.wfFrom, Bool.and_eq_true, decide_eq_true_eq] at hm'
      obtain ⟨⟨hlo', hb'⟩, hrest'⟩ := hm'
      have haa : a = a' := by
        rcases Nat.lt_trichotomy a a' with hlt | heq | hgt
        · have := h a
          rw [Memory.read_cons, if_pos rfl, Memory.read_cons, if_neg (by omega),
            Memory.read_below hrest' (by omega)] at this
          exact absurd this hb
        · exact heq
        · have := h a'
          rw [Memory.read_cons, if_neg (by omega), Memory.read_below hrest (by omega),
            Memory.read_cons, if_pos rfl] at this
          exact absurd this.symm hb'
      subst haa
      have hbb : b = b' := by simpa [Memory.read_cons] using h a
      subst hbb
      refine congrArg _ (ih hrest hrest' fun i => ?_)
      by_cases hi : i ≤ a
      · rw [Memory.read_below hrest (by omega), Memory.read_below hrest' (by omega)]
      · have := h i
        rwa [Memory.read_cons, if_neg (by omega), Memory.read_cons, if_neg (by omega)] at this

/-- Equal reads make canonical buffers equal data. -/
theorem Memory.ext_wf {m m' : Memory} (hm : m.wf = true) (hm' : m'.wf = true) (h : ∀ i, m.read i = m'.read i) :
    m = m' :=
  Memory.ext_from hm hm' h

/-- Writing back what was there gives the buffer back. -/
theorem Memory.write_read_restore {m : Memory} {i : Nat} {v : Byte} (hm : m.wf = true) :
    (m.write i v).write i (m.read i) = m := by
  refine Memory.ext_wf (Memory.wf_write (Memory.wf_write hm)) hm fun j => ?_
  rw [Memory.read_write (Memory.wf_write hm), Memory.read_write hm]
  by_cases hj : j = i <;> simp [hj]

/-- A write inside the buffer lists nothing outside it. -/
theorem Memory.within_write {m : Memory} {cap i : Nat} {v : Byte} (hm : m.within cap = true) (hi : i < cap) :
    (m.write i v).within cap = true := by
  induction m with
  | nil => by_cases hv : v = Memory.unlisted <;> simp [Memory.write, hv, Memory.within, hi]
  | cons c rest ih =>
    obtain ⟨a, b⟩ := c
    simp only [Memory.within, List.all_cons, Bool.and_eq_true, decide_eq_true_eq] at hm
    have hr : Memory.within cap rest = true := hm.2
    unfold Memory.write
    by_cases hai : a < i
    · simp only [hai, if_true, Memory.within, List.all_cons, Bool.and_eq_true, decide_eq_true_eq]
      exact ⟨hm.1, ih hr⟩
    · have ht : Memory.within cap (if a = i then rest else (a, b) :: rest) = true := by
        by_cases hi' : a = i
        · simpa [hi'] using hr
        · simpa [hi', Memory.within] using hm
      simp only [hai, if_false]
      by_cases hv : v = Memory.unlisted
      · simpa [hv] using ht
      · simp only [hv, if_false, Memory.within, List.all_cons, Bool.and_eq_true, decide_eq_true_eq]
        exact ⟨hi, ht⟩

/-- What a bounded write that is not refused does. -/
theorem memWrite_some {p : Config.Params} {m m' : Memory} {i : Nat} {v : Byte} :
    memWrite p m i v = some m' ↔ i < p.maxPacket ∧ m' = m.write i v := by
  unfold memWrite
  by_cases h : i < p.maxPacket <;> simp [h, eq_comm]

/-- What a bounded read that is not refused gives. -/
theorem memRead_some {p : Config.Params} {m : Memory} {i : Nat} {v : Byte} :
    memRead p m i = some v ↔ i < p.maxPacket ∧ v = m.read i := by
  unfold memRead
  by_cases h : i < p.maxPacket <;> simp [h, eq_comm]

end Sys2Proof.Machine
end

