-- ==== Sys2Proof/Laws/Crc.lean ====
section
/-! SUPPORT. The CRC register is linear over GF(2) and its step is injective (`40_crc.md` R120): the lemmas the CRC
statements rest on. -/

namespace Sys2Proof.Machine

/-- One step on a zero input bit: the linear map of the register. -/
def crcShift (c : CrcRegister) : CrcRegister := crcBit c false

/-- `k` steps on zero input bits. -/
def crcShifts : Nat → CrcRegister → CrcRegister
  | 0, c => c
  | k + 1, c => crcShifts k (crcShift c)

/-! ### The run over a range -/

/-- One byte more at the end of the range. -/
theorem crcRun_succ (m : Memory) : ∀ (k i : Nat) (c : CrcRegister),
    crcRun m i (k + 1) c = crcByte (crcRun m i k c) (m.read (i + k))
  | 0, i, c => rfl
  | k + 1, i, c => by
    rw [crcRun, crcRun_succ m k (i + 1), crcRun, show i + 1 + k = i + (k + 1) by omega]

/-- A range splits anywhere. -/
theorem crcRun_add (m : Memory) : ∀ (a b i : Nat) (c : CrcRegister),
    crcRun m i (a + b) c = crcRun m (i + a) b (crcRun m i a c)
  | a, 0, i, c => rfl
  | a, b + 1, i, c => by
    rw [show a + (b + 1) = (a + b) + 1 by omega, crcRun_succ, crcRun_add m a b, crcRun_succ,
      show i + a + b = i + (a + b) by omega]

/-- The run reads only the bytes of its range. -/
theorem crcRun_congr {m m' : Memory} : ∀ (k i : Nat) (c : CrcRegister),
    (∀ j, i ≤ j → j < i + k → m.read j = m'.read j) → crcRun m i k c = crcRun m' i k c
  | 0, _, _, _ => rfl
  | k + 1, i, c, h => by
    rw [crcRun, crcRun, h i (le_refl i) (by omega)]
    exact crcRun_congr k (i + 1) _ fun j hj hj' => h j (by omega) (by omega)

/-- The register reads only the bytes of its range (`40_crc.md` R120). -/
theorem crcReg_congr {m m' : Memory} {lo hi : Nat} (h : ∀ i, lo ≤ i → i < hi → m.read i = m'.read i) :
    crcReg m lo hi = crcReg m' lo hi :=
  crcRun_congr _ _ _ fun i hi' hlt => h i hi' (by omega)

/-- An empty range leaves the initial register (`40_crc.md` R120). -/
theorem crcReg_empty {m : Memory} {lo hi : Nat} (h : hi ≤ lo) : crcReg m lo hi = crcInit := by
  unfold crcReg
  rw [show hi - lo = 0 by omega]
  rfl

/-- One byte more at the end of the range (`40_crc.md` R120). -/
theorem crcReg_succ {m : Memory} {lo hi : Nat} (h : lo ≤ hi) :
    crcReg m lo (hi + 1) = crcByte (crcReg m lo hi) (m.read hi) := by
  unfold crcReg
  rw [show hi + 1 - lo = (hi - lo) + 1 by omega, crcRun_succ, show lo + (hi - lo) = hi by omega]

/-! ### Linearity -/

/-- One step is linear in the register and the input bit. -/
theorem crcBit_xor (a b : CrcRegister) (x y : Bool) : crcBit (a ^^^ b) (x ^^ y) = crcBit a x ^^^ crcBit b y := by
  unfold crcBit
  rw [BitVec.getLsbD_xor, BitVec.shiftLeft_xor_distrib]
  generalize a <<< 1 = a', b <<< 1 = b', crcPoly = p
  cases a.getLsbD 14 <;> cases b.getLsbD 14 <;> cases x <;> cases y <;>
    (apply BitVec.eq_of_getLsbD_eq; intro k _; simp [Bool.xor_comm, Bool.xor_left_comm])

/-- One byte is linear in the register and the input byte. -/
theorem crcByte_xor (a b : CrcRegister) (x y : Byte) :
    crcByte (a ^^^ b) (x ^^^ y) = crcByte a x ^^^ crcByte b y := by
  simp only [crcByte, List.foldl_cons, List.foldl_nil, BitVec.getLsbD_xor, crcBit_xor]

/-- A step on zero input bits is linear. -/
theorem crcShift_xor (a b : CrcRegister) : crcShift (a ^^^ b) = crcShift a ^^^ crcShift b :=
  crcBit_xor a b false false

/-- A step on a zero input bit sends only zero to zero: the polynomial has its constant term. -/
theorem crcShift_eq_zero {c : CrcRegister} (h : crcShift c = 0#15) : c = 0#15 := by
  unfold crcShift crcBit at h
  cases htop : c.getLsbD 14 with
  | true =>
    have h0 : ((c <<< 1) ^^^ crcPoly).getLsbD 0 = (0#15).getLsbD 0 := by
      rw [← h, htop]; rfl
    rw [BitVec.getLsbD_xor, BitVec.getLsbD_shiftLeft] at h0
    simp [crcPoly] at h0
  | false =>
    rw [htop] at h
    apply BitVec.eq_of_getLsbD_eq
    intro i hi
    by_cases h14 : i = 14
    · subst h14; simpa using htop
    · have hb : (c <<< 1).getLsbD (i + 1) = (0#15).getLsbD (i + 1) := by rw [← h]; rfl
      rw [BitVec.getLsbD_shiftLeft] at hb
      simpa [show i + 1 < 15 by omega] using hb

/-- The step on a zero input bit is injective. -/
theorem crcShift_injective {a b : CrcRegister} (h : crcShift a = crcShift b) : a = b := by
  have h0 : crcShift (a ^^^ b) = 0#15 := by rw [crcShift_xor, h, BitVec.xor_self]
  have := crcShift_eq_zero h0
  exact BitVec.xor_eq_zero_iff.mp this

theorem crcShifts_succ (k : Nat) (c : CrcRegister) : crcShifts (k + 1) c = crcShifts k (crcShift c) := rfl

theorem crcShifts_add : ∀ (a b : Nat) (c : CrcRegister), crcShifts (a + b) c = crcShifts b (crcShifts a c)
  | 0, b, c => by rw [Nat.zero_add]; rfl
  | a + 1, b, c => by rw [show a + 1 + b = (a + b) + 1 by omega, crcShifts_succ, crcShifts_add a b]; rfl

theorem crcShifts_injective : ∀ (k : Nat) {a b : CrcRegister}, crcShifts k a = crcShifts k b → a = b
  | 0, _, _, h => h
  | k + 1, _, _, h => crcShift_injective (crcShifts_injective k h)

theorem crcShifts_zero : ∀ k : Nat, crcShifts k 0#15 = 0#15
  | 0 => rfl
  | k + 1 => by rw [crcShifts_succ, show crcShift 0#15 = 0#15 by decide, crcShifts_zero k]

/-- No number of steps takes the polynomial to zero. -/
theorem crcShifts_poly_ne_zero (k : Nat) : crcShifts k crcPoly ≠ 0#15 := fun h =>
  absurd (crcShifts_injective k (h.trans (crcShifts_zero k).symm)) (by decide)

/-! ### What a flip does to the register -/

/-- A zero byte is eight steps on zero input bits. -/
theorem crcByte_zero (c : CrcRegister) : crcByte c 0#8 = crcShifts 8 c := by
  simp [crcByte, crcShifts, crcShift]

/-- A byte with the single bit `j` set, on the zero register: the polynomial, shifted `j` times. -/
theorem crcByte_single {j : Nat} (hj : j < 8) : crcByte 0#15 (1#8 <<< j) = crcShifts j crcPoly := by
  have : ∀ j : Fin 8, crcByte 0#15 (1#8 <<< j.val) = crcShifts j.val crcPoly := by decide
  exact this ⟨j, hj⟩

/-- A difference in the register runs on as zero bytes. -/
theorem crcRun_xor (m : Memory) : ∀ (k i : Nat) (c e : CrcRegister),
    crcRun m i k (c ^^^ e) = crcRun m i k c ^^^ crcShifts (8 * k) e
  | 0, _, _, _ => rfl
  | k + 1, i, c, e => by
    have hb : crcByte (c ^^^ e) (m.read i) = crcByte c (m.read i) ^^^ crcShifts 8 e := by
      rw [← crcByte_zero, ← crcByte_xor, BitVec.xor_zero]
    rw [crcRun, hb, crcRun_xor m k (i + 1), crcRun, ← crcShifts_add, show 8 * (k + 1) = 8 + 8 * k by omega]

/-- Flipping bit `j` of byte `i` changes the register by the polynomial shifted as far as the bit lies from the end. -/
theorem crcReg_flip {m : Memory} {n i j : Nat} (hm : m.wf = true) (hi : 1 ≤ i) (hn : i < n) (hj : j < 8) :
    crcReg (m.write i (flipBit (m.read i) j)) 1 n =
      crcReg m 1 n ^^^ crcShifts (j + 8 * (n - 1 - i)) crcPoly := by
  have split : ∀ m : Memory, crcReg m 1 n =
      crcRun m (i + 1) (n - 1 - i) (crcByte (crcRun m 1 (i - 1) crcInit) (m.read i)) := by
    intro m
    unfold crcReg
    have hlen : n - 1 = (i - 1) + (1 + (n - 1 - i)) := by omega
    exact (congrArg (fun k => crcRun m 1 k crcInit) hlen).trans
      (by rw [crcRun_add, show 1 + (i - 1) = i by omega, crcRun_add]; rfl)
  have before : crcRun (m.write i (flipBit (m.read i) j)) 1 (i - 1) crcInit = crcRun m 1 (i - 1) crcInit :=
    crcRun_congr _ _ _ fun k _ hk => by rw [Memory.read_write hm, if_neg (by omega)]
  have after : ∀ c, crcRun (m.write i (flipBit (m.read i) j)) (i + 1) (n - 1 - i) c =
      crcRun m (i + 1) (n - 1 - i) c := fun c =>
    crcRun_congr _ _ _ fun k hk _ => by rw [Memory.read_write hm, if_neg (by omega)]
  have here : ∀ c v, crcByte c (flipBit v j) = crcByte c v ^^^ crcShifts j crcPoly := by
    intro c v
    rw [← crcByte_single hj, ← crcByte_xor, BitVec.xor_zero, flipBit]
  rw [split, split m, before, Memory.read_write hm, if_pos rfl, after, here, crcRun_xor, ← crcShifts_add]

/-- Byte 0 is not covered: a write there changes no verdict (`40_crc.md` R123). -/
theorem crcVerify_write_zero {m : Memory} {n : Nat} {v : Byte} (hm : m.wf = true) :
    crcVerify (m.write 0 v) n = crcVerify m n := by
  unfold crcVerify
  rw [crcReg_congr (m := m.write 0 v) (m' := m) fun i hi _ => by rw [Memory.read_write hm, if_neg (by omega)]]

/-- The polynomial comes back to itself in fewer than `k` steps. -/
def crcReturns : Nat → CrcRegister → Bool
  | 0, _ => false
  | k + 1, c => crcShift c == crcPoly || crcReturns k (crcShift c)

theorem crcReturns_of_shifts : ∀ (k : Nat) (c : CrcRegister) (a : Nat), a < k → crcShifts (a + 1) c = crcPoly →
    crcReturns k c = true
  | 0, _, _, h, _ => absurd h (by omega)
  | k + 1, c, 0, _, h => by
    rw [crcReturns, show crcShift c = crcPoly from h]; rfl
  | k + 1, c, a + 1, h, h' => by
    rw [crcReturns, crcReturns_of_shifts k (crcShift c) a (by omega) h', Bool.or_true]

/-- The order of x is at least 1785 (`40_crc.md` R127). -/
theorem crcReturns_below_order : crcReturns 1784 crcPoly = false := by decide +kernel

/-- Below the order of x, shifted polynomials differ (`40_crc.md` R127). -/
theorem crcShifts_poly_injective {a b : Nat} (ha : a < 1785) (hb : b < 1785)
    (h : crcShifts a crcPoly = crcShifts b crcPoly) : a = b := by
  have key : ∀ a b : Nat, a < b → b < 1785 → crcShifts a crcPoly ≠ crcShifts b crcPoly := by
    intro a b hab hb h
    rw [show b = (b - a - 1 + 1) + a by omega, crcShifts_add] at h
    have := crcReturns_of_shifts 1784 crcPoly (b - a - 1) (by omega) (crcShifts_injective a h).symm
    exact absurd (this.symm.trans crcReturns_below_order) (by decide)
  rcases Nat.lt_trichotomy a b with hlt | heq | hgt
  · exact absurd h (key a b hlt hb)
  · exact heq
  · exact absurd h.symm (key b a hgt ha)

/-! ### The repair search -/

/-- The search keeps the first flip of its list that verifies, or restores the buffer (`40_crc.md` R126). -/
theorem repairSearch_spec {n : Nat} {m : Memory} (hm : m.wf = true) : ∀ flips : List (Nat × Nat),
    ((∀ f ∈ flips, crcVerify (m.write f.1 (flipBit (m.read f.1) f.2)) n = false) →
      repairSearch n flips m = (none, m)) ∧
    ∀ before f after, flips = before ++ f :: after →
      (∀ g ∈ before, crcVerify (m.write g.1 (flipBit (m.read g.1) g.2)) n = false) →
      crcVerify (m.write f.1 (flipBit (m.read f.1) f.2)) n = true →
      repairSearch n flips m = (some f, m.write f.1 (flipBit (m.read f.1) f.2))
  | [] => ⟨fun _ => rfl, fun before f after h => absurd h (by simp)⟩
  | (i, j) :: rest => by
    have ih := repairSearch_spec (n := n) hm rest
    constructor
    · intro h
      have h0 := h (i, j) (by simp)
      simp only [repairSearch, h0, Bool.false_eq_true, if_false, Memory.write_read_restore hm]
      exact ih.1 fun f hf => h f (by simp [hf])
    · intro before f after heq hb hf
      cases before with
      | nil =>
        simp only [List.nil_append, List.cons.injEq] at heq
        obtain ⟨rfl, rfl⟩ := heq
        simp only [repairSearch]
        rw [if_pos hf]
      | cons g before =>
        simp only [List.cons_append, List.cons.injEq] at heq
        obtain ⟨rfl, rfl⟩ := heq
        have h0 := hb (i, j) (by simp)
        simp only [repairSearch, h0, Bool.false_eq_true, if_false, Memory.write_read_restore hm]
        exact ih.2 before f after rfl (fun g hg => hb g (by simp [hg])) hf

/-- What the search can answer: a flip of its list that verifies, kept, or no flip and the buffer restored. -/
theorem repairSearch_cases {n : Nat} {m : Memory} (hm : m.wf = true) : ∀ flips : List (Nat × Nat),
    repairSearch n flips m = (none, m) ∨
      ∃ f ∈ flips, crcVerify (m.write f.1 (flipBit (m.read f.1) f.2)) n = true ∧
        repairSearch n flips m = (some f, m.write f.1 (flipBit (m.read f.1) f.2))
  | [] => .inl rfl
  | (i, j) :: rest => by
    cases h : crcVerify (m.write i (flipBit (m.read i) j)) n with
    | true =>
      refine .inr ⟨(i, j), by simp, h, ?_⟩
      simp only [repairSearch]
      rw [if_pos h]
    | false =>
      simp only [repairSearch, h, Bool.false_eq_true, if_false, Memory.write_read_restore hm]
      rcases repairSearch_cases (n := n) hm rest with h' | ⟨f, hf, hv, h'⟩
      · exact .inl h'
      · exact .inr ⟨f, by simp [hf], hv, h'⟩

/-- The flips tried are those of bytes below `n` and bits below 8. -/
theorem mem_repairOrder {n i j : Nat} : (i, j) ∈ repairOrder n ↔ i < n ∧ j < 8 := by
  simp [repairOrder]

end Sys2Proof.Machine
end

