-- ==== Sys2Proof/Laws/State.lean ====
section
/-! SUPPORT. What each named state update does to each field, true by rfl, so that no proof unfolds a record update. -/

namespace Sys2Proof.Machine

variable (s : State)

/-! ### State.modifySlot -/

@[simp] theorem State.modifySlot_params (k : Nat) (f : Descriptor → Descriptor) : (s.modifySlot k f).params = s.params := rfl
@[simp] theorem State.modifySlot_enabled (k : Nat) (f : Descriptor → Descriptor) : (s.modifySlot k f).enabled = s.enabled := rfl
@[simp] theorem State.modifySlot_head (k : Nat) (f : Descriptor → Descriptor) : (s.modifySlot k f).head = s.head := rfl
@[simp] theorem State.modifySlot_tail (k : Nat) (f : Descriptor → Descriptor) : (s.modifySlot k f).tail = s.tail := rfl
@[simp] theorem State.modifySlot_overrun (k : Nat) (f : Descriptor → Descriptor) : (s.modifySlot k f).overrun = s.overrun := rfl
@[simp] theorem State.modifySlot_count (k : Nat) (f : Descriptor → Descriptor) : (s.modifySlot k f).count = s.count := rfl
@[simp] theorem State.modifySlot_nCorrupt (k : Nat) (f : Descriptor → Descriptor) : (s.modifySlot k f).nCorrupt = s.nCorrupt := rfl
@[simp] theorem State.modifySlot_nRepaired (k : Nat) (f : Descriptor → Descriptor) : (s.modifySlot k f).nRepaired = s.nRepaired := rfl
@[simp] theorem State.modifySlot_seq (k : Nat) (f : Descriptor → Descriptor) : (s.modifySlot k f).seq = s.seq := rfl
@[simp] theorem State.modifySlot_prev (k : Nat) (f : Descriptor → Descriptor) : (s.modifySlot k f).prev = s.prev := rfl
@[simp] theorem State.modifySlot_atBit (k : Nat) (f : Descriptor → Descriptor) : (s.modifySlot k f).atBit = s.atBit := rfl
@[simp] theorem State.modifySlot_bits (k : Nat) (f : Descriptor → Descriptor) : (s.modifySlot k f).bits = s.bits := rfl
@[simp] theorem State.modifySlot_jit (k : Nat) (f : Descriptor → Descriptor) : (s.modifySlot k f).jit = s.jit := rfl
@[simp] theorem State.modifySlot_timerArmed (k : Nat) (f : Descriptor → Descriptor) : (s.modifySlot k f).timerArmed = s.timerArmed := rfl
@[simp] theorem State.modifySlot_slot (k : Nat) (f : Descriptor → Descriptor) : (s.modifySlot k f).slot = s.slot.modify k f := rfl
@[simp] theorem State.modifySlot_out (k : Nat) (f : Descriptor → Descriptor) : (s.modifySlot k f).out = s.out := rfl
@[simp] theorem State.modifySlot_inputs (k : Nat) (f : Descriptor → Descriptor) : (s.modifySlot k f).inputs = s.inputs := rfl
@[simp] theorem State.modifySlot_outputs (k : Nat) (f : Descriptor → Descriptor) : (s.modifySlot k f).outputs = s.outputs := rfl
@[simp] theorem State.modifySlot_freeCount (k : Nat) (f : Descriptor → Descriptor) : (s.modifySlot k f).freeCount = s.freeCount := rfl

/-! ### State.modifyHead -/

@[simp] theorem State.modifyHead_params (f : Descriptor → Descriptor) : (s.modifyHead f).params = s.params := rfl
@[simp] theorem State.modifyHead_enabled (f : Descriptor → Descriptor) : (s.modifyHead f).enabled = s.enabled := rfl
@[simp] theorem State.modifyHead_head (f : Descriptor → Descriptor) : (s.modifyHead f).head = s.head := rfl
@[simp] theorem State.modifyHead_tail (f : Descriptor → Descriptor) : (s.modifyHead f).tail = s.tail := rfl
@[simp] theorem State.modifyHead_overrun (f : Descriptor → Descriptor) : (s.modifyHead f).overrun = s.overrun := rfl
@[simp] theorem State.modifyHead_count (f : Descriptor → Descriptor) : (s.modifyHead f).count = s.count := rfl
@[simp] theorem State.modifyHead_nCorrupt (f : Descriptor → Descriptor) : (s.modifyHead f).nCorrupt = s.nCorrupt := rfl
@[simp] theorem State.modifyHead_nRepaired (f : Descriptor → Descriptor) : (s.modifyHead f).nRepaired = s.nRepaired := rfl
@[simp] theorem State.modifyHead_seq (f : Descriptor → Descriptor) : (s.modifyHead f).seq = s.seq := rfl
@[simp] theorem State.modifyHead_prev (f : Descriptor → Descriptor) : (s.modifyHead f).prev = s.prev := rfl
@[simp] theorem State.modifyHead_atBit (f : Descriptor → Descriptor) : (s.modifyHead f).atBit = s.atBit := rfl
@[simp] theorem State.modifyHead_bits (f : Descriptor → Descriptor) : (s.modifyHead f).bits = s.bits := rfl
@[simp] theorem State.modifyHead_jit (f : Descriptor → Descriptor) : (s.modifyHead f).jit = s.jit := rfl
@[simp] theorem State.modifyHead_timerArmed (f : Descriptor → Descriptor) : (s.modifyHead f).timerArmed = s.timerArmed := rfl
@[simp] theorem State.modifyHead_slot (f : Descriptor → Descriptor) : (s.modifyHead f).slot = s.slot.modify s.head.toNat f := rfl
@[simp] theorem State.modifyHead_out (f : Descriptor → Descriptor) : (s.modifyHead f).out = s.out := rfl
@[simp] theorem State.modifyHead_inputs (f : Descriptor → Descriptor) : (s.modifyHead f).inputs = s.inputs := rfl
@[simp] theorem State.modifyHead_outputs (f : Descriptor → Descriptor) : (s.modifyHead f).outputs = s.outputs := rfl
@[simp] theorem State.modifyHead_freeCount (f : Descriptor → Descriptor) : (s.modifyHead f).freeCount = s.freeCount := rfl

/-! ### State.quiet -/

@[simp] theorem State.quiet_params : (s.quiet).params = s.params := rfl
@[simp] theorem State.quiet_enabled : (s.quiet).enabled = s.enabled := rfl
@[simp] theorem State.quiet_head : (s.quiet).head = s.head := rfl
@[simp] theorem State.quiet_tail : (s.quiet).tail = s.tail := rfl
@[simp] theorem State.quiet_overrun : (s.quiet).overrun = s.overrun := rfl
@[simp] theorem State.quiet_count : (s.quiet).count = s.count := rfl
@[simp] theorem State.quiet_nCorrupt : (s.quiet).nCorrupt = s.nCorrupt := rfl
@[simp] theorem State.quiet_nRepaired : (s.quiet).nRepaired = s.nRepaired := rfl
@[simp] theorem State.quiet_seq : (s.quiet).seq = s.seq := rfl
@[simp] theorem State.quiet_prev : (s.quiet).prev = s.prev := rfl
@[simp] theorem State.quiet_atBit : (s.quiet).atBit = s.atBit := rfl
@[simp] theorem State.quiet_bits : (s.quiet).bits = s.bits := rfl
@[simp] theorem State.quiet_jit : (s.quiet).jit = s.jit := rfl
@[simp] theorem State.quiet_timerArmed : (s.quiet).timerArmed = s.timerArmed := rfl
@[simp] theorem State.quiet_slot : (s.quiet).slot = s.slot := rfl
@[simp] theorem State.quiet_out : (s.quiet).out = s.out := rfl
@[simp] theorem State.quiet_inputs : (s.quiet).inputs = s.inputs := rfl
@[simp] theorem State.quiet_outputs : (s.quiet).outputs = Outputs.quiet := rfl
@[simp] theorem State.quiet_freeCount : (s.quiet).freeCount = s.freeCount := rfl

/-! ### State.present -/

@[simp] theorem State.present_params (p : Presentation) : (s.present p).params = s.params := rfl
@[simp] theorem State.present_enabled (p : Presentation) : (s.present p).enabled = s.enabled := rfl
@[simp] theorem State.present_head (p : Presentation) : (s.present p).head = s.head := rfl
@[simp] theorem State.present_tail (p : Presentation) : (s.present p).tail = s.tail := rfl
@[simp] theorem State.present_overrun (p : Presentation) : (s.present p).overrun = s.overrun := rfl
@[simp] theorem State.present_count (p : Presentation) : (s.present p).count = s.count := rfl
@[simp] theorem State.present_nCorrupt (p : Presentation) : (s.present p).nCorrupt = s.nCorrupt := rfl
@[simp] theorem State.present_nRepaired (p : Presentation) : (s.present p).nRepaired = s.nRepaired := rfl
@[simp] theorem State.present_seq (p : Presentation) : (s.present p).seq = s.seq := rfl
@[simp] theorem State.present_prev (p : Presentation) : (s.present p).prev = s.prev := rfl
@[simp] theorem State.present_atBit (p : Presentation) : (s.present p).atBit = s.atBit := rfl
@[simp] theorem State.present_bits (p : Presentation) : (s.present p).bits = s.bits := rfl
@[simp] theorem State.present_jit (p : Presentation) : (s.present p).jit = s.jit := rfl
@[simp] theorem State.present_timerArmed (p : Presentation) : (s.present p).timerArmed = s.timerArmed := rfl
@[simp] theorem State.present_slot (p : Presentation) : (s.present p).slot = s.slot := rfl
@[simp] theorem State.present_out (p : Presentation) : (s.present p).out = s.out := rfl
@[simp] theorem State.present_inputs (p : Presentation) : (s.present p).inputs = p :: s.inputs := rfl
@[simp] theorem State.present_outputs (p : Presentation) : (s.present p).outputs = s.outputs := rfl
@[simp] theorem State.present_freeCount (p : Presentation) : (s.present p).freeCount = s.freeCount := rfl

/-! ### drainTail -/

@[simp] theorem drainTail_params (d : Descriptor) : (drainTail d s).params = s.params := rfl
@[simp] theorem drainTail_enabled (d : Descriptor) : (drainTail d s).enabled = s.enabled := rfl
@[simp] theorem drainTail_head (d : Descriptor) : (drainTail d s).head = s.head := rfl
@[simp] theorem drainTail_tail (d : Descriptor) : (drainTail d s).tail = nextIndex s.params s.tail := rfl
@[simp] theorem drainTail_overrun (d : Descriptor) : (drainTail d s).overrun = false := rfl
@[simp] theorem drainTail_count (d : Descriptor) : (drainTail d s).count = s.count := rfl
@[simp] theorem drainTail_nCorrupt (d : Descriptor) : (drainTail d s).nCorrupt = s.nCorrupt := rfl
@[simp] theorem drainTail_nRepaired (d : Descriptor) : (drainTail d s).nRepaired = s.nRepaired := rfl
@[simp] theorem drainTail_seq (d : Descriptor) : (drainTail d s).seq = s.seq := rfl
@[simp] theorem drainTail_prev (d : Descriptor) : (drainTail d s).prev = s.prev := rfl
@[simp] theorem drainTail_atBit (d : Descriptor) : (drainTail d s).atBit = s.atBit := rfl
@[simp] theorem drainTail_bits (d : Descriptor) : (drainTail d s).bits = s.bits := rfl
@[simp] theorem drainTail_jit (d : Descriptor) : (drainTail d s).jit = s.jit := rfl
@[simp] theorem drainTail_timerArmed (d : Descriptor) : (drainTail d s).timerArmed = s.timerArmed := rfl
@[simp] theorem drainTail_slot (d : Descriptor) : (drainTail d s).slot = s.slot.modify s.tail.toNat Descriptor.freed := rfl
@[simp] theorem drainTail_out (d : Descriptor) : (drainTail d s).out = d := rfl
@[simp] theorem drainTail_inputs (d : Descriptor) : (drainTail d s).inputs = s.inputs := rfl
@[simp] theorem drainTail_outputs (d : Descriptor) : (drainTail d s).outputs = s.outputs := rfl
@[simp] theorem drainTail_freeCount (d : Descriptor) : (drainTail d s).freeCount = s.freeCount := rfl

/-! ### recordEdge -/

@[simp] theorem recordEdge_params (t : Word) : (recordEdge t s).params = s.params := rfl
@[simp] theorem recordEdge_enabled (t : Word) : (recordEdge t s).enabled = s.enabled := rfl
@[simp] theorem recordEdge_head (t : Word) : (recordEdge t s).head = s.head := rfl
@[simp] theorem recordEdge_tail (t : Word) : (recordEdge t s).tail = s.tail := rfl
@[simp] theorem recordEdge_overrun (t : Word) : (recordEdge t s).overrun = s.overrun := rfl
@[simp] theorem recordEdge_count (t : Word) : (recordEdge t s).count = s.count := rfl
@[simp] theorem recordEdge_nCorrupt (t : Word) : (recordEdge t s).nCorrupt = s.nCorrupt := rfl
@[simp] theorem recordEdge_nRepaired (t : Word) : (recordEdge t s).nRepaired = s.nRepaired := rfl
@[simp] theorem recordEdge_seq (t : Word) : (recordEdge t s).seq = s.seq := rfl
@[simp] theorem recordEdge_prev (t : Word) : (recordEdge t s).prev = t := rfl
@[simp] theorem recordEdge_atBit (t : Word) : (recordEdge t s).atBit = s.atBit := rfl
@[simp] theorem recordEdge_bits (t : Word) : (recordEdge t s).bits = s.bits := rfl
@[simp] theorem recordEdge_jit (t : Word) : (recordEdge t s).jit = s.jit := rfl
@[simp] theorem recordEdge_timerArmed (t : Word) : (recordEdge t s).timerArmed = s.timerArmed := rfl
@[simp] theorem recordEdge_slot (t : Word) : (recordEdge t s).slot = s.slot := rfl
@[simp] theorem recordEdge_out (t : Word) : (recordEdge t s).out = s.out := rfl
@[simp] theorem recordEdge_inputs (t : Word) : (recordEdge t s).inputs = s.inputs := rfl
@[simp] theorem recordEdge_outputs (t : Word) : (recordEdge t s).outputs = s.outputs := rfl
@[simp] theorem recordEdge_freeCount (t : Word) : (recordEdge t s).freeCount = s.freeCount := rfl

/-! ### storeJitter -/

@[simp] theorem storeJitter_params (j : Nat) : (storeJitter j s).params = s.params := rfl
@[simp] theorem storeJitter_enabled (j : Nat) : (storeJitter j s).enabled = s.enabled := rfl
@[simp] theorem storeJitter_head (j : Nat) : (storeJitter j s).head = s.head := rfl
@[simp] theorem storeJitter_tail (j : Nat) : (storeJitter j s).tail = s.tail := rfl
@[simp] theorem storeJitter_overrun (j : Nat) : (storeJitter j s).overrun = s.overrun := rfl
@[simp] theorem storeJitter_count (j : Nat) : (storeJitter j s).count = s.count := rfl
@[simp] theorem storeJitter_nCorrupt (j : Nat) : (storeJitter j s).nCorrupt = s.nCorrupt := rfl
@[simp] theorem storeJitter_nRepaired (j : Nat) : (storeJitter j s).nRepaired = s.nRepaired := rfl
@[simp] theorem storeJitter_seq (j : Nat) : (storeJitter j s).seq = s.seq := rfl
@[simp] theorem storeJitter_prev (j : Nat) : (storeJitter j s).prev = s.prev := rfl
@[simp] theorem storeJitter_atBit (j : Nat) : (storeJitter j s).atBit = s.atBit := rfl
@[simp] theorem storeJitter_bits (j : Nat) : (storeJitter j s).bits = s.bits := rfl
@[simp] theorem storeJitter_jit (j : Nat) : (storeJitter j s).jit = BitVec.ofNat 32 j := rfl
@[simp] theorem storeJitter_timerArmed (j : Nat) : (storeJitter j s).timerArmed = s.timerArmed := rfl
@[simp] theorem storeJitter_slot (j : Nat) : (storeJitter j s).slot = s.slot := rfl
@[simp] theorem storeJitter_out (j : Nat) : (storeJitter j s).out = s.out := rfl
@[simp] theorem storeJitter_inputs (j : Nat) : (storeJitter j s).inputs = s.inputs := rfl
@[simp] theorem storeJitter_outputs (j : Nat) : (storeJitter j s).outputs = s.outputs := rfl
@[simp] theorem storeJitter_freeCount (j : Nat) : (storeJitter j s).freeCount = s.freeCount := rfl

/-! ### clearAssembly -/

@[simp] theorem clearAssembly_params : (clearAssembly s).params = s.params := rfl
@[simp] theorem clearAssembly_enabled : (clearAssembly s).enabled = s.enabled := rfl
@[simp] theorem clearAssembly_head : (clearAssembly s).head = s.head := rfl
@[simp] theorem clearAssembly_tail : (clearAssembly s).tail = s.tail := rfl
@[simp] theorem clearAssembly_overrun : (clearAssembly s).overrun = s.overrun := rfl
@[simp] theorem clearAssembly_count : (clearAssembly s).count = s.count := rfl
@[simp] theorem clearAssembly_nCorrupt : (clearAssembly s).nCorrupt = s.nCorrupt := rfl
@[simp] theorem clearAssembly_nRepaired : (clearAssembly s).nRepaired = s.nRepaired := rfl
@[simp] theorem clearAssembly_seq : (clearAssembly s).seq = s.seq := rfl
@[simp] theorem clearAssembly_prev : (clearAssembly s).prev = s.prev := rfl
@[simp] theorem clearAssembly_atBit : (clearAssembly s).atBit = 0#5 := rfl
@[simp] theorem clearAssembly_bits : (clearAssembly s).bits = 0#32 := rfl
@[simp] theorem clearAssembly_jit : (clearAssembly s).jit = 0#32 := rfl
@[simp] theorem clearAssembly_timerArmed : (clearAssembly s).timerArmed = s.timerArmed := rfl
@[simp] theorem clearAssembly_slot : (clearAssembly s).slot = s.slot := rfl
@[simp] theorem clearAssembly_out : (clearAssembly s).out = s.out := rfl
@[simp] theorem clearAssembly_inputs : (clearAssembly s).inputs = s.inputs := rfl
@[simp] theorem clearAssembly_outputs : (clearAssembly s).outputs = s.outputs := rfl
@[simp] theorem clearAssembly_freeCount : (clearAssembly s).freeCount = s.freeCount := rfl

/-! ### appendRun -/

@[simp] theorem appendRun_params (L : Level) (n : Nat) : (appendRun L n s).params = s.params := rfl
@[simp] theorem appendRun_enabled (L : Level) (n : Nat) : (appendRun L n s).enabled = s.enabled := rfl
@[simp] theorem appendRun_head (L : Level) (n : Nat) : (appendRun L n s).head = s.head := rfl
@[simp] theorem appendRun_tail (L : Level) (n : Nat) : (appendRun L n s).tail = s.tail := rfl
@[simp] theorem appendRun_overrun (L : Level) (n : Nat) : (appendRun L n s).overrun = s.overrun := rfl
@[simp] theorem appendRun_count (L : Level) (n : Nat) : (appendRun L n s).count = s.count := rfl
@[simp] theorem appendRun_nCorrupt (L : Level) (n : Nat) : (appendRun L n s).nCorrupt = s.nCorrupt := rfl
@[simp] theorem appendRun_nRepaired (L : Level) (n : Nat) : (appendRun L n s).nRepaired = s.nRepaired := rfl
@[simp] theorem appendRun_seq (L : Level) (n : Nat) : (appendRun L n s).seq = s.seq := rfl
@[simp] theorem appendRun_prev (L : Level) (n : Nat) : (appendRun L n s).prev = s.prev := rfl
@[simp] theorem appendRun_atBit (L : Level) (n : Nat) : (appendRun L n s).atBit = s.atBit + BitVec.ofNat 5 n := rfl
@[simp] theorem appendRun_bits (L : Level) (n : Nat) : (appendRun L n s).bits = (s.bits <<< n) ||| runFill L n := rfl
@[simp] theorem appendRun_jit (L : Level) (n : Nat) : (appendRun L n s).jit = s.jit := rfl
@[simp] theorem appendRun_timerArmed (L : Level) (n : Nat) : (appendRun L n s).timerArmed = s.timerArmed := rfl
@[simp] theorem appendRun_slot (L : Level) (n : Nat) : (appendRun L n s).slot = s.slot := rfl
@[simp] theorem appendRun_out (L : Level) (n : Nat) : (appendRun L n s).out = s.out := rfl
@[simp] theorem appendRun_inputs (L : Level) (n : Nat) : (appendRun L n s).inputs = s.inputs := rfl
@[simp] theorem appendRun_outputs (L : Level) (n : Nat) : (appendRun L n s).outputs = s.outputs := rfl
@[simp] theorem appendRun_freeCount (L : Level) (n : Nat) : (appendRun L n s).freeCount = s.freeCount := rfl

/-! ### advanceHead -/

@[simp] theorem advanceHead_params : (advanceHead s).params = s.params := rfl
@[simp] theorem advanceHead_enabled : (advanceHead s).enabled = s.enabled := rfl
@[simp] theorem advanceHead_head : (advanceHead s).head = nextIndex s.params s.head := rfl
@[simp] theorem advanceHead_tail : (advanceHead s).tail = s.tail := rfl
@[simp] theorem advanceHead_overrun : (advanceHead s).overrun = s.overrun := rfl
@[simp] theorem advanceHead_count : (advanceHead s).count = s.count + 1#32 := rfl
@[simp] theorem advanceHead_nCorrupt : (advanceHead s).nCorrupt = s.nCorrupt := rfl
@[simp] theorem advanceHead_nRepaired : (advanceHead s).nRepaired = s.nRepaired := rfl
@[simp] theorem advanceHead_seq : (advanceHead s).seq = s.seq := rfl
@[simp] theorem advanceHead_prev : (advanceHead s).prev = s.prev := rfl
@[simp] theorem advanceHead_atBit : (advanceHead s).atBit = s.atBit := rfl
@[simp] theorem advanceHead_bits : (advanceHead s).bits = s.bits := rfl
@[simp] theorem advanceHead_jit : (advanceHead s).jit = s.jit := rfl
@[simp] theorem advanceHead_timerArmed : (advanceHead s).timerArmed = s.timerArmed := rfl
@[simp] theorem advanceHead_slot : (advanceHead s).slot = s.slot.modify s.head.toNat fun d => { d with state := .done } := rfl
@[simp] theorem advanceHead_out : (advanceHead s).out = s.out := rfl
@[simp] theorem advanceHead_inputs : (advanceHead s).inputs = s.inputs := rfl
@[simp] theorem advanceHead_outputs : (advanceHead s).outputs = s.outputs := rfl
@[simp] theorem advanceHead_freeCount : (advanceHead s).freeCount = s.freeCount := rfl

/-! ### onEdgeDone -/

@[simp] theorem onEdgeDone_params (L : Level) : (onEdgeDone L s).params = s.params := rfl
@[simp] theorem onEdgeDone_enabled (L : Level) : (onEdgeDone L s).enabled = s.enabled := rfl
@[simp] theorem onEdgeDone_head (L : Level) : (onEdgeDone L s).head = s.head := rfl
@[simp] theorem onEdgeDone_tail (L : Level) : (onEdgeDone L s).tail = s.tail := rfl
@[simp] theorem onEdgeDone_overrun (L : Level) : (onEdgeDone L s).overrun = overrunAfter L s.overrun := rfl
@[simp] theorem onEdgeDone_count (L : Level) : (onEdgeDone L s).count = s.count := rfl
@[simp] theorem onEdgeDone_nCorrupt (L : Level) : (onEdgeDone L s).nCorrupt = s.nCorrupt := rfl
@[simp] theorem onEdgeDone_nRepaired (L : Level) : (onEdgeDone L s).nRepaired = s.nRepaired := rfl
@[simp] theorem onEdgeDone_seq (L : Level) : (onEdgeDone L s).seq = s.seq := rfl
@[simp] theorem onEdgeDone_prev (L : Level) : (onEdgeDone L s).prev = s.prev := rfl
@[simp] theorem onEdgeDone_atBit (L : Level) : (onEdgeDone L s).atBit = s.atBit := rfl
@[simp] theorem onEdgeDone_bits (L : Level) : (onEdgeDone L s).bits = s.bits := rfl
@[simp] theorem onEdgeDone_jit (L : Level) : (onEdgeDone L s).jit = s.jit := rfl
@[simp] theorem onEdgeDone_timerArmed (L : Level) : (onEdgeDone L s).timerArmed = s.timerArmed := rfl
@[simp] theorem onEdgeDone_slot (L : Level) : (onEdgeDone L s).slot = s.slot := rfl
@[simp] theorem onEdgeDone_out (L : Level) : (onEdgeDone L s).out = s.out := rfl
@[simp] theorem onEdgeDone_inputs (L : Level) : (onEdgeDone L s).inputs = s.inputs := rfl
@[simp] theorem onEdgeDone_outputs (L : Level) : (onEdgeDone L s).outputs = s.outputs := rfl
@[simp] theorem onEdgeDone_freeCount (L : Level) : (onEdgeDone L s).freeCount = s.freeCount := rfl

/-! ### enterWaitAck -/

@[simp] theorem enterWaitAck_params : (enterWaitAck s).params = s.params := rfl
@[simp] theorem enterWaitAck_enabled : (enterWaitAck s).enabled = s.enabled := rfl
@[simp] theorem enterWaitAck_head : (enterWaitAck s).head = s.head := rfl
@[simp] theorem enterWaitAck_tail : (enterWaitAck s).tail = s.tail := rfl
@[simp] theorem enterWaitAck_overrun : (enterWaitAck s).overrun = s.overrun := rfl
@[simp] theorem enterWaitAck_count : (enterWaitAck s).count = s.count := rfl
@[simp] theorem enterWaitAck_nCorrupt : (enterWaitAck s).nCorrupt = s.nCorrupt := rfl
@[simp] theorem enterWaitAck_nRepaired : (enterWaitAck s).nRepaired = s.nRepaired := rfl
@[simp] theorem enterWaitAck_seq : (enterWaitAck s).seq = s.seq := rfl
@[simp] theorem enterWaitAck_prev : (enterWaitAck s).prev = s.prev := rfl
@[simp] theorem enterWaitAck_atBit : (enterWaitAck s).atBit = s.atBit := rfl
@[simp] theorem enterWaitAck_bits : (enterWaitAck s).bits = s.bits := rfl
@[simp] theorem enterWaitAck_jit : (enterWaitAck s).jit = s.jit := rfl
@[simp] theorem enterWaitAck_timerArmed : (enterWaitAck s).timerArmed = true := rfl
@[simp] theorem enterWaitAck_slot : (enterWaitAck s).slot = s.slot.modify s.head.toNat fun d => { d with state := .waitingAck } := rfl
@[simp] theorem enterWaitAck_out : (enterWaitAck s).out = s.out := rfl
@[simp] theorem enterWaitAck_inputs : (enterWaitAck s).inputs = s.inputs := rfl
@[simp] theorem enterWaitAck_outputs : (enterWaitAck s).outputs = { s.outputs with armAckTimer := true } := rfl
@[simp] theorem enterWaitAck_freeCount : (enterWaitAck s).freeCount = s.freeCount := rfl

/-! ### carryEatenBit -/

@[simp] theorem carryEatenBit_params : (carryEatenBit s).params = s.params := by
  unfold carryEatenBit; split <;> rfl
@[simp] theorem carryEatenBit_enabled : (carryEatenBit s).enabled = s.enabled := by
  unfold carryEatenBit; split <;> rfl
@[simp] theorem carryEatenBit_head : (carryEatenBit s).head = s.head := by
  unfold carryEatenBit; split <;> rfl
@[simp] theorem carryEatenBit_tail : (carryEatenBit s).tail = s.tail := by
  unfold carryEatenBit; split <;> rfl
@[simp] theorem carryEatenBit_overrun : (carryEatenBit s).overrun = s.overrun := by
  unfold carryEatenBit; split <;> rfl
@[simp] theorem carryEatenBit_count : (carryEatenBit s).count = s.count := by
  unfold carryEatenBit; split <;> rfl
@[simp] theorem carryEatenBit_nCorrupt : (carryEatenBit s).nCorrupt = s.nCorrupt := by
  unfold carryEatenBit; split <;> rfl
@[simp] theorem carryEatenBit_nRepaired : (carryEatenBit s).nRepaired = s.nRepaired := by
  unfold carryEatenBit; split <;> rfl
@[simp] theorem carryEatenBit_seq : (carryEatenBit s).seq = s.seq := by
  unfold carryEatenBit; split <;> rfl
@[simp] theorem carryEatenBit_prev : (carryEatenBit s).prev = s.prev := by
  unfold carryEatenBit; split <;> rfl
@[simp] theorem carryEatenBit_atBit : (carryEatenBit s).atBit = s.atBit := by
  unfold carryEatenBit; split <;> rfl
@[simp] theorem carryEatenBit_bits : (carryEatenBit s).bits = s.bits := by
  unfold carryEatenBit; split <;> rfl
@[simp] theorem carryEatenBit_timerArmed : (carryEatenBit s).timerArmed = s.timerArmed := by
  unfold carryEatenBit; split <;> rfl
@[simp] theorem carryEatenBit_slot : (carryEatenBit s).slot = s.slot := by
  unfold carryEatenBit; split <;> rfl
@[simp] theorem carryEatenBit_out : (carryEatenBit s).out = s.out := by
  unfold carryEatenBit; split <;> rfl
@[simp] theorem carryEatenBit_inputs : (carryEatenBit s).inputs = s.inputs := by
  unfold carryEatenBit; split <;> rfl
@[simp] theorem carryEatenBit_outputs : (carryEatenBit s).outputs = s.outputs := by
  unfold carryEatenBit; split <;> rfl

/-! ### eatRule -/

@[simp] theorem eatRule_params (n : Nat) : (eatRule n s).params = s.params := by
  unfold eatRule; split <;> simp
@[simp] theorem eatRule_enabled (n : Nat) : (eatRule n s).enabled = s.enabled := by
  unfold eatRule; split <;> simp
@[simp] theorem eatRule_head (n : Nat) : (eatRule n s).head = s.head := by
  unfold eatRule; split <;> simp
@[simp] theorem eatRule_tail (n : Nat) : (eatRule n s).tail = s.tail := by
  unfold eatRule; split <;> simp
@[simp] theorem eatRule_overrun (n : Nat) : (eatRule n s).overrun = s.overrun := by
  unfold eatRule; split <;> simp
@[simp] theorem eatRule_count (n : Nat) : (eatRule n s).count = s.count := by
  unfold eatRule; split <;> simp
@[simp] theorem eatRule_nCorrupt (n : Nat) : (eatRule n s).nCorrupt = s.nCorrupt := by
  unfold eatRule; split <;> simp
@[simp] theorem eatRule_nRepaired (n : Nat) : (eatRule n s).nRepaired = s.nRepaired := by
  unfold eatRule; split <;> simp
@[simp] theorem eatRule_seq (n : Nat) : (eatRule n s).seq = s.seq := by
  unfold eatRule; split <;> simp
@[simp] theorem eatRule_prev (n : Nat) : (eatRule n s).prev = s.prev := by
  unfold eatRule; split <;> simp
@[simp] theorem eatRule_atBit (n : Nat) : (eatRule n s).atBit = s.atBit := by
  unfold eatRule; split <;> simp
@[simp] theorem eatRule_bits (n : Nat) : (eatRule n s).bits = s.bits := by
  unfold eatRule; split <;> simp
@[simp] theorem eatRule_timerArmed (n : Nat) : (eatRule n s).timerArmed = s.timerArmed := by
  unfold eatRule; split <;> simp
@[simp] theorem eatRule_slot (n : Nat) : (eatRule n s).slot = s.slot := by
  unfold eatRule; split <;> simp
@[simp] theorem eatRule_out (n : Nat) : (eatRule n s).out = s.out := by
  unfold eatRule; split <;> simp
@[simp] theorem eatRule_inputs (n : Nat) : (eatRule n s).inputs = s.inputs := by
  unfold eatRule; split <;> simp
@[simp] theorem eatRule_outputs (n : Nat) : (eatRule n s).outputs = s.outputs := by
  unfold eatRule; split <;> simp

/-! ### manchesterCheck -/

@[simp] theorem manchesterCheck_params (u : LineUnit) : (manchesterCheck u s).params = s.params := by
  unfold manchesterCheck; split <;> rfl
@[simp] theorem manchesterCheck_enabled (u : LineUnit) : (manchesterCheck u s).enabled = s.enabled := by
  unfold manchesterCheck; split <;> rfl
@[simp] theorem manchesterCheck_head (u : LineUnit) : (manchesterCheck u s).head = s.head := by
  unfold manchesterCheck; split <;> rfl
@[simp] theorem manchesterCheck_tail (u : LineUnit) : (manchesterCheck u s).tail = s.tail := by
  unfold manchesterCheck; split <;> rfl
@[simp] theorem manchesterCheck_overrun (u : LineUnit) : (manchesterCheck u s).overrun = s.overrun := by
  unfold manchesterCheck; split <;> rfl
@[simp] theorem manchesterCheck_count (u : LineUnit) : (manchesterCheck u s).count = s.count := by
  unfold manchesterCheck; split <;> rfl
@[simp] theorem manchesterCheck_nCorrupt (u : LineUnit) : (manchesterCheck u s).nCorrupt = s.nCorrupt := by
  unfold manchesterCheck; split <;> rfl
@[simp] theorem manchesterCheck_nRepaired (u : LineUnit) : (manchesterCheck u s).nRepaired = s.nRepaired := by
  unfold manchesterCheck; split <;> rfl
@[simp] theorem manchesterCheck_seq (u : LineUnit) : (manchesterCheck u s).seq = s.seq := by
  unfold manchesterCheck; split <;> rfl
@[simp] theorem manchesterCheck_prev (u : LineUnit) : (manchesterCheck u s).prev = s.prev := by
  unfold manchesterCheck; split <;> rfl
@[simp] theorem manchesterCheck_atBit (u : LineUnit) : (manchesterCheck u s).atBit = s.atBit := by
  unfold manchesterCheck; split <;> rfl
@[simp] theorem manchesterCheck_bits (u : LineUnit) : (manchesterCheck u s).bits = s.bits := by
  unfold manchesterCheck; split <;> rfl
@[simp] theorem manchesterCheck_jit (u : LineUnit) : (manchesterCheck u s).jit = s.jit := by
  unfold manchesterCheck; split <;> rfl
@[simp] theorem manchesterCheck_timerArmed (u : LineUnit) : (manchesterCheck u s).timerArmed = s.timerArmed := by
  unfold manchesterCheck; split <;> rfl
@[simp] theorem manchesterCheck_out (u : LineUnit) : (manchesterCheck u s).out = s.out := by
  unfold manchesterCheck; split <;> rfl
@[simp] theorem manchesterCheck_inputs (u : LineUnit) : (manchesterCheck u s).inputs = s.inputs := by
  unfold manchesterCheck; split <;> rfl
@[simp] theorem manchesterCheck_outputs (u : LineUnit) : (manchesterCheck u s).outputs = s.outputs := by
  unfold manchesterCheck; split <;> rfl
@[simp] theorem manchesterCheck_freeCount (u : LineUnit) : (manchesterCheck u s).freeCount = s.freeCount := by
  unfold manchesterCheck; split <;> rfl

/-! ### State.setBuffer -/

@[simp] theorem State.setBuffer_params (ref : BufferRef) (m : Memory) : (s.setBuffer ref m).params = s.params := by
  cases ref <;> rfl
@[simp] theorem State.setBuffer_enabled (ref : BufferRef) (m : Memory) : (s.setBuffer ref m).enabled = s.enabled := by
  cases ref <;> rfl
@[simp] theorem State.setBuffer_head (ref : BufferRef) (m : Memory) : (s.setBuffer ref m).head = s.head := by
  cases ref <;> rfl
@[simp] theorem State.setBuffer_tail (ref : BufferRef) (m : Memory) : (s.setBuffer ref m).tail = s.tail := by
  cases ref <;> rfl
@[simp] theorem State.setBuffer_overrun (ref : BufferRef) (m : Memory) : (s.setBuffer ref m).overrun = s.overrun := by
  cases ref <;> rfl
@[simp] theorem State.setBuffer_count (ref : BufferRef) (m : Memory) : (s.setBuffer ref m).count = s.count := by
  cases ref <;> rfl
@[simp] theorem State.setBuffer_nCorrupt (ref : BufferRef) (m : Memory) : (s.setBuffer ref m).nCorrupt = s.nCorrupt := by
  cases ref <;> rfl
@[simp] theorem State.setBuffer_nRepaired (ref : BufferRef) (m : Memory) : (s.setBuffer ref m).nRepaired = s.nRepaired := by
  cases ref <;> rfl
@[simp] theorem State.setBuffer_seq (ref : BufferRef) (m : Memory) : (s.setBuffer ref m).seq = s.seq := by
  cases ref <;> rfl
@[simp] theorem State.setBuffer_prev (ref : BufferRef) (m : Memory) : (s.setBuffer ref m).prev = s.prev := by
  cases ref <;> rfl
@[simp] theorem State.setBuffer_atBit (ref : BufferRef) (m : Memory) : (s.setBuffer ref m).atBit = s.atBit := by
  cases ref <;> rfl
@[simp] theorem State.setBuffer_bits (ref : BufferRef) (m : Memory) : (s.setBuffer ref m).bits = s.bits := by
  cases ref <;> rfl
@[simp] theorem State.setBuffer_jit (ref : BufferRef) (m : Memory) : (s.setBuffer ref m).jit = s.jit := by
  cases ref <;> rfl
@[simp] theorem State.setBuffer_timerArmed (ref : BufferRef) (m : Memory) : (s.setBuffer ref m).timerArmed = s.timerArmed := by
  cases ref <;> rfl
@[simp] theorem State.setBuffer_inputs (ref : BufferRef) (m : Memory) : (s.setBuffer ref m).inputs = s.inputs := by
  cases ref <;> rfl
@[simp] theorem State.setBuffer_outputs (ref : BufferRef) (m : Memory) : (s.setBuffer ref m).outputs = s.outputs := by
  cases ref <;> rfl
@[simp] theorem State.setBuffer_freeCount (ref : BufferRef) (m : Memory) : (s.setBuffer ref m).freeCount = s.freeCount := by
  cases ref <;> rfl

end Sys2Proof.Machine
end

