-- ==== Sys2Proof/Laws/Ops.lean ====
section
/-! SUPPORT. One lemma for each shared operation: what it answers when it answers a next state, and what the slot
updates do to a lookup. -/

namespace Sys2Proof.Machine

/-! ### Slot lookups -/

/-- Modifying `slot[k]` changes that lookup alone. -/
theorem getElem?_modify_slot (l : List Descriptor) (k j : Nat) (f : Descriptor → Descriptor) :
    (l.modify k f)[j]? = if k = j then l[j]?.map f else l[j]? := by
  rw [List.getElem?_modify]
  by_cases h : k = j <;> simp [h]

/-- Two modifications of one slot are one. -/
theorem modify_modify_slot (l : List Descriptor) (k : Nat) (f g : Descriptor → Descriptor) :
    (l.modify k f).modify k g = l.modify k (g ∘ f) := by
  apply List.ext_getElem?
  intro j
  simp only [getElem?_modify_slot]
  by_cases h : k = j <;> simp [h]

/-- Modifying a slot whose descriptor is known is setting it. -/
theorem modify_eq_set_slot {l : List Descriptor} {k : Nat} {d : Descriptor} (h : l[k]? = some d)
    (f : Descriptor → Descriptor) : l.modify k f = l.set k (f d) := by
  apply List.ext_getElem?
  intro j
  rw [getElem?_modify_slot, List.getElem?_set]
  by_cases hj : k = j
  · subst hj
    obtain ⟨hlt, rfl⟩ := List.getElem?_eq_some_iff.mp h
    simp [hlt]
  · simp [hj]

/-- Modifying a slot with a function that leaves its descriptor leaves the pool. -/
theorem modify_eq_self_slot {l : List Descriptor} {k : Nat} {f : Descriptor → Descriptor}
    (h : ∀ d, l[k]? = some d → f d = d) : l.modify k f = l := by
  apply List.ext_getElem?
  intro j
  rw [getElem?_modify_slot]
  by_cases hj : k = j
  · subst hj
    cases hl : l[k]? with
    | none => simp
    | some d => simp [h d hl]
  · simp [hj]

/-- A modified pool keeps its length. -/
@[simp] theorem length_modify_slot (l : List Descriptor) (k : Nat) (f : Descriptor → Descriptor) :
    (l.modify k f).length = l.length := by simp

/-! ### Running with a descriptor or a buffer -/

theorem withHead_some {s : State} {d : Descriptor} {f : Descriptor → Result} (h : s.slot[s.head.toNat]? = some d) :
    s.withHead f = f d := by
  unfold State.withHead State.headSlot?
  rw [h]

theorem withTail_some {s : State} {d : Descriptor} {f : Descriptor → Result} (h : s.slot[s.tail.toNat]? = some d) :
    s.withTail f = f d := by
  unfold State.withTail State.tailSlot?
  rw [h]

/-- A run with the head descriptor that answers a next state had one. -/
theorem withHead_next {s t : State} {f : Descriptor → Result} :
    s.withHead f = .next t ↔ ∃ d, s.slot[s.head.toNat]? = some d ∧ f d = .next t := by
  unfold State.withHead State.headSlot?
  cases s.slot[s.head.toNat]? <;> simp

/-- A run with the tail descriptor that answers a next state had one. -/
theorem withTail_next {s t : State} {f : Descriptor → Result} :
    s.withTail f = .next t ↔ ∃ d, s.slot[s.tail.toNat]? = some d ∧ f d = .next t := by
  unfold State.withTail State.tailSlot?
  cases s.slot[s.tail.toNat]? <;> simp

/-- The legal BUFSEL values are those that name a buffer. -/
theorem bufSel_isSome (p : Config.Params) (sel : Byte) : (bufSel p sel).isSome = bufSelLegal p sel := by
  unfold bufSel bufSelLegal
  by_cases h : sel = 0x80#8
  · simp [h]
  · by_cases hq : sel.toNat < p.q <;> simp [h, hq]

/-- The assigned register numbers are those that name a register. -/
theorem regNum_isSome : ∀ num : Byte, (regNum num).isSome = regNumLegal num := by decide +revert

/-- The buffer a BUFSEL argument comes to: OUT, or the DONE slot of that number, with a length that fits. -/
theorem resolve_buffer {s : State} {sel : Byte} {ref : BufferRef} {m : Memory} {n : Nat} :
    resolve sel s = .buffer ref m n ↔
      ((sel = 0x80#8 ∧ ref = .out ∧ m = s.out.bytes ∧ n = s.out.size.toNat ∧
          s.out.size.toNat ≤ s.params.maxPacket) ∨
        (sel ≠ 0x80#8 ∧ sel.toNat < s.params.q ∧ ref = .pool sel.toNat ∧
          ∃ d, s.slot[sel.toNat]? = some d ∧ d.state = .done ∧ m = d.bytes ∧ n = d.size.toNat ∧
            d.size.toNat ≤ s.params.maxPacket)) := by
  have sized : ∀ (r : BufferRef) (d : Descriptor), sizedBuffer s.params r d = .buffer ref m n ↔
      ref = r ∧ m = d.bytes ∧ n = d.size.toNat ∧ d.size.toNat ≤ s.params.maxPacket := by
    intro r d
    unfold sizedBuffer
    by_cases hs : d.size.toNat ≤ s.params.maxPacket <;> simp [hs, eq_comm]
  unfold resolve bufSel
  by_cases h : sel = 0x80#8
  · rw [if_pos h]
    exact (sized .out s.out).trans (by simp [h])
  · rw [if_neg h]
    by_cases hq : sel.toNat < s.params.q
    · rw [if_pos hq]
      cases hd : s.slot[sel.toNat]? with
      | none => simp [h, hd]
      | some d =>
        by_cases hdone : d.state = .done
        · exact (iff_of_eq (by simp [hd, hdone])).trans ((sized (.pool sel.toNat) d).trans (by simp [h, hq, hdone]))
        · simp [h, hd, hdone]
    · simp [h, hq]

/-- What a command over a buffer answers: the buffer's run, or one of the two raises. -/
theorem withBuffer_next {s t : State} {sel : Byte} {f : BufferRef → Memory → Nat → Result}
    (h : withBuffer sel s f = .next t) :
    (∃ ref m n, resolve sel s = .buffer ref m n ∧ f ref m n = .next t) ∨
      (resolve sel s = .busy ∧ raiseBusy s = .next t) ∨ (resolve sel s = .illegal ∧ raiseIllegal s = .next t) := by
  unfold withBuffer at h
  cases hr : resolve sel s with
  | buffer ref m n => rw [hr] at h; exact .inl ⟨ref, m, n, rfl, h⟩
  | busy => rw [hr] at h; exact .inr (.inl ⟨rfl, h⟩)
  | illegal => rw [hr] at h; exact .inr (.inr ⟨rfl, h⟩)
  | absent f => rw [hr] at h; exact absurd h (by simp)

/-- Putting a buffer back writes the bytes of the one descriptor it names, and nothing else. -/
theorem setBuffer_writes (s : State) (ref : BufferRef) (m : Memory) :
    ∃ pool copy, s.setBuffer ref m = { s with slot := pool, out := copy } ∧
      (copy = { s.out with bytes := copy.bytes } ∧ (ref ≠ .out → copy = s.out)) ∧
      ∀ k d, s.slot[k]? = some d →
        ∃ d', pool[k]? = some d' ∧ d' = { d with bytes := d'.bytes } ∧ (ref ≠ .pool k → d' = d) := by
  cases ref with
  | out =>
    exact ⟨s.slot, { s.out with bytes := m }, rfl, ⟨rfl, fun h => absurd rfl h⟩, fun k d h => ⟨d, h, rfl, fun _ => rfl⟩⟩
  | pool j =>
    refine ⟨s.slot.modify j fun d => { d with bytes := m }, s.out, rfl, ⟨rfl, fun _ => rfl⟩, fun k d h => ?_⟩
    rw [getElem?_modify_slot]
    by_cases hj : j = k
    · subst hj
      rw [if_pos rfl, h]
      exact ⟨_, rfl, rfl, fun hne => absurd rfl hne⟩
    · rw [if_neg hj]
      exact ⟨d, h, rfl, fun _ => rfl⟩

/-! ### Responses -/

@[simp] theorem respond_next {v : Word} {s t : State} :
    respond v s = .next t ↔ { s with outputs := Outputs.response .ok v } = t := by
  simp [respond]

@[simp] theorem raise_next {st : Status} {s t : State} :
    raise st s = .next t ↔ { s with outputs := Outputs.response st 0#32 } = t := by
  simp [raise]

@[simp] theorem Outputs.response_rsp (st : Status) (v : Word) :
    (Outputs.response st v).rsp = some { status := st, data := v } := rfl

@[simp] theorem Outputs.response_arm (st : Status) (v : Word) : (Outputs.response st v).armAckTimer = false := rfl

end Sys2Proof.Machine
end

