-- ==== Sys2Proof/Laws/Exec.lean ====
section
/-! SUPPORT. What a step can do, said once: every command by `CommandWrites`, every edge by `EdgeWrites`, every timeout
by `execAckTimeout_cases`. The frames and the invariants are read off these. -/

namespace Sys2Proof.Machine

/-! ### Commands -/

/-- The registers a command can write before it responds, `u` being the state they leave. -/
inductive CommandWrites (s : State) : Instr → Status → Word → State → Prop where
  /-- A read, a raise, a RECEIVE of an empty queue, a repair of a clean buffer: nothing. -/
  | nothing (i : Instr) (st : Status) (v : Word) (hv : st = .ok ∨ v = 0#32) : CommandWrites s i st v s
  /-- The first SETUP. -/
  | attach : CommandWrites s .setup .ok 1#32 { s with enabled := true }
  /-- A RECEIVE that drains the tail frame. -/
  | drain (d : Descriptor) (hd : s.slot[s.tail.toNat]? = some d) (hdone : d.state = .done) :
      CommandWrites s .receive .ok (receiveWord s.overrun) (drainTail d s)
  /-- A CRC_REPAIR that keeps a flip that verifies. -/
  | fixed (sel : Byte) (ref : BufferRef) (m : Memory) (n i j : Nat) (hr : resolve sel s = .buffer ref m n)
      (hbad : crcVerify m n = false) (m' : Memory) (hs : repairSearch n (repairOrder n) m = (some (i, j), m')) :
      CommandWrites s (.crcRepair sel) .ok (repairWord i j)
        { ({ s with nCorrupt := s.nCorrupt + 1#32 } : State).setBuffer ref m' with nRepaired := s.nRepaired + 1#32 }
  /-- A CRC_REPAIR that finds no flip. -/
  | unfixed (sel : Byte) (ref : BufferRef) (m : Memory) (n : Nat) (hr : resolve sel s = .buffer ref m n)
      (hbad : crcVerify m n = false) (m' : Memory) (hs : repairSearch n (repairOrder n) m = (none, m')) :
      CommandWrites s (.crcRepair sel) .ok 0#32 (({ s with nCorrupt := s.nCorrupt + 1#32 } : State).setBuffer ref m')

/-- The state after a command that left the registers as `u` has them. -/
def answered (st : Status) (v : Word) (u : State) : State := { u with outputs := Outputs.response st v }

/-- A result that only answers: no register is written. -/
theorem nothing_of_respond {s t : State} {i : Instr} {v : Word} (h : respond v s = .next t) :
    ∃ st w u, CommandWrites s i st w u ∧ t = answered st w u :=
  ⟨.ok, v, s, .nothing i _ _ (.inl rfl), (respond_next.mp h).symm⟩

theorem nothing_of_raise {s t : State} {i : Instr} {st : Status} (h : raise st s = .next t) :
    ∃ st w u, CommandWrites s i st w u ∧ t = answered st w u :=
  ⟨st, 0#32, s, .nothing i _ _ (.inr rfl), (raise_next.mp h).symm⟩

theorem nothing_of_outByte {s t : State} {i : Instr} {k : Nat} {f : Byte → Result}
    (hf : ∀ b, f b = .next t → ∃ st w u, CommandWrites s i st w u ∧ t = answered st w u)
    (h : withOutByte s k f = .next t) : ∃ st w u, CommandWrites s i st w u ∧ t = answered st w u := by
  unfold withOutByte at h
  cases hr : memRead s.params s.out.bytes k with
  | some b => rw [hr] at h; exact hf b h
  | none => rw [hr] at h; exact absurd h (by simp)

theorem nothing_of_requireSize {s t : State} {i : Instr} {k : Nat} {run : Result}
    (hf : run = .next t → ∃ st w u, CommandWrites s i st w u ∧ t = answered st w u)
    (h : requireSize k s run = .next t) : ∃ st w u, CommandWrites s i st w u ∧ t = answered st w u := by
  unfold requireSize at h
  split at h
  · exact nothing_of_raise h
  · exact hf h

/-- What a command does when it answers a next state. -/
theorem exec_command {i : Instr} {s t : State} (hc : i.isCommand = true) (h : exec i s = .next t) :
    ∃ st v u, CommandWrites s i st v u ∧ t = answered st v u := by
  cases i with
  | setup =>
    simp only [exec, execSetup] at h
    split at h
    · exact nothing_of_respond h
    · exact ⟨_, _, _, .attach, (respond_next.mp h).symm⟩
  | receive =>
    obtain ⟨d, hd, h⟩ := withTail_next.mp h
    split at h
    · next hdone =>
      exact ⟨_, _, _, .drain d hd (by simpa [Descriptor.isDone] using hdone), (respond_next.mp h).symm⟩
    · exact nothing_of_respond h
  | available =>
    obtain ⟨d, hd, h⟩ := withTail_next.mp h
    exact nothing_of_respond h
  | getCount => exact nothing_of_respond h
  | getCorrupt => exact nothing_of_respond h
  | getRepaired => exact nothing_of_respond h
  | readReg num =>
    simp only [exec, execReadReg] at h
    split at h
    · obtain ⟨_, -, h⟩ := withTail_next.mp h
      obtain ⟨_, -, h⟩ := withHead_next.mp h
      exact nothing_of_respond h
    · exact nothing_of_respond h
    · exact nothing_of_respond h
    · exact nothing_of_respond h
    · exact nothing_of_respond h
    · exact nothing_of_respond h
    · exact nothing_of_raise h
  | crcCompute sel =>
    rcases withBuffer_next h with ⟨ref, m, n, -, h⟩ | ⟨-, h⟩ | ⟨-, h⟩
    · exact nothing_of_respond h
    · exact nothing_of_raise h
    · exact nothing_of_raise h
  | crcVerify sel =>
    rcases withBuffer_next h with ⟨ref, m, n, -, h⟩ | ⟨-, h⟩ | ⟨-, h⟩
    · exact nothing_of_respond h
    · exact nothing_of_raise h
    · exact nothing_of_raise h
  | crcRepair sel =>
    rcases withBuffer_next h with ⟨ref, m, n, hr, h⟩ | ⟨-, h⟩ | ⟨-, h⟩
    · cases hv : crcVerify m n with
      | true => rw [if_pos hv] at h; exact nothing_of_respond h
      | false =>
        rw [if_neg (by simp [hv]), repairBuffer] at h
        cases hs : repairSearch n (repairOrder n) m with
        | mk kept m' =>
          rw [hs] at h
          cases kept with
          | some f => exact ⟨_, _, _, .fixed sel ref m n f.1 f.2 hr hv m' hs, (respond_next.mp h).symm⟩
          | none => exact ⟨_, _, _, .unfixed sel ref m n hr hv m' hs, (respond_next.mp h).symm⟩
    · exact nothing_of_raise h
    · exact nothing_of_raise h
  | outByte index =>
    simp only [exec, execOutByte] at h
    split at h
    · exact nothing_of_raise h
    · exact nothing_of_outByte (fun b h => nothing_of_respond h) h
  | outSize => exact nothing_of_respond h
  | outMeta => exact nothing_of_respond h
  | outSeqno => exact nothing_of_respond h
  | frameIden =>
    exact nothing_of_requireSize (fun h => nothing_of_outByte
      (fun b h => nothing_of_outByte (fun b h => nothing_of_respond h) h) h) h
  | frameFlags =>
    exact nothing_of_requireSize (fun h => nothing_of_outByte (fun b h => nothing_of_respond h) h) h
  | frameDatalen => exact nothing_of_requireSize (fun h => nothing_of_respond h) h
  | frameCrc =>
    exact nothing_of_requireSize (fun h => nothing_of_outByte
      (fun b h => nothing_of_outByte (fun b h => nothing_of_respond h) h) h) h
  | edge level cycle => simp [Instr.isCommand] at hc
  | ackTimeout => simp [Instr.isCommand] at hc
  | reset => simp [Instr.isCommand] at hc

/-! ### Edges and timeouts -/

/-- What the processing of an edge can do to a state `x` that already has the edge's PREV and quiet ports, whose head
descriptor is `d`: the fields it never writes, and the shape of its writes to the others. -/
structure EdgeWrites (x : State) (d : Descriptor) (t : State) : Prop where
  params : t.params = x.params
  inputs : t.inputs = x.inputs
  enabled : t.enabled = x.enabled
  tail : t.tail = x.tail
  nCorrupt : t.nCorrupt = x.nCorrupt
  nRepaired : t.nRepaired = x.nRepaired
  out : t.out = x.out
  prev : t.prev = x.prev
  rsp : t.outputs.rsp = x.outputs.rsp
  overrun : x.overrun = true → t.overrun = true
  timerArmed : x.timerArmed = true → t.timerArmed = true
  headCount : (t.head = x.head ∧ t.count = x.count) ∨
    (t.head = nextIndex x.params x.head ∧ t.count = x.count + 1#32)
  slot : ∃ f, t.slot = x.slot.modify x.head.toNat f ∧ (d.state = .done → f = id)

theorem modify_id_slot (l : List Descriptor) (k : Nat) : l.modify k id = l :=
  modify_eq_self_slot fun _ _ => rfl

/-- An update of registers that no frame statement names, followed by an edge's writes. -/
theorem EdgeWrites.from {x y : State} {d : Descriptor} {t : State} (h : EdgeWrites y d t)
    (e : y = { x with atBit := y.atBit, bits := y.bits, jit := y.jit, freeCount := y.freeCount }) :
    EdgeWrites x d t := by
  rw [e] at h
  exact ⟨h.params, h.inputs, h.enabled, h.tail, h.nCorrupt, h.nRepaired, h.out, h.prev, h.rsp, h.overrun,
    h.timerArmed, h.headCount, h.slot⟩

/-- A write of the head slot alone. -/
theorem edgeWrites_modifyHead (x : State) {d : Descriptor} (hd : d.state ≠ .done) (f : Descriptor → Descriptor) :
    EdgeWrites x d (x.modifyHead f) :=
  ⟨rfl, rfl, rfl, rfl, rfl, rfl, rfl, rfl, rfl, id, id, .inl ⟨rfl, rfl⟩, f, rfl, fun h => absurd h hd⟩

/-- A write of the head slot, and then its completion. -/
theorem edgeWrites_advance (x : State) {d : Descriptor} (hd : d.state ≠ .done) (f : Descriptor → Descriptor) :
    EdgeWrites x d (advanceHead (x.modifyHead f)) :=
  ⟨rfl, rfl, rfl, rfl, rfl, rfl, rfl, rfl, rfl, id, id, .inr ⟨rfl, rfl⟩, _,
    modify_modify_slot _ _ _ _, fun h => absurd h hd⟩

/-- Clearing the unit-assembly registers after an edge's writes adds none that a frame names. -/
theorem EdgeWrites.clear {x : State} {d : Descriptor} {t : State} (h : EdgeWrites x d t) :
    EdgeWrites x d (clearAssembly t) :=
  ⟨h.params, h.inputs, h.enabled, h.tail, h.nCorrupt, h.nRepaired, h.out, h.prev, h.rsp, h.overrun, h.timerArmed,
    h.headCount, h.slot⟩

/-- A head-slot write in two parts is one write. -/
theorem modifyHead_modifyHead (x : State) (f g : Descriptor → Descriptor) :
    (x.modifyHead f).modifyHead g = x.modifyHead (g ∘ f) := by
  simp only [State.modifyHead, State.modifySlot, modify_modify_slot]

/-- Arming the timer after an edge's writes adds none that a frame names. -/
theorem EdgeWrites.arm {x : State} {d : Descriptor} {t : State} (h : EdgeWrites x d t) (o : Outputs)
    (ho : o.rsp = t.outputs.rsp) : EdgeWrites x d { t with timerArmed := true, outputs := o } :=
  ⟨h.params, h.inputs, h.enabled, h.tail, h.nCorrupt, h.nRepaired, h.out, h.prev, ho.trans h.rsp, h.overrun,
    fun _ => rfl, h.headCount, h.slot⟩

/-- What follows an append: every branch writes the head slot, and may complete it or arm the timer. -/
theorem edgeWrites_afterAppend (x : State) {d : Descriptor} (hd : d.state ≠ .done) (u : LineUnit) (n : Byte)
    (f : Descriptor → Descriptor) : EdgeWrites x d (afterAppend u n (x.modifyHead f)) := by
  unfold afterAppend
  split
  · unfold enterWaitAck
    rw [modifyHead_modifyHead]
    exact (edgeWrites_modifyHead x hd _).arm _ rfl
  · split
    · unfold overflow forceComplete
      rw [modifyHead_modifyHead]
      exact edgeWrites_advance x hd _
    · exact edgeWrites_modifyHead x hd f

/-- A stored byte is a head-slot write. -/
theorem storeHeadByte_some {d : Descriptor} {k : Nat} {v : Byte} {s s' : State} (h : storeHeadByte d k v s = some s') :
    k < s.params.maxPacket ∧ s' = s.modifyHead fun d' => { d' with bytes := d.bytes.write k v } := by
  unfold storeHeadByte at h
  cases hm : memWrite s.params d.bytes k v with
  | some m =>
    rw [hm] at h
    obtain ⟨hk, rfl⟩ := memWrite_some.mp hm
    exact ⟨hk, (Option.some.inj h).symm⟩
  | none => rw [hm] at h; exact absurd h (by simp)

/-- What a completed unit writes. -/
theorem edgeWrites_onUnit {x : State} {d : Descriptor} {t : State} (hd : d.state ≠ .done)
    (h : onUnit d x = .next t) : EdgeWrites x d t := by
  refine EdgeWrites.from (y := { x with atBit := x.atBit - 10#5 }) ?_ rfl
  simp only [onUnit] at h
  generalize ({ x with atBit := x.atBit - 10#5 } : State) = y at h ⊢
  split at h
  · unfold onSofUnit at h
    split at h
    · cases h; exact edgeWrites_modifyHead y hd _
    · split at h
      · next s' hs =>
        obtain ⟨-, rfl⟩ := storeHeadByte_some hs
        cases h
        rw [modifyHead_modifyHead]
        have e := edgeWrites_modifyHead y hd
          ((fun d => { d with size := 1#8, seqNo := y.seq, state := .loading }) ∘
            fun d' => { d' with bytes := d.bytes.write 0 (unpack (extractUnit x.bits (x.atBit - 10#5).toNat)) })
        exact ⟨e.params, e.inputs, e.enabled, e.tail, e.nCorrupt, e.nRepaired, e.out, e.prev, e.rsp, e.overrun,
          e.timerArmed, e.headCount, e.slot⟩
      · exact absurd h (by simp)
  · unfold onDataUnit at h
    split at h
    · next s' hs =>
      obtain ⟨-, rfl⟩ := storeHeadByte_some hs
      cases h
      unfold manchesterCheck
      split
      · rw [modifyHead_modifyHead, modifyHead_modifyHead]
        exact edgeWrites_afterAppend y hd _ _ _
      · rw [modifyHead_modifyHead]
        exact edgeWrites_afterAppend y hd _ _ _
    · exact absurd h (by simp)

/-- What the run an edge ends writes. -/
theorem edgeWrites_onEdgeRun {x : State} {d : Descriptor} {L : Level} {delta : Word} {t : State}
    (hd : d.state ≠ .done) (h : onEdgeRun d L delta x = .next t) : EdgeWrites x d t := by
  simp only [onEdgeRun] at h
  refine EdgeWrites.from (y := storeJitter (classify x.params (effectiveCycles delta x)).2 x) ?_ rfl
  generalize storeJitter (classify x.params (effectiveCycles delta x)).2 x = y at h ⊢
  generalize (classify x.params (effectiveCycles delta x)).1 = n at h
  split at h
  · cases h
    unfold onLongRun
    split
    · exact (edgeWrites_modifyHead y hd _).clear
    · exact edgeWrites_advance y hd _
  · simp only [onShortRun] at h
    have e : appendRun L (eatenLength y n) (eatRule n y) =
        { y with
          atBit := (appendRun L (eatenLength y n) (eatRule n y)).atBit
          bits := (appendRun L (eatenLength y n) (eatRule n y)).bits
          jit := (appendRun L (eatenLength y n) (eatRule n y)).jit
          freeCount := (appendRun L (eatenLength y n) (eatRule n y)).freeCount } := by
      unfold eatRule carryEatenBit appendRun
      split
      · split <;> rfl
      · rfl
    refine EdgeWrites.from ?_ e
    generalize appendRun L (eatenLength y n) (eatRule n y) = z at h ⊢
    split at h
    · exact edgeWrites_onUnit hd h
    · cases h
      exact ⟨rfl, rfl, rfl, rfl, rfl, rfl, rfl, rfl, rfl, id, id, .inl ⟨rfl, rfl⟩, id, (modify_id_slot _ _).symm,
        fun _ => rfl⟩

/-- What an edge writes, whatever the head state. -/
theorem edgeWrites_onEdge {x : State} {d : Descriptor} {L : Level} {delta : Word} {t : State}
    (h : onEdge d L delta x = .next t) : EdgeWrites x d t := by
  unfold onEdge at h
  cases hs : d.state <;> rw [hs] at h <;> dsimp only at h
  · cases h
    cases L
    · exact (edgeWrites_modifyHead x (by simp [hs]) _).clear
    · exact ⟨rfl, rfl, rfl, rfl, rfl, rfl, rfl, rfl, rfl, id, id, .inl ⟨rfl, rfl⟩, id, (modify_id_slot _ _).symm,
        fun _ => rfl⟩
  · exact edgeWrites_onEdgeRun (by simp [hs]) h
  · exact edgeWrites_onEdgeRun (by simp [hs]) h
  · cases h
    exact edgeWrites_advance x (by simp [hs]) _
  · cases h
    refine ⟨rfl, rfl, rfl, rfl, rfl, rfl, rfl, rfl, rfl, ?_, id, .inl ⟨rfl, rfl⟩, id, (modify_id_slot _ _).symm,
      fun _ => rfl⟩
    cases L <;> simp [onEdgeDone, overrunAfter]

/-- What EDGE answers: nothing before SETUP, else the edge's writes over the recorded edge. -/
theorem execEdge_cases {L : Level} {c : Word} {s t : State} (h : exec (.edge L c) s = .next t) :
    (s.enabled = false ∧ t = s.quiet) ∨
      (s.enabled = true ∧ ∃ d, s.slot[s.head.toNat]? = some d ∧
        onEdge d L (edgeDelta c s) (recordEdge c s.quiet) = .next t ∧ EdgeWrites (recordEdge c s.quiet) d t) := by
  simp only [exec, execEdge] at h
  split at h
  · next he =>
    obtain ⟨d, hd, h⟩ := withHead_next.mp h
    exact .inr ⟨he, d, by simpa using hd, h, edgeWrites_onEdge h⟩
  · next he => exact .inl ⟨by simpa using he, by cases h; rfl⟩

/-- What ACK_TIMEOUT answers (`42_frame_fsm.md` R176). -/
theorem execAckTimeout_cases {s t : State} (h : exec .ackTimeout s = .next t) :
    (s.timerArmed = false ∧ t = s.quiet) ∨
      (s.timerArmed = true ∧ ∃ d, s.slot[s.head.toNat]? = some d ∧
        t = if d.state = .waitingAck then advanceHead { s.quiet with timerArmed := false }
          else { s.quiet with timerArmed := false }) := by
  simp only [exec, execAckTimeout] at h
  split at h
  · next ha =>
    obtain ⟨d, hd, h⟩ := withHead_next.mp h
    cases h
    exact .inr ⟨ha, d, by simpa using hd, rfl⟩
  · next ha => exact .inl ⟨by simpa using ha, by cases h; rfl⟩

/-- A step whose next presentation spells an instruction runs it. -/
theorem step_instr {s : State} {p : Presentation} {rest : List Presentation} {i : Instr} (hin : s.inputs = p :: rest)
    (hd : decode p = .instr i) : step s = exec i { s with inputs := rest } := by
  simp only [step, takeInput, hin, hd]

/-- A step whose next presentation is an illegal command word answers ST_ILLEGAL. -/
theorem step_illegalWord {s : State} {p : Presentation} {rest : List Presentation} {why : Reject}
    (hin : s.inputs = p :: rest) (hd : decode p = .illegalWord why) :
    step s = .next (answered .illegal 0#32 { s with inputs := rest }) := by
  simp only [step, takeInput, hin, hd]
  rfl

/-- A step whose next presentation spells no event is refused. -/
theorem step_noEvent {s : State} {p : Presentation} {rest : List Presentation} {why : Reject}
    (hin : s.inputs = p :: rest) (hd : decode p = .noEvent why) : step s = .refused .noSuchEvent := by
  simp only [step, takeInput, hin, hd]
  rfl

/-- What a step that answers a next state did: idle, an instruction, or an illegal word. -/
theorem step_next {s t : State} (h : step s = .next t) :
    (s.inputs = [] ∧ t = s.quiet) ∨
      ∃ p rest, s.inputs = p :: rest ∧
        ((∃ i, decode p = .instr i ∧ exec i { s with inputs := rest } = .next t) ∨
          ((∃ why, decode p = .illegalWord why) ∧ t = answered .illegal 0#32 { s with inputs := rest })) := by
  unfold step takeInput at h
  cases hi : s.inputs with
  | nil => rw [hi] at h; cases h; exact .inl ⟨rfl, rfl⟩
  | cons p rest =>
    rw [hi] at h
    dsimp only at h
    refine .inr ⟨p, rest, rfl, ?_⟩
    cases hp : decode p with
    | instr i => rw [hp] at h; exact .inl ⟨i, rfl, h⟩
    | illegalWord why => rw [hp] at h; exact .inr ⟨⟨why, rfl⟩, by cases h; rfl⟩
    | noEvent why => rw [hp] at h; exact absurd h (by simp [noEventStep])

end Sys2Proof.Machine
end

