-- ==== Sys2Proof/Laws/PerInstr.lean ====
section
/-! SUPPORT. The round trip of the encoder and the decoder, instruction by instruction. -/

namespace Sys2Proof.Laws.RoundTrip

/-- The opcode of a command word built from its two bytes. -/
theorem opcodeOf_commandWord (opc arg : Byte) : opcodeOf (commandWord opc arg) = opc := by
  ext i hi
  rw [opcodeOf, commandWord, BitVec.getElem_extractLsb']
  exact (BitVec.getLsbD_append (x := opc) (y := arg)).trans (by simp [BitVec.getLsbD_eq_getElem hi])

/-- The argument of a command word built from its two bytes. -/
theorem argOf_commandWord (opc arg : Byte) : argOf (commandWord opc arg) = arg := by
  ext i hi
  rw [argOf, commandWord, BitVec.getElem_extractLsb']
  exact (BitVec.getLsbD_append (x := opc) (y := arg)).trans (by simp [hi])

/-- The fields of an event record built from them. -/
theorem kindOf_eventRecord (kind : BitVec 2) (level : BitVec 1) (cycle : Word) :
    kindOf (eventRecord kind level cycle) = kind := by
  ext i hi
  simp only [kindOf, eventRecord, BitVec.getElem_extractLsb', BitVec.getLsbD_append]
  simp [BitVec.getLsbD_eq_getElem hi]

theorem reservedOf_eventRecord (kind : BitVec 2) (level : BitVec 1) (cycle : Word) :
    reservedOf (eventRecord kind level cycle) = 0#1 := by
  ext i hi
  simp only [reservedOf, eventRecord, BitVec.getElem_extractLsb', BitVec.getLsbD_append]
  obtain rfl : i = 0 := by omega
  simp

theorem levelOf_eventRecord (kind : BitVec 2) (level : BitVec 1) (cycle : Word) :
    levelOf (eventRecord kind level cycle) = level := by
  ext i hi
  simp only [levelOf, eventRecord, BitVec.getElem_extractLsb', BitVec.getLsbD_append]
  obtain rfl : i = 0 := by omega
  simp

theorem cycleOf_eventRecord (kind : BitVec 2) (level : BitVec 1) (cycle : Word) :
    cycleOf (eventRecord kind level cycle) = cycle := by
  ext i hi
  simp only [cycleOf, eventRecord, BitVec.getElem_extractLsb', BitVec.getLsbD_append]
  simp [hi, show i < 33 by omega, show i < 34 by omega]

/-- A command word is its two bytes. -/
theorem commandWord_parts (w : CommandWord) : commandWord (opcodeOf w) (argOf w) = w := by
  ext i hi
  rw [commandWord, opcodeOf, argOf, BitVec.getElem_append]
  split
  · simp [BitVec.getLsbD_eq_getElem hi]
  · simp [show 8 + (i - 8) = i by omega, BitVec.getLsbD_eq_getElem hi]

/-- A record whose bit 33 is clear is its three fields. -/
theorem eventRecord_parts (r : EventRecord) (h : reservedOf r = 0#1) :
    eventRecord (kindOf r) (levelOf r) (cycleOf r) = r := by
  have h33 : r.getLsbD 33 = false := by
    have := congrArg (fun x => x.getLsbD 0) h
    simpa [reservedOf] using this
  apply BitVec.eq_of_getLsbD_eq
  intro i hi
  simp only [eventRecord, kindOf, levelOf, cycleOf, BitVec.getLsbD_append, BitVec.getLsbD_extractLsb']
  rcases Nat.lt_or_ge i 32 with h1 | h1
  · simp [h1, show i < 33 by omega, show i < 34 by omega]
  · rcases Nat.lt_or_ge i 33 with h2 | h2
    · obtain rfl : i = 32 := by omega
      simp
    · rcases Nat.lt_or_ge i 34 with h3 | h3
      · obtain rfl : i = 33 := by omega
        exact (by simp : _ = false).trans h33.symm
      · simp [show ¬ i < 34 by omega, show i ≤ 35 by omega, show 34 + (i - 34) = i by omega]

theorem ofBit_toBit (level : Level) : Level.ofBit level.toBit = level := by cases level <;> rfl

/-- Decoding an encoded instruction gives it back. -/
def Statement (i : Instr) : Prop := decode (encode i) = .instr i

theorem setup : Statement .setup := rfl
theorem receive : Statement .receive := rfl
theorem available : Statement .available := rfl
theorem getCount : Statement .getCount := rfl
theorem getCorrupt : Statement .getCorrupt := rfl
theorem getRepaired : Statement .getRepaired := rfl
theorem outSize : Statement .outSize := rfl
theorem outMeta : Statement .outMeta := rfl
theorem outSeqno : Statement .outSeqno := rfl
theorem frameIden : Statement .frameIden := rfl
theorem frameFlags : Statement .frameFlags := rfl
theorem frameDatalen : Statement .frameDatalen := rfl
theorem frameCrc : Statement .frameCrc := rfl
theorem ackTimeout : Statement .ackTimeout := rfl
theorem reset : Statement .reset := rfl

theorem readReg (num : Byte) : Statement (.readReg num) := by
  simp only [Statement, encode, decode, decodeCommand, opcodeOf_commandWord, argOf_commandWord]

theorem crcCompute (sel : Byte) : Statement (.crcCompute sel) := by
  simp only [Statement, encode, decode, decodeCommand, opcodeOf_commandWord, argOf_commandWord]

theorem crcVerify (sel : Byte) : Statement (.crcVerify sel) := by
  simp only [Statement, encode, decode, decodeCommand, opcodeOf_commandWord, argOf_commandWord]

theorem crcRepair (sel : Byte) : Statement (.crcRepair sel) := by
  simp only [Statement, encode, decode, decodeCommand, opcodeOf_commandWord, argOf_commandWord]

theorem outByte (index : Byte) : Statement (.outByte index) := by
  simp only [Statement, encode, decode, decodeCommand, opcodeOf_commandWord, argOf_commandWord]

theorem edge (level : Level) (cycle : Word) : Statement (.edge level cycle) := by
  simp [Statement, encode, decode, decodeEvent, reservedOf_eventRecord, kindOf_eventRecord, levelOf_eventRecord,
    cycleOf_eventRecord, ofBit_toBit]

end Sys2Proof.Laws.RoundTrip
end

