-- ==== Sys2Proof/Tests/Slice0.lean ====
section
/-! SUPPORT. The model's own tests: the argument checks, every constructor's word written out bit by bit, one step per
instruction with the expected values of `95_test_vectors.md`, and for every statement with hypotheses a state and
operands that meet them. -/

set_option Elab.async false

namespace Sys2Proof.Tests

open Sys2Proof.Machine Sys2Proof.Claims

/-! ### Helpers -/

/-- The result is a next state, and it passes the check. -/
def nextIs (r : Result) (check : State → Bool) : Bool :=
  match r with
  | .next t => check t
  | .fault _ => false
  | .refused _ => false

/-- The result is a next state that answers `st` and `v`. -/
def answers (r : Result) (st : Status) (v : Word) : Bool :=
  nextIs r fun t => t.outputs == { rsp := some { status := st, data := v }, armAckTimer := false }

theorem exists_next {r : Result} {check : State → Bool} (h : nextIs r check = true) :
    ∃ t, r = .next t ∧ check t = true := by
  cases r with
  | next t => exact ⟨t, rfl, h⟩
  | fault f => exact absurd h (by simp [nextIs])
  | refused f => exact absurd h (by simp [nextIs])

/-- A frame of the test vectors in slot 0 or OUT. -/
def frame (bytes : Memory) (size : Byte) (state : DState) (acked : Ack) : Descriptor :=
  { Descriptor.atReset 0 with bytes := bytes, size := size, state := state, ack := acked }

/-- The reference block after SETUP, with a descriptor in slot 0. -/
def atSlot0 (d : Descriptor) : State :=
  { State.reset with enabled := true, slot := [d, Descriptor.atReset 1, Descriptor.atReset 2, Descriptor.atReset 3] }

/-- The reference block with a descriptor in OUT. -/
def atOut (d : Descriptor) : State := { State.reset with out := d }

/-- Frame F1 of `95_test_vectors.md` 2.2: `0E 8A 4C 0F 07 00 3B AA`. -/
def f1 : Memory := [(0, 0x0E#8), (1, 0x8A#8), (2, 0x4C#8), (3, 0x0F#8), (4, 0x07#8), (6, 0x3B#8), (7, 0xAA#8)]

/-- F1 drained with an acknowledgement. -/
def f1Done : Descriptor := frame f1 8#8 .done .ack

/-- F1 with `bytes[3] = 0x0B`: one bit wrong. -/
def f1Bad : Descriptor := frame (f1.write 3 0x0B#8) 8#8 .done .ack

/-- F1 with `bytes[3] = 0x0B` and `bytes[4] = 0x06`: two bits wrong. -/
def f1Bad2 : Descriptor := frame ((f1.write 3 0x0B#8).write 4 0x06#8) 8#8 .done .ack

/-- The frame `0E 00 00`, which verifies (V-CRC-3), with two bits of byte 1 wrong. -/
def empty2 : Descriptor := frame [(0, 0x0E#8), (1, 0x03#8)] 3#8 .done .none

/-- The frame `0E B2 34` of program P1. -/
def p1Done : Descriptor := frame [(0, 0x0E#8), (1, 0xB2#8), (2, 0x34#8)] 3#8 .done .none

/-- Program P1 before its step 7: nine bits of the SOF unit, ended by a rising edge at 6760. -/
def beforeSof : State :=
  { atSlot0 { Descriptor.atReset 0 with state := .searching } with prev := 6760#32, atBit := 9#5, bits := 0x01E#32 }

/-- Program P1 before its step 18: `0E B2` decoded, seven bits of the EOD unit, ended by a falling edge at 18280. -/
def beforeEod : State :=
  { atSlot0 (frame [(0, 0x0E#8), (1, 0xB2#8)] 2#8 .loading .none) with
    seq := 1#32, prev := 18280#32, atBit := 7#5, bits := 0x19#32 }

/-- A frame in its acknowledgement window. -/
def waiting : State :=
  { atSlot0 (frame [(0, 0x0E#8), (1, 0xB2#8), (2, 0x34#8)] 3#8 .waitingAck .none) with seq := 1#32, timerArmed := true }

/-- A block of one slot, full (`43_queue.md` R208). -/
def fullOne : State :=
  { State.reset with
    params := { Config.reference with q := 1 }
    enabled := true
    slot := [p1Done]
    count := 1#32
    seq := 1#32 }

/-! ### WellFormed -/

theorem test_ill_formed_register : (Instr.readReg 6#8).wellFormed Config.reference = false := by decide
theorem test_ill_formed_selectors :
    (Instr.crcCompute 4#8).wellFormed Config.reference = false ∧
    (Instr.crcVerify 0x7F#8).wellFormed Config.reference = false ∧
    (Instr.crcRepair 0x81#8).wellFormed Config.reference = false := by decide
theorem test_well_formed :
    (Instr.readReg 5#8).wellFormed Config.reference = true ∧
    (Instr.crcCompute 3#8).wellFormed Config.reference = true ∧
    (Instr.crcRepair 0x80#8).wellFormed Config.reference = true ∧
    (Instr.outByte 0xFF#8).wellFormed Config.reference = true := by decide
theorem test_illegal_parameters :
    ¬ ({ Config.reference with q := 0 } : Config.Params).SizesLegal ∧
    ¬ ({ Config.reference with maxPacket := 256 } : Config.Params).SizesLegal ∧
    ¬ ({ Config.reference with thr2 := 960 } : Config.Params).ThresholdsAscend ∧
    ¬ ({ Config.reference with linDiv := 0 } : Config.Params).FallbackLegal ∧
    ¬ ({ Config.reference with linDiv := 1000 } : Config.Params).FallbackLegal ∧
    Config.reference.Legal := by decide
theorem test_reset_memory_canonical :
    (State.reset.slot.all fun d => d.bytes.wf) = true ∧ State.reset.out.bytes.wf = true := by decide

/-! ### Decoding: OPC in [15:8], ARG in [7:0]; KIND in [35:34], LEVEL in [32], CYCLE in [31:0] -/

theorem test_decode_queue_words :
    decode (.command 0b0000000100000000#16) = .instr .setup ∧
    decode (.command 0b0000001000000000#16) = .instr .receive ∧
    decode (.command 0b0000001100000000#16) = .instr .available ∧
    decode (.command 0b0000010000000000#16) = .instr .getCount ∧
    decode (.command 0b0000010100000000#16) = .instr .getCorrupt ∧
    decode (.command 0b0000011000000000#16) = .instr .getRepaired ∧
    decode (.command 0b0000011100000101#16) = .instr (.readReg 5#8) := by decide
theorem test_decode_crc_words :
    decode (.command 0b0001000000000011#16) = .instr (.crcCompute 3#8) ∧
    decode (.command 0b0001000100000010#16) = .instr (.crcVerify 2#8) ∧
    decode (.command 0b0001001010000000#16) = .instr (.crcRepair 0x80#8) := by decide
theorem test_decode_access_words :
    decode (.command 0b0010000000001010#16) = .instr (.outByte 10#8) ∧
    decode (.command 0b0010000100000000#16) = .instr .outSize ∧
    decode (.command 0b0010001000000000#16) = .instr .outMeta ∧
    decode (.command 0b0010001100000000#16) = .instr .outSeqno ∧
    decode (.command 0b0010010000000000#16) = .instr .frameIden ∧
    decode (.command 0b0010010100000000#16) = .instr .frameFlags ∧
    decode (.command 0b0010011000000000#16) = .instr .frameDatalen ∧
    decode (.command 0b0010011100000000#16) = .instr .frameCrc := by decide
theorem test_decode_records :
    decode (.event 0b010100000000000000000000110111101000#36) = .instr (.edge .high 3560#32) ∧
    decode (.event 0b010000000000000000000000001111101000#36) = .instr (.edge .low 1000#32) ∧
    decode (.event 0b100000000000000000000000000000000000#36) = .instr .ackTimeout ∧
    decode (.event 0b110000000000000000000000000000000000#36) = .instr .reset := by decide
/-- V-ENC-6, 7, 12 and 17. -/
theorem test_decode_rejects :
    decode (.command 0x0000#16) = .illegalWord .reservedOpcode ∧
    decode (.command 0x0101#16) = .illegalWord .nonzeroArgument ∧
    decode (.command 0xFFFF#16) = .illegalWord .reservedOpcode ∧
    decode (.event 0x000000000#36) = .noEvent .reservedKind ∧
    decode (.event 0x200000000#36) = .noEvent .reservedBit ∧
    decode (.event 0xC00000001#36) = .noEvent .nonzeroField := by decide
theorem test_table_words :
    decodeTableWord 16 0x0701 = some (.readReg 1#8) ∧ decodeTableWord 16 0x0000 = none ∧
    decodeTableWord 40 0x4000003E8 = some (.edge .low 1000#32) ∧ decodeTableWord 40 0xC00000000 = some .reset := by decide
theorem test_fetch_runs_word : answers (step (State.reset.withFetchWord 16 0x0100)) .ok 1#32 = true := by decide +kernel

/-- R90. -/
theorem test_pseudo_instructions :
    Pseudo.tryReceive.expand = some [.receive] ∧ (Pseudo.payloadByte 2#8).expand = some [.outByte 5#8] ∧
    (Pseudo.payloadByte 252#8).expand = some [.outByte 255#8] ∧ (Pseudo.payloadByte 253#8).expand = none := by decide
/-- R7: a block at half the calibration clock. -/
theorem test_scaled_parameters :
    (Config.reference.scaled 8000000 16000000).thr1 = 480 ∧ (Config.reference.scaled 8000000 16000000).linDiv = 320 ∧
    (Config.reference.scaled 8000000 16000000).Legal ∧ Config.scaleTiming 3 2 5 = 7 := by decide

/-! ### One step per instruction -/

/-- V-Q-1. -/
theorem test_setup_attaches :
    nextIs (exec .setup State.reset) (fun t => t.enabled && t.outputs.rsp == some ⟨.ok, 1#32⟩) = true := by decide +kernel
theorem test_setup_again : answers (exec .setup (atSlot0 f1Done)) .ok 0#32 = true := by decide +kernel
/-- V-Q-3. -/
theorem test_receive_reports_overrun :
    nextIs (exec .receive { atSlot0 f1Done with overrun := true }) (fun t =>
      t.outputs.rsp == some ⟨.ok, 3#32⟩ && !t.overrun && t.tail == 1#7 && t.out == f1Done &&
      (t.slot[0]?.map fun d => (d.state, d.size, d.ack)) == some (.vacant, 0#8, .none)) = true := by decide +kernel
/-- V-Q-4. -/
theorem test_receive_empty_keeps_overrun :
    nextIs (exec .receive { State.reset with overrun := true }) (fun t =>
      t.overrun && t.outputs.rsp == some ⟨.ok, 0#32⟩) = true := by decide +kernel
theorem test_available : answers (exec .available (atSlot0 f1Done)) .ok 1#32 = true := by decide +kernel
/-- V-Q-9. -/
theorem test_get_count : answers (exec .getCount { State.reset with count := 4#32 }) .ok 4#32 = true := by decide +kernel
theorem test_get_corrupt : answers (exec .getCorrupt { State.reset with nCorrupt := 7#32 }) .ok 7#32 = true := by decide +kernel
theorem test_get_repaired : answers (exec .getRepaired { State.reset with nRepaired := 6#32 }) .ok 6#32 = true := by decide +kernel
/-- V-Q-7. -/
theorem test_read_status : answers (exec (.readReg 0#8) waiting) .ok 0x3C#32 = true := by decide +kernel
/-- V-Q-6. -/
theorem test_read_config : answers (exec (.readReg 5#8) State.reset) .ok 0x2004#32 = true := by decide +kernel
/-- V-CRC-3. -/
theorem test_crc_compute : answers (exec (.crcCompute 0x80#8) (atOut f1Done)) .ok 0x3BAA#32 = true := by decide +kernel
/-- V-CRC-4. -/
theorem test_crc_verify_bad : answers (exec (.crcVerify 0x80#8) (atOut f1Bad)) .ok 0#32 = true := by decide +kernel
/-- V-CRC-12. -/
theorem test_crc_verify_busy : answers (exec (.crcVerify 1#8) State.reset) .busy 0#32 = true := by decide +kernel
/-- V-CRC-5. -/
theorem test_crc_repair_restores :
    nextIs (exec (.crcRepair 0x80#8) (atOut f1Bad)) (fun t =>
      t.outputs.rsp == some ⟨.ok, 0x00030203#32⟩ && t.out == f1Done && t.nCorrupt == 1#32 && t.nRepaired == 1#32) = true := by
  decide +kernel
/-- V-CRC-8. -/
theorem test_crc_repair_two_errors :
    nextIs (exec (.crcRepair 0x80#8) (atOut f1Bad2)) (fun t =>
      t.outputs.rsp == some ⟨.ok, 0#32⟩ && t.out == f1Bad2 && t.nCorrupt == 1#32 && t.nRepaired == 0#32) = true := by
  decide +kernel
/-- V-ACC-2. -/
theorem test_out_byte : answers (exec (.outByte 2#8) (atOut p1Done)) .ok 0x34#32 = true := by decide +kernel
theorem test_out_byte_past_size : answers (exec (.outByte 3#8) (atOut p1Done)) .illegal 0#32 = true := by decide +kernel
theorem test_out_size : answers (exec .outSize (atOut p1Done)) .ok 3#32 = true := by decide +kernel
/-- V-ACC-7 and V-ACC-8. -/
theorem test_out_meta_ack : answers (exec .outMeta (atOut f1Done)) .ok 0x14#32 = true := by decide +kernel
theorem test_out_meta_nbits :
    answers (exec .outMeta (atOut { frame [(0, 0x0E#8)] 1#8 .done .none with result := .errorNbits })) .ok 0x104#32 = true := by
  decide +kernel
theorem test_out_seqno : answers (exec .outSeqno (atOut { f1Done with seqNo := 9#32 })) .ok 9#32 = true := by decide +kernel
/-- V-ACC-3 to V-ACC-6. -/
theorem test_frame_iden : answers (exec .frameIden (atOut p1Done)) .ok 0xB23#32 = true := by decide +kernel
theorem test_frame_flags : answers (exec .frameFlags (atOut f1Done)) .ok 0xC#32 = true := by decide +kernel
theorem test_frame_datalen : answers (exec .frameDatalen (atOut f1Done)) .ok 3#32 = true := by decide +kernel
theorem test_frame_datalen_short : answers (exec .frameDatalen (atOut p1Done)) .illegal 0#32 = true := by decide +kernel
theorem test_frame_crc : answers (exec .frameCrc (atOut f1Done)) .ok 0x3BAA#32 = true := by decide +kernel
/-- V-FSM-6: program P1, step 7. -/
theorem test_edge_completes_sof :
    nextIs (exec (.edge .low 8040#32) beforeSof) (fun t =>
      t.seq == 1#32 && t.atBit == 1#5 && t.prev == 8040#32 && t.outputs == ⟨none, false⟩ &&
      t.slot[0]? == some (frame [(0, 0x0E#8)] 1#8 .loading .none)) = true := by decide +kernel
/-- Program P1, step 18. -/
theorem test_edge_eod_arms_timer :
    nextIs (exec (.edge .high 20200#32) beforeEod) (fun t =>
      t.timerArmed && t.atBit == 0#5 && t.outputs == ⟨none, true⟩ &&
      t.slot[0]? == some (frame [(0, 0x0E#8), (1, 0xB2#8), (2, 0x34#8)] 3#8 .waitingAck .none)) = true := by
  decide +kernel
/-- V-FSM-11. -/
theorem test_timeout_completes :
    nextIs (exec .ackTimeout waiting) (fun t =>
      !t.timerArmed && t.count == 1#32 && t.head == 1#7 && t.slot[0]? == some p1Done) = true := by decide +kernel
/-- V-FSM-12. -/
theorem test_stale_timeout :
    nextIs (exec .ackTimeout { State.reset with timerArmed := true }) (fun t => t == State.reset) = true := by decide +kernel
/-- V-RST-1. -/
theorem test_reset_clears :
    nextIs (exec .reset { waiting with out := f1Done, count := 5#32 }) (fun t => t == State.reset) = true := by
  decide +kernel

/-! ### The hypotheses of the statements can be met

One theorem per statement, or per clause of it, at the edges of the clause's range. -/

/-- The state with a presentation next, and it alone. -/
def presenting (p : Presentation) (s : State) : State := { s with inputs := [p] }

theorem meets_NoneCommand (opc : Byte) :
    (0xFF#8 ≠ 0#8 ∧ (presenting (.command (opc ++ 0xFF#8)) State.reset).inputs = [.command (opc ++ 0xFF#8)]) ∧
    (0x01#8 ≠ 0#8 ∧ (presenting (.command (opc ++ 0x01#8)) State.reset).inputs = [.command (opc ++ 0x01#8)]) :=
  ⟨⟨by decide, rfl⟩, by decide, rfl⟩

theorem meets_DecodeInvertsEncode :
    decode (.event 0x500000DE8#36) = .instr (.edge .high 3560#32) ∧
    encode (.edge .high 3560#32) = .event 0x500000DE8#36 := by decide

theorem meets_IllegalWords_reserved : ∀ opc ∈ [0x00#8, 0x08#8, 0x0F#8, 0x13#8, 0x1F#8, 0x28#8, 0xFF#8],
    (presenting (.command (opc ++ 0#8)) State.reset).inputs = [.command (opc ++ 0#8)] ∧ ReservedOpcode opc := by
  unfold ReservedOpcode; decide
theorem meets_IllegalWords_argument : ∀ opc ∈ [0x01#8, 0x06#8, 0x21#8, 0x27#8],
    (presenting (.command (opc ++ 1#8)) State.reset).inputs = [.command (opc ++ 1#8)] ∧ NoneOpcode opc ∧ 1#8 ≠ 0#8 := by
  unfold NoneOpcode; decide
theorem meets_IllegalWords_selector : ∀ opc ∈ [0x10#8, 0x12#8], ∀ arg ∈ [0x04#8, 0x7F#8, 0x81#8, 0xFF#8],
    (presenting (.command (opc ++ arg)) State.reset).inputs = [.command (opc ++ arg)] ∧
    BufselOpcode opc ∧ arg ≠ 0x80#8 ∧ State.reset.params.q ≤ arg.toNat := by
  unfold BufselOpcode; decide

theorem meets_RecordsSpellEvents_reserved :
    (0x0FFFFFFFF#36).extractLsb' 34 2 = 0b00#2 ∧ (0x600000000#36).extractLsb' 33 1 = 1#1 := by decide
theorem meets_RecordsSpellEvents_nonzero :
    ((0x900000000#36).extractLsb' 34 2 = 0b10#2 ∧ (0x900000000#36).extractLsb' 32 1 ≠ 0#1) ∧
    ((0x800000001#36).extractLsb' 34 2 = 0b10#2 ∧ (0x800000001#36).extractLsb' 0 32 ≠ 0#32) ∧
    ((0xC80000000#36).extractLsb' 34 2 = 0b11#2 ∧ (0xC80000000#36).extractLsb' 0 32 ≠ 0#32) := by decide
theorem meets_RecordsSpellEvents_events :
    ((0x5FFFFFFFF#36).extractLsb' 33 1 = 0#1 ∧ (0x5FFFFFFFF#36).extractLsb' 34 2 = 0b01#2) ∧
    ((0x800000000#36).extractLsb' 33 1 = 0#1 ∧ (0x800000000#36).extractLsb' 32 1 = 0#1 ∧
      (0x800000000#36).extractLsb' 0 32 = 0#32 ∧ (0x800000000#36).extractLsb' 34 2 = 0b10#2) ∧
    ((0xC00000000#36).extractLsb' 33 1 = 0#1 ∧ (0xC00000000#36).extractLsb' 32 1 = 0#1 ∧
      (0xC00000000#36).extractLsb' 0 32 = 0#32 ∧ (0xC00000000#36).extractLsb' 34 2 = 0b11#2) := by decide
theorem meets_RecordsSpellEvents_inputs (r : EventRecord) :
    (presenting (.event r) State.reset).inputs = [.event r] := rfl

theorem meets_StepRunsDecoded :
    ((presenting (.command 0x1280#16) waiting).inputs = [.command 0x1280#16] ∧
      decode (.command 0x1280#16) = .instr (.crcRepair 0x80#8)) ∧ waiting.inputs = [] := by decide +kernel

theorem meets_SetupAttachesOnce :
    waiting.enabled = true ∧ State.reset.enabled = false ∧
    ∃ t, exec .ackTimeout waiting = .next t ∧ (waiting.enabled && decide (Instr.ackTimeout ≠ .reset)) = true :=
  ⟨rfl, rfl, exists_next (check := fun _ => waiting.enabled && decide (Instr.ackTimeout ≠ .reset)) (by decide +kernel)⟩

theorem meets_ReceiveDrainsTail :
    ((atSlot0 f1Done).slot[(atSlot0 f1Done).tail.toNat]? = some f1Done ∧ f1Done.state = .done) ∧
    (State.reset.slot[State.reset.tail.toNat]? = some (Descriptor.atReset 0) ∧ (Descriptor.atReset 0).state ≠ .done) ∧
    (∃ t, exec (.edge .low 5#32) (atSlot0 f1Done) = .next t ∧ t.overrun = true) ∧
    ∃ t, exec .ackTimeout (atSlot0 f1Done) = .next t ∧ (t.slot[0]? == some f1Done) = true :=
  ⟨by decide +kernel, by decide +kernel, exists_next (check := fun t => t.overrun) (by decide +kernel),
    exists_next (by decide +kernel)⟩

theorem meets_AvailableForetellsReceive :
    (Instr.edge .low 5#32 ≠ .receive ∧ Instr.edge .low 5#32 ≠ .reset) ∧ (atSlot0 f1Done).availPort = true ∧
    ∃ t, exec (.edge .low 5#32) (atSlot0 f1Done) = .next t ∧ t.overrun = true :=
  ⟨by decide, by decide, exists_next (check := fun t => t.overrun) (by decide +kernel)⟩

theorem meets_CounterReadsAnswer :
    (∀ sel, Instr.receive ≠ .crcRepair sel) ∧ Instr.receive ≠ .reset ∧
    ∃ t, exec .receive (atSlot0 f1Done) = .next t ∧ (t.tail == 1#7) = true :=
  ⟨fun _ => by simp, by decide, exists_next (by decide +kernel)⟩

theorem meets_RegisterViewFields :
    waiting.params.Legal ∧ (∃ t, waiting.slot[waiting.tail.toNat]? = some t) ∧
    (∃ h, waiting.slot[waiting.head.toNat]? = some h) ∧ 6 ≤ (6#8).toNat ∧ 6 ≤ (0xFF#8).toNat :=
  ⟨by decide, ⟨_, rfl⟩, ⟨_, rfl⟩, by decide, by decide⟩

theorem meets_CrcRegisterFollowsBytes :
    (1 ≤ 1 ∧ (0 : Nat) ≤ 1) ∧ ∀ i, 1 ≤ i → i < 8 → f1.read i = (f1.write 0 0#8).read i := by
  refine ⟨by decide, fun i h1 _ => ?_⟩
  rw [Memory.read_write (by decide), if_neg (by omega)]

theorem meets_ResolveRaises :
    (4#8 ≠ 0x80#8 ∧ State.reset.params.q ≤ (4#8).toNat) ∧
    (3#8 ≠ 0x80#8 ∧ (3#8).toNat < State.reset.params.q ∧
      State.reset.slot[(3#8).toNat]? = some (Descriptor.atReset 3) ∧ (Descriptor.atReset 3).state ≠ .done) := by
  decide +kernel

/-- A pool slot and OUT, named by a BUFSEL. -/
theorem names_slot (d : Descriptor) (h : d.state = .done) : Names (atSlot0 d) 0#8 d :=
  .inr ⟨by decide, Nat.zero_lt_succ 3, rfl, h⟩
theorem names_out (d : Descriptor) : Names (atOut d) 0x80#8 d := .inl ⟨rfl, rfl⟩

theorem meets_CrcComputeAnswers :
    (Names (atSlot0 f1Done) 0#8 f1Done ∧ Names (atOut f1Bad) 0x80#8 f1Bad) ∧
    f1Done.size.toNat ≤ (atSlot0 f1Done).params.maxPacket ∧ 2 < 3 ∧ 3 ≤ 3 ∧
    ∀ i, 1 ≤ i → i + 2 < 8 → f1.read i = (f1.write 7 0#8).read i :=
  ⟨⟨names_slot _ rfl, names_out _⟩, by decide, by decide, by decide, fun i _ h => by
    rw [Memory.read_write (by decide), if_neg (by omega)]⟩

theorem meets_CrcVerifyAnswers :
    Names (atSlot0 f1Done) 0#8 f1Done ∧ f1Done.size.toNat ≤ (atSlot0 f1Done).params.maxPacket ∧ 1 ≤ 1 ∧ f1.wf = true :=
  ⟨names_slot _ rfl, by decide, by decide, by decide⟩

theorem meets_Repair_clean :
    Names (atOut f1Done) 0x80#8 f1Done ∧ f1Done.size.toNat ≤ (atOut f1Done).params.maxPacket ∧
    f1Done.bytes.wf = true ∧ crcVerify f1Done.bytes f1Done.size.toNat = true :=
  ⟨names_out _, by decide, by decide, by decide +kernel⟩
theorem meets_Repair_flip :
    Names (atSlot0 f1Bad) 0#8 f1Bad ∧ crcVerify f1Bad.bytes f1Bad.size.toNat = false ∧ 3 < f1Bad.size.toNat ∧ 2 < 8 ∧
    crcVerify (flipped f1Bad.bytes 3 2) f1Bad.size.toNat = true ∧
    ∀ i' j', i' < f1Bad.size.toNat → j' < 8 → TriedBefore i' j' 3 2 →
      crcVerify (flipped f1Bad.bytes i' j') f1Bad.size.toNat = false := by
  refine ⟨names_slot _ rfl, by decide +kernel, by decide, by decide, by decide +kernel, ?_⟩
  have all : ∀ i' < 8, ∀ j' < 8, (i' < 3 ∨ (i' = 3 ∧ j' < 2)) →
      crcVerify (flipped f1Bad.bytes i' j') f1Bad.size.toNat = false := by decide +kernel
  exact fun i' j' hi hj hb => all i' hi j' hj hb
theorem meets_Repair_none :
    Names (atOut empty2) 0x80#8 empty2 ∧ crcVerify empty2.bytes empty2.size.toNat = false ∧
    ∀ i j, i < empty2.size.toNat → j < 8 → crcVerify (flipped empty2.bytes i j) empty2.size.toNat = false := by
  refine ⟨names_out _, by decide +kernel, ?_⟩
  have all : ∀ i < 3, ∀ j < 8, crcVerify (flipped empty2.bytes i j) empty2.size.toNat = false := by decide +kernel
  exact fun i j hi hj => all i hi j hj

theorem meets_SingleBitErrorDetected :
    f1.wf = true ∧ crcVerify f1 8 = true ∧ (1 ≤ 1 ∧ 1 < 8 ∧ 0 < 8) ∧ 1 ≤ 7 ∧ 7 < 8 ∧ 7 < 8 := by decide +kernel

theorem meets_RepairRestoresSingleBitError :
    Names (atSlot0 f1Bad) 0#8 f1Bad ∧ f1Bad.size.toNat ≤ (atSlot0 f1Bad).params.maxPacket ∧ f1Bad.size.toNat ≤ 224 ∧
    f1.wf = true ∧ crcVerify f1 f1Bad.size.toNat = true ∧ 3 < f1Bad.size.toNat ∧ f1Bad.bytes = flipped f1 3 2 :=
  ⟨names_slot _ rfl, by decide, by decide, by decide, by decide +kernel, by decide, by decide +kernel⟩

theorem meets_ComputedCrcVerifies : f1.wf = true ∧ 3 ≤ 3 := by decide

theorem meets_OutByteAnswers :
    p1Done.size.toNat ≤ (atOut p1Done).params.maxPacket ∧ (atOut p1Done).out.size.toNat ≤ (3#8).toNat ∧
    (2#8).toNat < (atOut p1Done).out.size.toNat := by decide

theorem meets_OutMetaFields :
    (atOut p1Done).out.state = .done ∧ waiting.out = Descriptor.atReset 0 ∧
    ∃ t, exec (.edge .low 9#32) waiting = .next t ∧ (t.out == Descriptor.atReset 0) = true :=
  ⟨rfl, rfl, exists_next (check := fun t => t.out == Descriptor.atReset 0) (by decide +kernel)⟩

theorem meets_FrameHeaderAnswers :
    State.reset.params.Legal ∧ (atOut (frame [] 2#8 .done .none)).out.size.toNat < 3 ∧
    3 ≤ (atOut p1Done).out.size.toNat := by decide

theorem meets_FrameTrailerAnswers :
    (atOut (frame [] 4#8 .done .none)).out.size.toNat < 5 ∧ 5 ≤ (atOut (frame [] 5#8 .done .none)).out.size.toNat ∧
    (atOut (frame [] 5#8 .done .none)).out.size.toNat ≤ State.reset.params.maxPacket := by decide

/-- V-BT-1 and V-BT-2: each band of Classify at its two ends, and the value the spec gives there. -/
theorem meets_ClassifyBands :
    [0, 959, 960, 1599, 1600, 2239, 2240, 2879, 2880, 3519, 3520, 3839, 3840, 4159, 4160].map (classify Config.reference) =
      [(1, 0), (1, 0), (2, 0), (2, 0), (3, 0), (3, 0), (4, 0), (4, 0), (5, 0), (5, 0), (5, 0), (5, 319), (6, 0), (6, 0),
        (7, 0)] := by decide +kernel

theorem meets_ClassifyMonotone : Config.reference.Legal ∧ 3839 ≤ 3840 := by decide

theorem meets_EdgeDelta : waiting.enabled = true ∧ ∃ u, exec (.edge .low 7#32) waiting = .next u ∧ (u.prev == 7#32) = true :=
  ⟨rfl, exists_next (by decide +kernel)⟩

theorem meets_EdgeBeforeSetupIgnored : State.reset.enabled = false := rfl

/-- A head descriptor of each state that is not being decoded. -/
theorem meets_EdgeAtHead (d : Descriptor) :
    (atSlot0 d).enabled = true ∧ (atSlot0 d).slot[(atSlot0 d).head.toNat]? = some d := ⟨rfl, rfl⟩
theorem meets_EdgeAtHead_states :
    f1Done.state = .done ∧ (Descriptor.atReset 0).state = .vacant ∧
    (frame [] 3#8 .waitingAck .none).state = .waitingAck := by decide

/-- Runs of 10 bits and of 9 bits end in a frame being searched for and in one being loaded. -/
theorem endsRun_sof (t : Word) (n jout : Nat) (h : runOf beforeSof t = (n, jout)) :
    EndsRun beforeSof t { Descriptor.atReset 0 with state := .searching } n jout :=
  ⟨by decide, rfl, rfl, .inl rfl, h⟩
theorem endsRun_eod (t : Word) (n jout : Nat) (h : runOf beforeEod t = (n, jout)) :
    EndsRun beforeEod t (frame [(0, 0x0E#8), (1, 0xB2#8)] 2#8 .loading .none) n jout :=
  ⟨by decide, rfl, rfl, .inr rfl, h⟩

theorem meets_LongRunRestartsSearch :
    EndsRun beforeSof 12840#32 { Descriptor.atReset 0 with state := .searching } 10 0 ∧ 9 < 10 :=
  ⟨endsRun_sof _ _ _ (by decide +kernel), by decide⟩
theorem meets_LongRunEndsFrame :
    EndsRun beforeEod 24360#32 (frame [(0, 0x0E#8), (1, 0xB2#8)] 2#8 .loading .none) 10 0 ∧ 9 < 10 :=
  ⟨endsRun_eod _ _ _ (by decide +kernel), by decide⟩

/-- A run of two bits after seven: no eat, and the unit is still one bit short. -/
theorem meets_ShortRunAppends :
    EndsRun beforeEod 19560#32 (frame [(0, 0x0E#8), (1, 0xB2#8)] 2#8 .loading .none) 2 0 ∧ 2 ≤ 9 ∧
    Kept beforeEod 2 2 ∧ beforeEod.atBit.toNat + 2 < 10 :=
  ⟨endsRun_eod _ _ _ (by decide +kernel), by decide, by unfold Kept Eaten; decide, by decide⟩
/-- V-BT-8: five bits from an empty unit are eaten to four; and a run of nine. -/
theorem meets_ShortRunAppends_eaten :
    EndsRun { beforeEod with atBit := 0#5 } 21480#32 (frame [(0, 0x0E#8), (1, 0xB2#8)] 2#8 .loading .none) 5 0 ∧
    Kept { beforeEod with atBit := 0#5 } 5 4 ∧
    (EndsRun { beforeEod with atBit := 0#5 } 24359#32 (frame [(0, 0x0E#8), (1, 0xB2#8)] 2#8 .loading .none) 9 0 ∧
      Kept { beforeEod with atBit := 0#5 } 9 9) :=
  ⟨⟨by decide, rfl, rfl, .inr rfl, by decide +kernel⟩, by unfold Kept Eaten; decide,
    ⟨by decide, rfl, rfl, .inr rfl, by decide +kernel⟩, by unfold Kept Eaten; decide⟩

/-- A unit completes in a search. -/
theorem completes_sof (t : Word) (n k left : Nat) (h : runOf beforeSof t = (n, 0)) (hn : n ≤ 9)
    (hk : Kept beforeSof n k) (hl : 9 + k = left + 10) :
    CompletesUnit beforeSof t { Descriptor.atReset 0 with state := .searching } n 0 k left :=
  ⟨endsRun_sof t n 0 h, hn, hk, by decide, hl⟩
theorem meets_FirstUnit_reverts :
    CompletesUnit beforeSof 7400#32 { Descriptor.atReset 0 with state := .searching } 1 0 1 0 ∧
    unitOf beforeSof .high 1 0 ≠ 0x03D#10 :=
  ⟨completes_sof _ _ _ _ (by decide +kernel) (by decide) (by unfold Kept Eaten; decide) (by decide), by decide +kernel⟩
theorem meets_FirstUnit_starts :
    CompletesUnit beforeSof 8040#32 { Descriptor.atReset 0 with state := .searching } 2 0 2 1 ∧
    unitOf beforeSof .low 2 1 = 0x03D#10 :=
  ⟨completes_sof _ _ _ _ (by decide +kernel) (by decide) (by unfold Kept Eaten; decide) (by decide), by decide +kernel⟩

/-- A unit completes while loading, in a buffer of the reference capacity or of three bytes. -/
def tight : State := { beforeEod with params := { Config.reference with maxPacket := 5 },
                                      slot := [frame [(0, 0x0E#8), (1, 0xB2#8)] 4#8 .loading .none] }
theorem completes_eod :
    CompletesUnit beforeEod 20200#32 (frame [(0, 0x0E#8), (1, 0xB2#8)] 2#8 .loading .none) 3 0 3 0 :=
  ⟨endsRun_eod _ _ _ (by decide +kernel), by decide, by unfold Kept Eaten; decide, by decide, by decide⟩
theorem completes_tight :
    CompletesUnit tight 20200#32 (frame [(0, 0x0E#8), (1, 0xB2#8)] 4#8 .loading .none) 3 0 3 0 :=
  ⟨⟨by decide, rfl, rfl, .inr rfl, by decide +kernel⟩, by decide, by unfold Kept Eaten; decide, by decide, by decide⟩
theorem meets_DataUnitAppendsByte :
    (2#8).toNat + 1 < beforeEod.params.maxPacket ∧ (unitOf beforeEod .low 3 0).extractLsb' 0 2 ≠ 0b00#2 := by decide +kernel
theorem meets_EodOpensAckWindow :
    (2#8).toNat < beforeEod.params.maxPacket ∧ (unitOf beforeEod .high 3 0).extractLsb' 0 2 = 0b00#2 ∧
    (4#8).toNat < tight.params.maxPacket ∧ (unitOf tight .high 3 0).extractLsb' 0 2 = 0b00#2 := by decide +kernel
theorem meets_FullBufferEndsFrame :
    (4#8).toNat + 1 = tight.params.maxPacket ∧ (unitOf tight .low 3 0).extractLsb' 0 2 ≠ 0b00#2 := by decide +kernel

theorem meets_AckTimeoutCompletes :
    State.reset.timerArmed = false ∧
    (waiting.timerArmed = true ∧ (∃ d, waiting.slot[waiting.head.toNat]? = some d ∧ d.state = .waitingAck)) ∧
    (({ State.reset with timerArmed := true } : State).timerArmed = true ∧
      ∃ d, State.reset.slot[State.reset.head.toNat]? = some d ∧ d.state ≠ .waitingAck) :=
  ⟨rfl, ⟨rfl, _, rfl, rfl⟩, rfl, _, rfl, by decide⟩

/-! ### Witnesses of the invariant -/

theorem atReset_poolOk (p : Config.Params) (k : Nat) (hk : k < 128) : (Descriptor.atReset k).PoolOk p k :=
  ⟨⟨Nat.zero_le _, rfl, rfl, fun h => absurd h (Nat.not_succ_le_zero 0)⟩, ⟨rfl, rfl, rfl⟩, by simp [Descriptor.atReset]; omega⟩

/-- OUT as after reset. -/
theorem outReset_ok (p : Config.Params) (h : p.Legal) : (Descriptor.atReset 0).OutOk p :=
  have h0 := atReset_poolOk p 0 (by decide)
  ⟨h0.buffer, h0.phase, .inl rfl, by rw [h0.self]; exact h.1.1.1⟩

/-- A block whose only used slot is slot 0 meets the invariant. -/
theorem inv_of_slot0 {s : State} {d : Descriptor} {others : List Descriptor} (hl : s.params.Legal)
    (hs : s.slot = d :: others) (hq : others.length + 1 = s.params.q)
    (ho : ∀ k x, others[k]? = some x → x = Descriptor.atReset (k + 1)) (hh : s.head = 0#7) (ht : s.tail = 0#7)
    (hout : s.out.OutOk s.params) (ha : s.atBit.toNat ≤ 9) (hj : s.jit = 0#32)
    (hd : d.PoolOk s.params 0) (hw : d.state = .waitingAck → s.timerArmed = true) : s.Inv := by
  have hq1 := hl.1.1
  have slots : ∀ k x, s.slot[k]? = some x → (k = 0 ∧ x = d) ∨ (0 < k ∧ k < s.params.q ∧ x = Descriptor.atReset k) := by
    intro k x hx
    rw [hs] at hx
    cases k with
    | zero => exact .inl ⟨rfl, (Option.some.inj hx).symm⟩
    | succ k =>
      have hk : k < others.length := Nat.lt_of_succ_lt_succ (List.getElem?_eq_some_iff.mp hx).1
      exact .inr ⟨by omega, by omega, ho k x hx⟩
  refine ⟨hl, by rw [hs]; exact hq, by rw [hh]; exact hq1.1, by rw [ht]; exact hq1.1, ?_, ?_, ?_, ha, by rw [hj]; exact Nat.zero_le _, ?_⟩
  · intro k x hx
    rcases slots k x hx with ⟨rfl, rfl⟩ | ⟨_, hk, rfl⟩
    · exact hd
    · exact atReset_poolOk _ _ (by omega)
  · intro k x hx hne
    rcases slots k x hx with ⟨rfl, _⟩ | ⟨_, _, rfl⟩
    · rw [hh] at hne; exact absurd rfl hne
    · exact .inl rfl
  · exact hout
  · intro x hx hxw
    rw [State.headSlot?, hh] at hx
    rcases slots _ x hx with ⟨_, rfl⟩ | ⟨hk, _⟩
    · exact hw hxw
    · exact absurd hk (by decide)

theorem others_atReset : ∀ (k : Nat) (x : Descriptor),
    [Descriptor.atReset 1, Descriptor.atReset 2, Descriptor.atReset 3][k]? = some x → x = Descriptor.atReset (k + 1)
  | 0, _, h => (Option.some.inj h).symm
  | 1, _, h => (Option.some.inj h).symm
  | 2, _, h => (Option.some.inj h).symm
  | _ + 3, _, h => absurd h (by simp)

theorem beforeEod_inv : beforeEod.Inv :=
  inv_of_slot0 (by decide) rfl rfl others_atReset rfl rfl (outReset_ok _ (by decide)) (by decide) rfl
    ⟨⟨by decide, by decide, by decide, fun _ => rfl⟩, ⟨⟨by decide, rfl, .inl rfl⟩, by decide⟩, rfl⟩ (fun h => absurd h (by decide))

theorem f1Bad_inv : (atSlot0 f1Bad).Inv :=
  inv_of_slot0 (by decide) rfl rfl others_atReset rfl rfl (outReset_ok _ (by decide)) (by decide) rfl
    ⟨⟨by decide, by decide +kernel, by decide +kernel, fun _ => by decide +kernel⟩, ⟨by decide, .inl (.inl rfl)⟩, rfl⟩
    (fun h => absurd h (by decide))

theorem fullOne_inv : fullOne.Inv :=
  inv_of_slot0 (others := []) (by decide) rfl rfl (fun k x h => absurd h (by simp)) rfl rfl (outReset_ok _ (by decide)) (by decide) rfl
    ⟨⟨by decide, by decide, by decide, fun _ => rfl⟩, ⟨by decide, .inl (.inl rfl)⟩, rfl⟩ (fun h => absurd h (by decide))

/-- OUT never filled, and OUT holding a frame. -/
theorem meets_OutSizeAndSeqnoAnswer :
    (beforeEod.Inv ∧ beforeEod.out.state ≠ .done) ∧ ({ beforeEod with out := p1Done } : State).Inv ∧ p1Done.state = .done :=
  ⟨⟨beforeEod_inv, by decide⟩,
    ⟨beforeEod_inv.legal, beforeEod_inv.poolSize, beforeEod_inv.headInPool, beforeEod_inv.tailInPool, beforeEod_inv.poolOk,
      beforeEod_inv.onlyHeadActive,
      ⟨⟨by decide, by decide, by decide, fun _ => rfl⟩, ⟨by decide, .inl (.inl rfl)⟩, .inr rfl, by decide⟩,
      beforeEod_inv.atBitSmall, beforeEod_inv.jitterSmall, beforeEod_inv.armedWhileWaiting⟩, rfl⟩

theorem beforeEod_inOrder : beforeEod.InOrder := by
  refine ⟨0, ⟨Nat.zero_le _, rfl, fun j d hj h => ?_⟩, ⟨fun j d hj => absurd hj (by omega), fun h => absurd h (by decide),
    fun d h _ => ?_, fun d h hc => ?_⟩⟩
  · have hj4 : j < 4 := hj
    rcases (by omega : j = 0 ∨ j = 1 ∨ j = 2 ∨ j = 3) with rfl | rfl | rfl | rfl <;>
      (obtain rfl := Option.some.inj h; decide)
  · obtain rfl := Option.some.inj h
    exact ⟨rfl, rfl⟩
  · obtain rfl := Option.some.inj h
    exact absurd hc (by decide)

theorem fullOne_holds : fullOne.Holds fullOne.params.q :=
  ⟨Nat.le_refl _, rfl, fun j d hj h => by
    obtain rfl : j = 0 := Nat.lt_one_iff.mp hj
    obtain rfl := Option.some.inj h
    decide⟩

theorem meets_ResetMeetsInvariant : Config.reference.Legal := by decide

theorem presenting_inv {s : State} (p : Presentation) (h : s.Inv) : (presenting p s).Inv :=
  ⟨h.legal, h.poolSize, h.headInPool, h.tailInPool, h.poolOk, h.onlyHeadActive, h.outOk, h.atBitSmall, h.jitterSmall,
    h.armedWhileWaiting⟩

theorem presenting_inOrder {s : State} (p : Presentation) (h : s.InOrder) : (presenting p s).InOrder :=
  let ⟨held, hh, hn⟩ := h
  ⟨held, ⟨hh.fits, hh.headFollows, hh.doneExactly⟩, ⟨hn.queued, hn.drained, hn.confirmed, hn.unconfirmed⟩⟩

theorem meets_StepKeepsInvariant :
    (presenting (.event 0x500004EE8#36) beforeEod).Inv ∧ (presenting (.event 0x500004EE8#36) beforeEod).InOrder ∧
    ∃ t, step (presenting (.event 0x500004EE8#36) beforeEod) = .next t ∧ t.timerArmed = true :=
  ⟨presenting_inv _ beforeEod_inv, presenting_inOrder _ beforeEod_inOrder,
    exists_next (check := fun t => t.timerArmed) (by decide +kernel)⟩

theorem meets_EveryPresentationCompletes :
    ((presenting (.event 0x500004EE8#36) beforeEod).Inv ∧ decode (.event 0x500004EE8#36) = .instr (.edge .high 20200#32)) ∧
    ((presenting (.event 0x200000000#36) beforeEod).Inv ∧ decode (.event 0x200000000#36) = .noEvent .reservedBit) :=
  ⟨⟨presenting_inv _ beforeEod_inv, by decide +kernel⟩, presenting_inv _ beforeEod_inv, by decide +kernel⟩

theorem meets_FullQueueDropsFrame : fullOne.Inv ∧ fullOne.Holds fullOne.params.q ∧ fullOne.enabled = true :=
  ⟨fullOne_inv, fullOne_holds, rfl⟩

theorem meets_EdgeStoresOnlyNextByte :
    beforeEod.Inv ∧ ∃ t, exec (.edge .high 20200#32) beforeEod = .next t ∧
      ((t.slot[0]?.map fun d => d.bytes.read 2) == some 0x34#8) = true :=
  ⟨beforeEod_inv, exists_next (by decide +kernel)⟩

theorem meets_RepairTwiceCountsOnce :
    (atSlot0 f1Bad).Inv ∧ (0x00030203#32).getLsbD 1 = true ∧ ∃ t, exec (.crcRepair 0#8) (atSlot0 f1Bad) = .next t ∧
      (t.outputs.rsp == some ⟨.ok, 0x00030203#32⟩) = true :=
  ⟨f1Bad_inv, by decide, exists_next (by decide +kernel)⟩

theorem meets_DoneSlotsAreTheConsumers :
    (atSlot0 f1Bad).slot[0]? = some f1Bad ∧ f1Bad.state = .done ∧
    (∃ t, exec (.edge .low 9#32) (atSlot0 f1Bad) = .next t ∧ t.overrun = true) ∧
    ∃ t, exec (.crcRepair 0#8) (atSlot0 f1Bad) = .next t ∧ (t.nRepaired == 1#32) = true :=
  ⟨rfl, rfl, exists_next (check := fun t => t.overrun) (by decide +kernel), exists_next (by decide +kernel)⟩

/-- A raise of each status (RaiseChangesNothing, StatusCauses). -/
theorem meets_RaiseChangesNothing :
    (∃ t, exec (.readReg 6#8) waiting = .next t ∧ (t.responsePort == some (0b01#2, 0#32)) = true) ∧
    ∃ t, exec (.crcRepair 3#8) waiting = .next t ∧ (t.responsePort == some (0b10#2, 0#32)) = true :=
  ⟨exists_next (by decide +kernel), exists_next (by decide +kernel)⟩

/-- A command and an event that answer a next state (OneResponsePerCommand, ConsumerFrame, ProducerFrame). -/
theorem meets_OneResponsePerCommand :
    (Instr.receive.isCommand = true ∧ ∃ t, exec .receive (atSlot0 f1Done) = .next t ∧ (t.tail == 1#7) = true) ∧
    (Instr.ackTimeout.isCommand = false ∧ ∃ t, exec .ackTimeout waiting = .next t ∧ (t.count == 1#32) = true) :=
  ⟨⟨rfl, exists_next (by decide +kernel)⟩, rfl, exists_next (by decide +kernel)⟩

theorem meets_ReadOnlyCommands :
    ReadsOnly (.crcVerify 0#8) ∧ ∃ t, exec (.crcVerify 0#8) (atSlot0 f1Done) = .next t ∧
      (t.outputs.rsp == some ⟨.ok, 1#32⟩) = true :=
  ⟨trivial, exists_next (by decide +kernel)⟩

theorem meets_ConsumerFrame :
    (atSlot0 f1Done).slot[1]? = some (Descriptor.atReset 1) ∧ (Descriptor.atReset 1).state ≠ .done := by decide +kernel

/-- An acknowledgement moves HEAD and COUNT, and is no RESET (IndicesMoveForward). -/
theorem meets_IndicesMoveForward :
    Instr.edge .low 9#32 ≠ .reset ∧ ∃ t, exec (.edge .low 9#32) waiting = .next t ∧
      (t.head == 1#7 && t.count == 1#32) = true :=
  ⟨by decide, exists_next (check := fun t => t.head == 1#7 && t.count == 1#32) (by decide +kernel)⟩

theorem meets_RepairedAtMostCorrupt :
    (atSlot0 f1Bad).nRepaired.toNat ≤ (atSlot0 f1Bad).nCorrupt.toNat ∧ (atSlot0 f1Bad).nCorrupt.toNat + 1 < 2 ^ 32 ∧
    ∃ t, exec (.crcRepair 0#8) (atSlot0 f1Bad) = .next t ∧ (t.nCorrupt == 1#32) = true :=
  ⟨by decide, by decide, exists_next (by decide +kernel)⟩

theorem meets_ParametersAreFixed : ∃ t, step (presenting (.command 0x0200#16) waiting) = .next t ∧ (t.inputs == []) = true :=
  exists_next (by decide +kernel)

end Sys2Proof.Tests
end

/-! PROOFS. The frame of a step outside the block's own registers: the parameters and the presentations to come
(O58). -/

namespace Sys2Proof.Machine

/-- `t` has the parameters and the presentations to come of `s`. -/
structure SameSurroundings (s t : State) : Prop where
  params : t.params = s.params
  inputs : t.inputs = s.inputs

/-- The registers a command can write are neither. -/
theorem CommandWrites.sameSurroundings {s u : State} {i : Instr} {st : Status} {v : Word}
    (h : CommandWrites s i st v u) : SameSurroundings s u := by
  cases h with
  | nothing | attach | drain => exact ⟨rfl, rfl⟩
  | fixed | unfixed => exact ⟨by simp, by simp⟩

/-- The processing of an edge writes neither, recording the edge included. -/
theorem exec_edge_sameSurroundings {L : Level} {c : Word} {s t : State} (h : exec (.edge L c) s = .next t) :
    SameSurroundings s t := by
  obtain ⟨-, rfl⟩ | ⟨-, d, -, -, w⟩ := execEdge_cases h
  · exact ⟨rfl, rfl⟩
  · exact ⟨w.params, w.inputs⟩

theorem exec_ackTimeout_sameSurroundings {s t : State} (h : exec .ackTimeout s = .next t) :
    SameSurroundings s t := by
  obtain ⟨-, rfl⟩ | ⟨-, d, -, rfl⟩ := execAckTimeout_cases h
  · exact ⟨rfl, rfl⟩
  · split <;> exact ⟨rfl, rfl⟩

theorem exec_reset_sameSurroundings {s t : State} (h : exec .reset s = .next t) : SameSurroundings s t := by
  cases h
  exact ⟨rfl, rfl⟩

/-- No instruction writes a parameter or a presentation to come: a command by `CommandWrites`, and the three
events by their own cases. -/
theorem exec_sameSurroundings {i : Instr} {s t : State} (h : exec i s = .next t) : SameSurroundings s t := by
  by_cases hc : i.isCommand = true
  · obtain ⟨st, v, u, w, rfl⟩ := exec_command hc h
    exact ⟨w.sameSurroundings.params, w.sameSurroundings.inputs⟩
  · cases i with
    | edge L c => exact exec_edge_sameSurroundings h
    | ackTimeout => exact exec_ackTimeout_sameSurroundings h
    | reset => exact exec_reset_sameSurroundings h
    | _ => exact absurd rfl hc

end Sys2Proof.Machine

namespace Sys2Proof

open Machine

/-- Settles O58: an idle step keeps an empty list, and any other is an `exec` or an answer over the state with its
first presentation taken off (`step_next`), which writes neither field. -/
theorem parametersAreFixed : Obligations.ParametersAreFixed := by
  intro s t h
  obtain ⟨hi, rfl⟩ | ⟨p, rest, hi, ⟨i, -, he⟩ | ⟨-, rfl⟩⟩ := step_next h
  · exact ⟨rfl, by simp [hi]⟩
  · have k := exec_sameSurroundings he
    exact ⟨k.params, by simp [k.inputs, hi]⟩
  · exact ⟨rfl, by simp [answered, hi]⟩

end Sys2Proof

/-! PROOFS. The state after reset: it meets the invariant and its empty queue is in order (O43). -/

namespace Sys2Proof.Machine

/-! ### The state after reset -/

/-- The pool after reset holds the reset descriptor at every index of the pool (`10_state.md` R36). -/
theorem resetWith_slot {p : Config.Params} {k : Nat} {d : Descriptor}
    (h : (State.resetWith p).slot[k]? = some d) : k < p.q ∧ d = Descriptor.atReset k := by
  have h' : ((List.range p.q).map Descriptor.atReset)[k]? = some d := h
  obtain ⟨hk, he⟩ := List.getElem?_eq_some_iff.mp h'
  exact ⟨by simpa using hk, by simpa using he.symm⟩

theorem atReset_bufferOk (p : Config.Params) (k : Nat) : (Descriptor.atReset k).BufferOk p where
  sizeFits := Nat.zero_le _
  canonical := rfl
  inside := rfl
  startsWithSof := fun h => absurd h (by simp [Descriptor.atReset])

theorem atReset_blank (k : Nat) : (Descriptor.atReset k).Blank := ⟨rfl, rfl, rfl⟩

/-- The reset descriptor's own index is the one it is made for: the pool's indices fit the 7-bit field. -/
theorem atReset_self {p : Config.Params} (hp : p.Legal) {k : Nat} (hk : k < p.q) :
    (Descriptor.atReset k).slot.toNat = k := by
  have hq : p.q ≤ 128 := hp.1.1.2
  simp only [Descriptor.atReset, BitVec.toNat_ofNat]
  omega

theorem resetWith_inv {p : Config.Params} (hp : p.Legal) : (State.resetWith p).Inv where
  legal := hp
  poolSize := by simp [State.resetWith]
  headInPool := hp.1.1.1
  tailInPool := hp.1.1.1
  poolOk := fun k d hd => by
    obtain ⟨hk, rfl⟩ := resetWith_slot hd
    exact ⟨atReset_bufferOk p k, atReset_blank k, atReset_self hp hk⟩
  onlyHeadActive := fun k d hd _ => by
    obtain ⟨-, rfl⟩ := resetWith_slot hd
    exact .inl rfl
  outOk := ⟨atReset_bufferOk p 0, atReset_blank 0, .inl rfl, hp.1.1.1⟩
  atBitSmall := Nat.zero_le _
  jitterSmall := Nat.zero_le _
  armedWhileWaiting := fun d hd hw => by
    obtain ⟨-, rfl⟩ := resetWith_slot hd
    cases hw

/-- After reset the queue holds no frame. -/
theorem resetWith_holds_none (p : Config.Params) : (State.resetWith p).Holds 0 where
  fits := Nat.zero_le _
  headFollows := (Nat.zero_mod p.q).symm
  doneExactly := fun j d _ hd => by
    obtain ⟨-, rfl⟩ := resetWith_slot hd
    exact iff_of_false (by simp [Descriptor.atReset]) (Nat.not_lt_zero j)

/-- After reset no frame is queued, drained or confirmed, and SEQ is COUNT. -/
theorem resetWith_numbered_none (p : Config.Params) : (State.resetWith p).Numbered 0 where
  queued := fun j _ hj => absurd hj (Nat.not_lt_zero j)
  drained := fun h => by cases h
  confirmed := fun d hd hc => by
    obtain ⟨-, rfl⟩ := resetWith_slot hd
    cases hc
  unconfirmed := fun _ _ _ => rfl

end Sys2Proof.Machine

namespace Sys2Proof

open Machine

/-- Settles O43: every pool descriptor after reset is the reset descriptor of its index (`resetWith_slot`), and the
queue holds no frame. -/
theorem resetMeetsInvariant : Obligations.ResetMeetsInvariant :=
  ⟨fun p hp => ⟨resetWith_inv hp, 0, resetWith_holds_none p, resetWith_numbered_none p⟩, rfl, by decide⟩

end Sys2Proof

/-! PROOFS. What every instruction leaves of a DONE slot (O48), and how HEAD, TAIL, COUNT and OVERRUN move (O56). -/

namespace Sys2Proof.Machine

/-! ### DONE slots -/

/-- An edge leaves every DONE slot: it writes the head slot alone, and that one not while it is DONE. -/
theorem EdgeWrites.keepsDone {x t : State} {d : Descriptor} (w : EdgeWrites x d t)
    (hd : x.slot[x.head.toNat]? = some d) {k : Nat} {e : Descriptor} (he : x.slot[k]? = some e)
    (hdone : e.state = .done) : t.slot[k]? = some e := by
  obtain ⟨f, hf, hid⟩ := w.slot
  rw [hf, getElem?_modify_slot]
  split
  · next hk =>
    subst hk
    obtain rfl : d = e := Option.some.inj (hd.symm.trans he)
    simp [he, hid hdone]
  · exact he

theorem exec_edge_keepsDone {L : Level} {c : Word} {s t : State} (h : exec (.edge L c) s = .next t) {k : Nat}
    {e : Descriptor} (he : s.slot[k]? = some e) (hdone : e.state = .done) : t.slot[k]? = some e := by
  obtain ⟨-, rfl⟩ | ⟨-, d, hd, -, w⟩ := execEdge_cases h
  · exact he
  · exact w.keepsDone hd he hdone

/-- A timeout leaves every DONE slot: it completes the head slot alone, and only while that one is WAITING_ACK. -/
theorem exec_ackTimeout_keepsDone {s t : State} (h : exec .ackTimeout s = .next t) {k : Nat} {e : Descriptor}
    (he : s.slot[k]? = some e) (hdone : e.state = .done) : t.slot[k]? = some e := by
  obtain ⟨-, rfl⟩ | ⟨-, d, hd, rfl⟩ := execAckTimeout_cases h
  · exact he
  · split
    · next hw =>
      have hk : s.head.toNat ≠ k := by
        rintro rfl
        obtain rfl : d = e := Option.some.inj (hd.symm.trans he)
        cases hw.symm.trans hdone
      simpa [getElem?_modify_slot, hk] using he
    · exact he

/-- The only writes a command other than RECEIVE makes to a slot are a repair's writes of its bytes. -/
theorem CommandWrites.keepsAllButBytes {s u : State} {i : Instr} {st : Status} {v : Word}
    (w : CommandWrites s i st v u) (hi : i ≠ .receive) {k : Nat} {e : Descriptor} (he : s.slot[k]? = some e) :
    ∃ e', u.slot[k]? = some e' ∧ e' = { e with bytes := e'.bytes } := by
  have buffer : ∀ (x : State) (ref : BufferRef) (m : Memory), x.slot[k]? = some e →
      ∃ e', (x.setBuffer ref m).slot[k]? = some e' ∧ e' = { e with bytes := e'.bytes } := by
    intro x ref m hx
    obtain ⟨pool, copy, hset, -, hpool⟩ := setBuffer_writes x ref m
    obtain ⟨e', he', hb, -⟩ := hpool k e hx
    exact ⟨e', by rw [hset]; exact he', hb⟩
  cases w with
  | nothing | attach => exact ⟨e, he, rfl⟩
  | drain => exact absurd rfl hi
  | fixed | unfixed => exact buffer _ _ _ he

/-! ### The indices -/

/-- HEAD and COUNT both stay, or both advance by one (`10_state.md` R24, R27). -/
def HeadMoves (s t : State) : Prop :=
  (t.head = s.head ∧ t.count = s.count) ∨ (t.head = nextIndex s.params s.head ∧ t.count = s.count + 1#32)

/-- TAIL stays, and a latched OVERRUN with it (`10_state.md` R25, R26). -/
def TailStays (s t : State) : Prop := t.tail = s.tail ∧ (s.overrun = true → t.overrun = true)

theorem exec_edge_moves {L : Level} {c : Word} {s t : State} (h : exec (.edge L c) s = .next t) :
    HeadMoves s t ∧ TailStays s t := by
  obtain ⟨-, rfl⟩ | ⟨-, d, -, -, w⟩ := execEdge_cases h
  · exact ⟨.inl ⟨rfl, rfl⟩, rfl, id⟩
  · exact ⟨w.headCount, w.tail, w.overrun⟩

theorem exec_ackTimeout_moves {s t : State} (h : exec .ackTimeout s = .next t) :
    HeadMoves s t ∧ TailStays s t := by
  obtain ⟨-, rfl⟩ | ⟨-, d, -, rfl⟩ := execAckTimeout_cases h
  · exact ⟨.inl ⟨rfl, rfl⟩, rfl, id⟩
  · split
    · exact ⟨.inr ⟨rfl, rfl⟩, rfl, id⟩
    · exact ⟨.inl ⟨rfl, rfl⟩, rfl, id⟩

/-- No command moves HEAD. -/
theorem CommandWrites.headStays {s u : State} {i : Instr} {st : Status} {v : Word}
    (w : CommandWrites s i st v u) : u.head = s.head ∧ u.count = s.count := by
  cases w with
  | nothing | attach | drain => exact ⟨rfl, rfl⟩
  | fixed | unfixed => exact ⟨by simp, by simp⟩

/-- A command leaves TAIL and OVERRUN, or is a RECEIVE that drains the tail frame. -/
theorem CommandWrites.tail_cases {s u : State} {i : Instr} {st : Status} {v : Word}
    (w : CommandWrites s i st v u) :
    TailStays s u ∨ (i = .receive ∧ st = .ok ∧ v = receiveWord s.overrun ∧ ∃ d, u = drainTail d s) := by
  cases w with
  | nothing | attach => exact .inl ⟨rfl, id⟩
  | drain d => exact .inr ⟨rfl, rfl, rfl, d, rfl⟩
  | fixed | unfixed => exact .inl ⟨by simp, by simp⟩

/-- RECEIVE's response has GOT in bit 0. -/
theorem receiveWord_got (b : Bool) : (receiveWord b).getLsbD 0 = true := by cases b <;> rfl

/-- RECEIVE's response has the overrun flag in bit 1. -/
theorem receiveWord_overrun (b : Bool) : (receiveWord b).getLsbD 1 = b := by cases b <;> rfl

end Sys2Proof.Machine

namespace Sys2Proof

open Machine

/-- Settles O48: an edge and a timeout write the head slot alone and not while it is DONE; of the commands, only
RECEIVE writes more of a slot than its bytes. -/
theorem doneSlotsAreTheConsumers : Obligations.DoneSlotsAreTheConsumers := by
  intro s t i k d h hd hdone
  by_cases hc : i.isCommand = true
  · obtain ⟨st, v, u, w, rfl⟩ := exec_command hc h
    refine ⟨?_, fun hrecv _ => w.keepsAllButBytes hrecv hd⟩
    rintro (⟨L, c, rfl⟩ | rfl) <;> cases hc
  · cases i with
    | edge L c =>
      have hk := exec_edge_keepsDone h hd hdone
      exact ⟨fun _ => hk, fun _ _ => ⟨d, hk, rfl⟩⟩
    | ackTimeout =>
      have hk := exec_ackTimeout_keepsDone h hd hdone
      exact ⟨fun _ => hk, fun _ _ => ⟨d, hk, rfl⟩⟩
    | reset => exact ⟨fun hi => by simp at hi, fun _ hr => absurd rfl hr⟩
    | _ => exact absurd rfl hc

/-- Settles O56: an event moves HEAD and COUNT together and leaves TAIL; a command leaves HEAD, and moves TAIL only
as a RECEIVE that drains (`CommandWrites.tail_cases`), whose response reports OVERRUN. -/
theorem indicesMoveForward : Obligations.IndicesMoveForward := by
  intro i s t h hr
  by_cases hc : i.isCommand = true
  · obtain ⟨st, v, u, w, rfl⟩ := exec_command hc h
    refine ⟨.inl w.headStays, ?_⟩
    obtain hstay | ⟨hi, rfl, rfl, d, rfl⟩ := w.tail_cases
    · exact .inl hstay
    · exact .inr ⟨hi, rfl, rfl, _, rfl, receiveWord_got _, receiveWord_overrun _⟩
  · cases i with
    | edge L c => exact (exec_edge_moves h).imp_right .inl
    | ackTimeout => exact (exec_ackTimeout_moves h).imp_right .inl
    | reset => exact absurd rfl hr
    | _ => exact absurd rfl hc

end Sys2Proof

/-! PROOFS. Every step keeps the invariant (O44): what each write of a descriptor keeps, what each write of the pool
and of the indices keeps, and from these every command, every edge and the timeout. -/

namespace Sys2Proof.Machine

/-! ### The fields that go with a decode state -/

section Phase

variable {p : Config.Params} {d : Descriptor}

theorem Descriptor.phase_searching (h : d.state = .searching) : d.Phase p ↔ d.Blank := by
  unfold Descriptor.Phase; rw [h]

theorem Descriptor.phase_loading (h : d.state = .loading) :
    d.Phase p ↔ d.Live p ∧ d.size.toNat < p.maxPacket := by
  unfold Descriptor.Phase; rw [h]

theorem Descriptor.phase_waitingAck (h : d.state = .waitingAck) : d.Phase p ↔ d.Live p := by
  unfold Descriptor.Phase; rw [h]

/-- A confirmed frame can complete as it is, acknowledged or not. -/
theorem Descriptor.Live.completed (h : d.Live p) (a : Ack) :
    ({ d with state := .done, ack := a } : Descriptor).Completed p := by
  obtain ⟨hsize, -, hres⟩ := h
  exact ⟨hsize, .inl hres⟩

end Phase

/-! ### A descriptor's buffer -/

section Buffer

variable {p : Config.Params} {d e : Descriptor}

/-- The rules of the buffer speak of the bytes and the length alone. -/
theorem Descriptor.BufferOk.congr (h : d.BufferOk p) (hb : e.bytes = d.bytes) (hs : e.size = d.size) :
    e.BufferOk p where
  sizeFits := hs ▸ h.sizeFits
  canonical := hb ▸ h.canonical
  inside := hb ▸ h.inside
  startsWithSof := hb ▸ hs ▸ h.startsWithSof

/-- An empty frame asks nothing of the bytes but their canonical form. -/
theorem Descriptor.BufferOk.emptied (h : d.BufferOk p) (hb : e.bytes = d.bytes) (hs : e.size = 0#8) :
    e.BufferOk p where
  sizeFits := by simp [hs]
  canonical := hb ▸ h.canonical
  inside := hb ▸ h.inside
  startsWithSof := fun h1 => absurd h1 (by simp [hs])

/-- A byte stored inside the buffer, the length set to one that fits. -/
theorem Descriptor.BufferOk.stored (h : d.BufferOk p) {k : Nat} {v : Byte} (hk : k < p.maxPacket)
    (hb : e.bytes = d.bytes.write k v) (hs : e.size.toNat ≤ p.maxPacket)
    (hsof : 1 ≤ e.size.toNat → (if 0 = k then v else d.bytes.read 0) = sofByte) : e.BufferOk p where
  sizeFits := hs
  canonical := hb ▸ Memory.wf_write h.canonical
  inside := hb ▸ Memory.within_write h.inside hk
  startsWithSof := fun h1 => by rw [hb, Memory.read_write h.canonical, hsof h1]

/-- A repair keeps the buffer: it stores a byte below the length, and not byte 0, which no flip that makes the CRC
verify changes (`40_crc.md` R123, R126). -/
theorem Descriptor.BufferOk.repaired (h : d.BufferOk p) (hbad : crcVerify d.bytes d.size.toNat = false)
    {kept : Option (Nat × Nat)} {m : Memory}
    (hs : repairSearch d.size.toNat (repairOrder d.size.toNat) d.bytes = (kept, m)) :
    ({ d with bytes := m } : Descriptor).BufferOk p := by
  obtain hn | ⟨⟨i, j⟩, hf, hv, hk⟩ :=
    repairSearch_cases (n := d.size.toNat) h.canonical (repairOrder d.size.toNat)
  · obtain ⟨-, rfl⟩ := Prod.mk.inj (hn.symm.trans hs)
    exact h
  · obtain ⟨-, rfl⟩ := Prod.mk.inj (hk.symm.trans hs)
    have hi : i < d.size.toNat := (mem_repairOrder.mp hf).1
    have hi0 : 0 ≠ i := by
      rintro rfl
      rw [crcVerify_write_zero h.canonical, hbad] at hv
      cases hv
    refine h.stored (Nat.lt_of_lt_of_le hi h.sizeFits) rfl h.sizeFits fun h1 => ?_
    rw [if_neg hi0]
    exact h.startsWithSof h1

end Buffer

/-! ### The head slot's writes -/

section HeadWrites

variable {p : Config.Params} {k : Nat} {d : Descriptor}

/-- A frame start (`42_frame_fsm.md` R163). -/
theorem Descriptor.PoolOk.started (h : d.PoolOk p k) : d.started.PoolOk p k :=
  ⟨h.buffer.emptied rfl rfl, ⟨rfl, rfl, rfl⟩, h.self⟩

/-- RECEIVE frees the slot (`43_queue.md` R201). -/
theorem Descriptor.PoolOk.freed (h : d.PoolOk p k) : d.freed.PoolOk p k :=
  ⟨h.buffer.emptied rfl rfl, ⟨rfl, rfl, rfl⟩, h.self⟩

/-- The search restarts (`42_frame_fsm.md` R166). -/
theorem Descriptor.PoolOk.restarted (h : d.PoolOk p k) (hs : d.state = .searching) :
    ({ d with size := 0#8 } : Descriptor).PoolOk p k := by
  obtain ⟨-, hack, hres⟩ := (Descriptor.phase_searching hs).mp h.phase
  exact ⟨h.buffer.emptied rfl rfl,
    (Descriptor.phase_searching (d := { d with size := 0#8 }) hs).mpr ⟨rfl, hack, hres⟩, h.self⟩

/-- A false start (`42_frame_fsm.md` R169). -/
theorem Descriptor.PoolOk.abandoned (h : d.PoolOk p k) (hs : d.state = .searching) :
    ({ d with state := .vacant } : Descriptor).PoolOk p k :=
  ⟨h.buffer.congr rfl rfl, (Descriptor.phase_searching hs).mp h.phase, h.self⟩

/-- The SOF unit unpacks to the SOF byte (`30_encoding.md` R97). -/
theorem unpack_sofUnit : unpack sofUnit = sofByte := by decide

/-- The SOF match (`42_frame_fsm.md` R169). -/
theorem Descriptor.PoolOk.confirmed (hp : p.Legal) (h : d.PoolOk p k) (hs : d.state = .searching) (n : Word) :
    ({ d with bytes := d.bytes.write 0 (unpack sofUnit), size := 1#8, seqNo := n, state := .loading } :
      Descriptor).PoolOk p k := by
  have hcap : 5 ≤ p.maxPacket := hp.1.2.1
  have hone : (1#8).toNat = 1 := rfl
  obtain ⟨-, hack, hres⟩ := (Descriptor.phase_searching hs).mp h.phase
  refine ⟨h.buffer.stored (by omega) rfl (by simp only [hone]; omega) fun _ => ?_, ?_, h.self⟩
  · simp [unpack_sofUnit]
  · exact ⟨⟨le_refl 1, hack, .inl hres⟩, by simp only [hone]; omega⟩

/-- The head frame completed by an acknowledgement or by the timeout (`42_frame_fsm.md` R164, R176). -/
theorem Descriptor.PoolOk.ended (h : d.PoolOk p k) (hs : d.state = .waitingAck) (a : Ack) :
    ({ d with state := .done, ack := a } : Descriptor).PoolOk p k :=
  ⟨h.buffer.congr rfl rfl, ((Descriptor.phase_waitingAck hs).mp h.phase).completed a, h.self⟩

/-- A frame ended by an over-long run (`42_frame_fsm.md` R165). -/
theorem Descriptor.PoolOk.overlong (h : d.PoolOk p k) (hs : d.state = .loading) :
    ({ d with state := .done, result := .errorNbits } : Descriptor).PoolOk p k := by
  obtain ⟨⟨hsize, hack, -⟩, -⟩ := (Descriptor.phase_loading hs).mp h.phase
  exact ⟨h.buffer.congr rfl rfl, ⟨hsize, .inr (.inl ⟨rfl, hack⟩)⟩, h.self⟩

/-! The data unit: `grown` is what every branch of `OnDataUnit` has written before `afterAppend`. -/

/-- The optional check turns only a result OK into ERROR_MANCHESTER (`42_frame_fsm.md` R171). -/
def checkedResult (p : Config.Params) (u : LineUnit) (r : DecodeResult) : DecodeResult :=
  if p.manchesterCheck then manchesterResult u r else r

theorem checkedResult_live {u : LineUnit} {r : DecodeResult} (h : r.live p) : (checkedResult p u r).live p := by
  unfold checkedResult manchesterResult
  split
  · next hc =>
    split
    · exact .inr ⟨rfl, hc⟩
    · exact h
  · exact h

/-- The head descriptor after the data unit `u` is stored, counted and, where enabled, checked
(`42_frame_fsm.md` R170, R171). -/
def Descriptor.grown (p : Config.Params) (u : LineUnit) (d : Descriptor) : Descriptor :=
  { d with
    bytes := d.bytes.write d.size.toNat (unpack u)
    size := d.size + 1#8
    result := checkedResult p u d.result }

/-- A length below the capacity counts one byte more without a carry. -/
theorem size_succ (hp : p.Legal) (hsize : d.size.toNat < p.maxPacket) :
    (d.size + 1#8).toNat = d.size.toNat + 1 := by
  have hcap : p.maxPacket ≤ 255 := hp.1.2.2
  rw [BitVec.toNat_add, BitVec.toNat_ofNat]
  omega

variable (hp : p.Legal) (h : d.PoolOk p k) (hs : d.state = .loading) (u : LineUnit)
include hp h hs

theorem Descriptor.PoolOk.grown_bufferOk : (d.grown p u).BufferOk p := by
  obtain ⟨⟨hone, -, -⟩, hsize⟩ := (Descriptor.phase_loading hs).mp h.phase
  have hsucc := size_succ hp hsize
  refine h.buffer.stored hsize rfl (hsucc ▸ hsize) fun _ => ?_
  rw [if_neg (by omega)]
  exact h.buffer.startsWithSof hone

theorem Descriptor.PoolOk.grown_live : (d.grown p u).Live p := by
  obtain ⟨⟨-, hack, hres⟩, hsize⟩ := (Descriptor.phase_loading hs).mp h.phase
  exact ⟨by simp [Descriptor.grown, size_succ hp hsize], hack, checkedResult_live hres⟩

/-- The unit ends the data: the acknowledgement window opens (`42_frame_fsm.md` R172). -/
theorem Descriptor.PoolOk.grown_waiting : ({ d.grown p u with state := .waitingAck } : Descriptor).PoolOk p k :=
  have hb := h.grown_bufferOk hp hs u
  ⟨hb.congr rfl rfl, h.grown_live hp hs u, h.self⟩

/-- The unit fills the buffer without ending the data (`42_frame_fsm.md` R173). -/
theorem Descriptor.PoolOk.grown_overflow (hfull : (d.size + 1#8).toNat = p.maxPacket) :
    ({ d.grown p u with state := .done, result := .errorMaxPacket } : Descriptor).PoolOk p k := by
  have hb := h.grown_bufferOk hp hs u
  obtain ⟨hsize, hack, -⟩ := h.grown_live hp hs u
  exact ⟨hb.congr rfl rfl, ⟨hsize, .inr (.inr ⟨rfl, hack, hfull⟩)⟩, h.self⟩

/-- The unit leaves room in the buffer. -/
theorem Descriptor.PoolOk.grown_poolOk (hroom : (d.size + 1#8).toNat ≠ p.maxPacket) : (d.grown p u).PoolOk p k := by
  have hb := h.grown_bufferOk hp hs u
  exact ⟨hb, (Descriptor.phase_loading (d := d.grown p u) hs).mpr
    ⟨h.grown_live hp hs u, Nat.lt_of_le_of_ne hb.sizeFits hroom⟩, h.self⟩

end HeadWrites

/-! ### Writes that leave the pool -/

/-- `t` has the parameters, the pool, the indices and OUT of `s`. -/
structure SamePool (s t : State) : Prop where
  params : t.params = s.params
  slot : t.slot = s.slot
  head : t.head = s.head
  tail : t.tail = s.tail
  out : t.out = s.out

/-- The invariant speaks of no register beside the pool's but ATBIT, JIT and TIMER_ARMED. -/
theorem State.Inv.of_samePool {s t : State} (h : s.Inv) (e : SamePool s t) (hbit : t.atBit.toNat ≤ 9)
    (hjit : t.jit.toNat ≤ jitterBound s.params)
    (harm : ∀ d, s.slot[s.head.toNat]? = some d → d.state = .waitingAck → t.timerArmed = true) : t.Inv := by
  obtain ⟨hp, hs, hh, ht, ho⟩ := e
  refine ⟨?_, ?_, ?_, ?_, ?_, ?_, ?_, hbit, ?_, ?_⟩
  · rw [hp]; exact h.legal
  · rw [hs, hp]; exact h.poolSize
  · rw [hh, hp]; exact h.headInPool
  · rw [ht, hp]; exact h.tailInPool
  · rw [hs, hp]; exact h.poolOk
  · rw [hs, hh]; exact h.onlyHeadActive
  · rw [ho, hp]; exact h.outOk
  · rw [hp]; exact hjit
  · rw [State.headSlot?, hs, hh]; exact harm

/-- A write of none of the registers the invariant speaks of. -/
theorem State.Inv.of_sameRegisters {s t : State} (h : s.Inv) (e : SamePool s t) (hbit : t.atBit = s.atBit)
    (hjit : t.jit = s.jit) (harm : t.timerArmed = s.timerArmed) : t.Inv :=
  h.of_samePool e (hbit ▸ h.atBitSmall) (hjit ▸ h.jitterSmall) fun d hd hw => harm.trans (h.armedWhileWaiting d hd hw)

theorem State.Inv.quiet {s : State} (h : s.Inv) : s.quiet.Inv :=
  h.of_sameRegisters ⟨rfl, rfl, rfl, rfl, rfl⟩ rfl rfl rfl

theorem State.Inv.answered {s : State} (h : s.Inv) (st : Status) (v : Word) : (answered st v s).Inv :=
  h.of_sameRegisters ⟨rfl, rfl, rfl, rfl, rfl⟩ rfl rfl rfl

theorem State.Inv.withInputs {s : State} (h : s.Inv) (l : List Presentation) : ({ s with inputs := l } : State).Inv :=
  h.of_sameRegisters ⟨rfl, rfl, rfl, rfl, rfl⟩ rfl rfl rfl

theorem State.Inv.clearAssembly {s : State} (h : s.Inv) : (clearAssembly s).Inv :=
  h.of_samePool ⟨rfl, rfl, rfl, rfl, rfl⟩ (Nat.zero_le _) (Nat.zero_le _) h.armedWhileWaiting

/-! ### Writes of one slot, and moves of the indices -/

/-- An index that advances stays in the pool. -/
theorem nextIndex_lt {p : Config.Params} (hp : p.Legal) (k : SlotIndex) : (nextIndex p k).toNat < p.q := by
  have hpos : 1 ≤ p.q := hp.1.1.1
  have hlt : (k.toNat + 1) % p.q < p.q := Nat.mod_lt _ hpos
  simp only [nextIndex, BitVec.toNat_ofNat]
  exact Nat.lt_of_le_of_lt (Nat.mod_le _ _) hlt

/-- A write of one slot that leaves it with the fields of its state, inactive unless it is the head slot, and not in
an acknowledgement window unless the timer is armed. -/
theorem State.Inv.modifySlot {s : State} (h : s.Inv) {k : Nat} {d : Descriptor} {f : Descriptor → Descriptor}
    (hd : s.slot[k]? = some d) (hok : (f d).PoolOk s.params k)
    (hidle : k ≠ s.head.toNat → (f d).state = .vacant ∨ (f d).state = .done)
    (harm : (f d).state = .waitingAck → s.timerArmed = true) : (s.modifySlot k f).Inv := by
  have cases_slot : ∀ {j : Nat} {e : Descriptor}, (s.slot.modify k f)[j]? = some e →
      (j = k ∧ e = f d) ∨ (j ≠ k ∧ s.slot[j]? = some e) := by
    intro j e he
    rw [getElem?_modify_slot] at he
    split at he
    · next hj =>
      subst hj
      rw [hd] at he
      exact .inl ⟨rfl, (Option.some.inj he).symm⟩
    · next hj => exact .inr ⟨Ne.symm hj, he⟩
  refine ⟨h.legal, (length_modify_slot _ _ _).trans h.poolSize, h.headInPool, h.tailInPool, ?_, ?_, h.outOk,
    h.atBitSmall, h.jitterSmall, ?_⟩
  · intro j e he
    obtain ⟨rfl, rfl⟩ | ⟨-, he⟩ := cases_slot he
    · exact hok
    · exact h.poolOk j e he
  · intro j e he hj
    obtain ⟨rfl, rfl⟩ | ⟨-, he⟩ := cases_slot he
    · exact hidle hj
    · exact h.onlyHeadActive j e he hj
  · intro e he hw
    obtain ⟨-, rfl⟩ | ⟨-, he⟩ := cases_slot he
    · exact harm hw
    · exact h.armedWhileWaiting e he hw

/-- A head-slot write that leaves the descriptor leaves the state. -/
theorem modifyHead_id (s : State) : s.modifyHead id = s := by
  simp only [State.modifyHead, State.modifySlot, modify_id_slot]

/-- A write of the head slot that opens no acknowledgement window. -/
theorem State.Inv.modifyHead {s : State} (h : s.Inv) {d : Descriptor} {f : Descriptor → Descriptor}
    (hd : s.slot[s.head.toNat]? = some d) (hok : (f d).PoolOk s.params s.head.toNat)
    (hw : (f d).state ≠ .waitingAck) : (s.modifyHead f).Inv :=
  h.modifySlot hd hok (fun hne => absurd rfl hne) fun hw' => absurd hw' hw

/-- Every slot is inactive once the head slot is. -/
theorem State.Inv.allIdle {s : State} (h : s.Inv) {d : Descriptor} (hd : s.slot[s.head.toNat]? = some d)
    (hdone : d.state = .done) (k : Nat) (e : Descriptor) (he : s.slot[k]? = some e) :
    e.state = .vacant ∨ e.state = .done := by
  by_cases hk : k = s.head.toNat
  · subst hk
    obtain rfl : d = e := Option.some.inj (hd.symm.trans he)
    exact .inr hdone
  · exact h.onlyHeadActive k e he hk

/-- While every slot is inactive HEAD may advance, whatever COUNT and TIMER_ARMED become. -/
theorem State.Inv.advance {s : State} (h : s.Inv)
    (hidle : ∀ (k : Nat) (e : Descriptor), s.slot[k]? = some e → e.state = .vacant ∨ e.state = .done) (c : Word)
    (b : Bool) : ({ s with head := nextIndex s.params s.head, count := c, timerArmed := b } : State).Inv :=
  { h with
    headInPool := nextIndex_lt h.legal s.head
    onlyHeadActive := fun k e he _ => hidle k e he
    armedWhileWaiting := fun e he hw => by
      obtain hv | hv := hidle _ e he <;> cases hw.symm.trans hv }

/-- The head frame is written and completed (`42_frame_fsm.md` R175), whatever TIMER_ARMED becomes. -/
theorem State.Inv.complete {s : State} (h : s.Inv) {d : Descriptor} (hd : s.slot[s.head.toNat]? = some d)
    (f : Descriptor → Descriptor)
    (hok : ({ f d with state := .done } : Descriptor).PoolOk s.params s.head.toNat) (b : Bool) :
    ({ advanceHead (s.modifyHead f) with timerArmed := b } : State).Inv := by
  have hx := h.modifyHead (f := fun e => { f e with state := .done }) hd hok (by simp)
  have hidle := hx.allIdle (d := { f d with state := .done }) (by simp [hd]) rfl
  have ht := hx.advance hidle (s.count + 1#32) b
  have hm : (s.modifyHead f).modifyHead (fun e => { e with state := .done }) =
      s.modifyHead fun e => { f e with state := .done } := modifyHead_modifyHead s f _
  rwa [← hm] at ht

/-- RECEIVE drains a completed tail frame (`43_queue.md` R201). -/
theorem State.Inv.drainTail {s : State} (h : s.Inv) {d : Descriptor} (hd : s.slot[s.tail.toNat]? = some d)
    (hdone : d.state = .done) : (drainTail d s).Inv := by
  have hok := h.poolOk _ d hd
  have hfreed : (s.modifySlot s.tail.toNat Descriptor.freed).Inv :=
    h.modifySlot hd hok.freed (fun _ => .inl rfl) fun hw => by cases hw
  exact { hfreed with
    tailInPool := nextIndex_lt h.legal s.tail
    outOk := ⟨hok.buffer, hok.phase, .inr hdone, hok.self ▸ h.tailInPool⟩ }

/-- A buffer put back over the one a BUFSEL names. -/
theorem State.Inv.setBuffer {s : State} (h : s.Inv) {sel : Byte} {ref : BufferRef} {m m' : Memory} {n : Nat}
    (hr : resolve sel s = .buffer ref m n)
    (hm : ∀ d : Descriptor, d.BufferOk s.params → d.bytes = m → d.size.toNat = n →
      ({ d with bytes := m' } : Descriptor).BufferOk s.params) : (s.setBuffer ref m').Inv := by
  obtain ⟨-, rfl, hb, hn, -⟩ | ⟨-, -, rfl, d, hd, hdone, hb, hn, -⟩ := resolve_buffer.mp hr
  · exact { h with
      outOk := ⟨hm s.out h.outOk.buffer hb.symm hn.symm, h.outOk.phase, h.outOk.copied, h.outOk.self⟩ }
  · have hok := h.poolOk _ d hd
    exact h.modifySlot hd ⟨hm d hok.buffer hb.symm hn.symm, hok.phase, hok.self⟩ (fun _ => .inr hdone)
      fun hw => by cases hw.symm.trans hdone

/-- A repair of the buffer a BUFSEL names, whatever flip it keeps. -/
theorem State.Inv.repaired {s : State} (h : s.Inv) {sel : Byte} {ref : BufferRef} {m m' : Memory} {n : Nat}
    {kept : Option (Nat × Nat)} (hr : resolve sel s = .buffer ref m n) (hbad : crcVerify m n = false)
    (hs : repairSearch n (repairOrder n) m = (kept, m')) : (s.setBuffer ref m').Inv :=
  h.setBuffer hr fun d hd hb hn => by
    subst hb hn
    exact hd.repaired hbad hs

/-! ### Commands -/

/-- Every command keeps the invariant. -/
theorem CommandWrites.keepsInv {s u : State} {i : Instr} {st : Status} {v : Word}
    (w : CommandWrites s i st v u) (h : s.Inv) : u.Inv := by
  cases w with
  | nothing => exact h
  | attach => exact h.of_sameRegisters ⟨rfl, rfl, rfl, rfl, rfl⟩ rfl rfl rfl
  | drain d hd hdone => exact h.drainTail hd hdone
  | fixed sel ref m n i j hr hbad m' hs =>
    have h' := h.repaired hr hbad hs
    cases ref <;> exact h'.of_sameRegisters ⟨rfl, rfl, rfl, rfl, rfl⟩ rfl rfl rfl
  | unfixed sel ref m n hr hbad m' hs =>
    have h' := h.repaired hr hbad hs
    cases ref <;> exact h'.of_sameRegisters ⟨rfl, rfl, rfl, rfl, rfl⟩ rfl rfl rfl

/-! ### Bit timing -/

/-- A classification leaves at most the width of the fifth band (`41_bit_timing.md` R143). -/
theorem classify_jitter_le (p : Config.Params) (c : Nat) : (classify p c).2 ≤ p.thr6 - p.thr5 - 1 := by
  unfold classify
  split_ifs <;> dsimp only <;> omega

/-- The eat rule adds at most `EAT_CARRY` to JIT; where the sum does not fit 32 bits, no word passes the bound
(`10_state.md` R33, notes/assumptions/6). -/
theorem eatRule_jit_le {s : State} {n b : Nat} (h : s.jit.toNat + s.params.eatCarry ≤ b) :
    (eatRule n s).jit.toNat ≤ b := by
  unfold eatRule carryEatenBit
  split
  · split
    · exact le_trans (by simpa using Nat.mod_le _ _) h
    · next hbig =>
      have hfree : (Config.freeJitter s.freeCount).toNat < 2 ^ 32 := (Config.freeJitter s.freeCount).isLt
      dsimp only
      omega
  · omega

theorem eatenLength_le (s : State) (n : Nat) : eatenLength s n ≤ n := by
  unfold eatenLength
  split <;> omega

/-- ATBIT's five bits hold what a short run appends to an unfinished unit. -/
theorem appendRun_atBit_toNat {s : State} {L : Level} {n : Nat} (hs : s.atBit.toNat ≤ 9) (hn : n ≤ 9) :
    (appendRun L n s).atBit.toNat = s.atBit.toNat + n := by
  simp only [appendRun_atBit, BitVec.toNat_add, BitVec.toNat_ofNat]
  omega

/-- ATBIT after a run of at most nine bits, before a unit is taken off it. -/
theorem shortRun_atBit_le {s : State} {L : Level} {n : Nat} (hs : s.atBit.toNat ≤ 9) (hn : n ≤ 9) :
    (appendRun L (eatenLength s n) (eatRule n s)).atBit.toNat ≤ 18 := by
  have hk := eatenLength_le s n
  rw [appendRun_atBit_toNat (by simpa using hs) (by omega), eatRule_atBit]
  omega

/-- A completed unit takes its ten bits off ATBIT. -/
theorem atBit_sub_ten {b : BitVec 5} (h10 : 10 ≤ b.toNat) : (b - 10#5).toNat = b.toNat - 10 := by
  rw [BitVec.toNat_sub_of_le (by simpa [BitVec.le_def] using h10)]
  rfl

/-! ### Units -/

/-- The check is a write of the head slot's result (`42_frame_fsm.md` R171). -/
theorem manchesterCheck_eq_modifyHead (u : LineUnit) (s : State) :
    manchesterCheck u s = s.modifyHead fun e => { e with result := checkedResult s.params u e.result } := by
  unfold manchesterCheck checkedResult
  split
  · rfl
  · simp [State.modifyHead, State.modifySlot, modify_eq_self_slot]

/-- A data unit that is stored makes the head descriptor `grown`; what is left to do is `afterAppend`. -/
theorem onDataUnit_next {s t : State} {d : Descriptor} {u : LineUnit} (h : onDataUnit d u s = .next t) :
    ∃ f : Descriptor → Descriptor, f d = d.grown s.params u ∧ t = afterAppend u (d.size + 1#8) (s.modifyHead f) := by
  unfold onDataUnit at h
  split at h
  · next s' hst =>
    obtain ⟨-, rfl⟩ := storeHeadByte_some hst
    cases h
    rw [manchesterCheck_eq_modifyHead, modifyHead_modifyHead, modifyHead_modifyHead]
    refine ⟨_, ?_, rfl⟩
    rfl
  · cases h

section Unit

variable {s t : State} {d : Descriptor} {u : LineUnit} (h : s.Inv) (hd : s.slot[s.head.toNat]? = some d)
include h hd

/-- A unit while the search is on: a false start or the SOF match (`42_frame_fsm.md` R169). -/
theorem onSofUnit_keepsInv (hs : d.state = .searching) (ht : onSofUnit d u s = .next t) : t.Inv := by
  have hok := h.poolOk _ d hd
  unfold onSofUnit at ht
  split at ht
  · cases ht
    exact h.modifyHead hd (hok.abandoned hs) (by simp)
  · next hu =>
    obtain rfl := not_not.mp hu
    split at ht
    · next s' hst =>
      obtain ⟨-, rfl⟩ := storeHeadByte_some hst
      cases ht
      rw [modifyHead_modifyHead]
      have hi : (s.modifyHead fun e => { e with
          bytes := d.bytes.write 0 (unpack sofUnit), size := 1#8, seqNo := s.seq, state := .loading }).Inv :=
        h.modifyHead hd (hok.confirmed h.legal hs s.seq) (by simp)
      exact hi.of_sameRegisters ⟨rfl, rfl, rfl, rfl, rfl⟩ rfl rfl rfl
    · cases ht

/-- The acknowledgement window opens on the head slot and arms the timer (`42_frame_fsm.md` R172). -/
theorem enterWaitAck_keepsInv {f : Descriptor → Descriptor}
    (hok : ({ f d with state := .waitingAck } : Descriptor).PoolOk s.params s.head.toNat) :
    (enterWaitAck (s.modifyHead f)).Inv := by
  have harmed : ({ s with timerArmed := true, outputs := { s.outputs with armAckTimer := true } } : State).Inv :=
    h.of_samePool ⟨rfl, rfl, rfl, rfl, rfl⟩ h.atBitSmall h.jitterSmall fun _ _ _ => rfl
  unfold enterWaitAck
  rw [modifyHead_modifyHead]
  exact harmed.modifySlot hd hok (fun hne => absurd rfl hne) fun _ => rfl

/-- What follows a stored data unit: the end of data, a full buffer, or neither (`42_frame_fsm.md` R170). -/
theorem afterAppend_keepsInv (hs : d.state = .loading) {f : Descriptor → Descriptor}
    (hf : f d = d.grown s.params u) : (afterAppend u (d.size + 1#8) (s.modifyHead f)).Inv := by
  have hok := h.poolOk _ d hd
  unfold afterAppend
  split
  · exact enterWaitAck_keepsInv h hd (hf ▸ hok.grown_waiting h.legal hs u)
  · split
    · next hfull =>
      unfold overflow forceComplete
      rw [modifyHead_modifyHead]
      exact h.complete hd _ (by simpa [hf] using hok.grown_overflow h.legal hs u hfull) s.timerArmed
    · next hroom =>
      refine h.modifyHead hd (hf ▸ hok.grown_poolOk h.legal hs u hroom) ?_
      simp [hf, Descriptor.grown, hs]

theorem onDataUnit_keepsInv (hs : d.state = .loading) (ht : onDataUnit d u s = .next t) : t.Inv := by
  obtain ⟨f, hf, rfl⟩ := onDataUnit_next ht
  exact afterAppend_keepsInv h hd hs hf

end Unit

/-- A completed unit, when what is left of ATBIT is that of a state with the invariant. -/
theorem onUnit_keepsInv {s t : State} {d : Descriptor} (h : ({ s with atBit := s.atBit - 10#5 } : State).Inv)
    (hd : s.slot[s.head.toNat]? = some d) (hact : d.state = .searching ∨ d.state = .loading)
    (ht : onUnit d s = .next t) : t.Inv := by
  simp only [onUnit] at ht
  obtain hs | hs := hact
  · rw [if_pos hs] at ht
    exact onSofUnit_keepsInv h hd hs ht
  · rw [if_neg (by simp [hs])] at ht
    exact onDataUnit_keepsInv h hd hs ht

/-! ### Edges -/

section Edge

variable {s t : State} {d : Descriptor} {L : Level} (h : s.Inv) (hd : s.slot[s.head.toNat]? = some d)
include h hd

/-- An over-long run restarts the search or completes the frame (`42_frame_fsm.md` R165). -/
theorem onLongRun_keepsInv (hact : d.state = .searching ∨ d.state = .loading) : (onLongRun d s).Inv := by
  have hok := h.poolOk _ d hd
  unfold onLongRun
  obtain hs | hs := hact
  · rw [if_pos hs]
    exact (h.modifyHead (f := fun e => { e with size := 0#8 }) hd (hok.restarted hs) (by simp [hs])).clearAssembly
  · rw [if_neg (by simp [hs])]
    exact h.complete hd _ (hok.overlong hs) s.timerArmed

/-- A run of at most nine bits keeps ATBIT and JIT in their bounds (`42_frame_fsm.md` R165). -/
theorem onShortRun_keepsInv (hact : d.state = .searching ∨ d.state = .loading)
    (hjit : s.jit.toNat + s.params.eatCarry ≤ jitterBound s.params) {n : Nat} (hn : n ≤ 9)
    (ht : onShortRun d L n s = .next t) : t.Inv := by
  have hbit := shortRun_atBit_le (L := L) h.atBitSmall hn
  have hpool : SamePool s (appendRun L (eatenLength s n) (eatRule n s)) := by constructor <;> simp
  have hjit' : (appendRun L (eatenLength s n) (eatRule n s)).jit.toNat ≤ jitterBound s.params := eatRule_jit_le hjit
  have harm : (appendRun L (eatenLength s n) (eatRule n s)).timerArmed = s.timerArmed := by simp
  have hinv : ∀ b : BitVec 5, b.toNat ≤ 9 →
      ({ appendRun L (eatenLength s n) (eatRule n s) with atBit := b } : State).Inv := fun b hb =>
    h.of_samePool ⟨hpool.params, hpool.slot, hpool.head, hpool.tail, hpool.out⟩ hb hjit' fun e he hw =>
      harm.trans (h.armedWhileWaiting e he hw)
  simp only [onShortRun] at ht
  generalize appendRun L (eatenLength s n) (eatRule n s) = x at *
  split at ht
  · next h10 =>
    refine onUnit_keepsInv (hinv _ ?_) (by rw [hpool.slot, hpool.head, hd]) hact ht
    rw [atBit_sub_ten h10]
    omega
  · next h10 =>
    cases ht
    exact hinv _ (by omega)

/-- The run an edge ends (`42_frame_fsm.md` R165). -/
theorem onEdgeRun_keepsInv (hact : d.state = .searching ∨ d.state = .loading) {delta : Word}
    (ht : onEdgeRun d L delta s = .next t) : t.Inv := by
  simp only [onEdgeRun] at ht
  have hout := classify_jitter_le s.params (effectiveCycles delta s)
  generalize classify s.params (effectiveCycles delta s) = run at ht hout
  have hstored : (storeJitter run.2 s).jit.toNat ≤ run.2 := by simpa using Nat.mod_le _ _
  have hjit : (storeJitter run.2 s).jit.toNat + s.params.eatCarry ≤ jitterBound s.params := by
    unfold jitterBound
    omega
  have hinv : (storeJitter run.2 s).Inv :=
    h.of_samePool ⟨rfl, rfl, rfl, rfl, rfl⟩ h.atBitSmall (by omega) h.armedWhileWaiting
  split at ht
  · cases ht
    exact onLongRun_keepsInv hinv hd hact
  · exact onShortRun_keepsInv hinv hd hact hjit (by omega) ht

/-- An edge, whatever the head state (`42_frame_fsm.md` R161). -/
theorem onEdge_keepsInv {delta : Word} (ht : onEdge d L delta s = .next t) : t.Inv := by
  have hok := h.poolOk _ d hd
  unfold onEdge at ht
  cases hs : d.state <;> rw [hs] at ht <;> dsimp only at ht
  case done =>
    cases ht
    exact h.of_sameRegisters ⟨rfl, rfl, rfl, rfl, rfl⟩ rfl rfl rfl
  case vacant =>
    cases ht
    cases L with
    | high => exact h
    | low => exact (h.modifyHead hd hok.started (by simp [Descriptor.started])).clearAssembly
  case waitingAck =>
    cases ht
    exact h.complete hd _ (hok.ended hs .ack) s.timerArmed
  case searching => exact onEdgeRun_keepsInv h hd (.inl hs) ht
  case loading => exact onEdgeRun_keepsInv h hd (.inr hs) ht

end Edge

/-! ### Every instruction -/

theorem exec_edge_keepsInv {L : Level} {c : Word} {s t : State} (h : s.Inv) (ht : exec (.edge L c) s = .next t) :
    t.Inv := by
  obtain ⟨-, rfl⟩ | ⟨-, d, hd, he, -⟩ := execEdge_cases ht
  · exact h.quiet
  · have hrec : (recordEdge c s.quiet).Inv := h.of_sameRegisters ⟨rfl, rfl, rfl, rfl, rfl⟩ rfl rfl rfl
    exact onEdge_keepsInv hrec hd he

/-- The timeout completes a frame that waits, and then nothing waits; else nothing waited. -/
theorem exec_ackTimeout_keepsInv {s t : State} (h : s.Inv) (ht : exec .ackTimeout s = .next t) : t.Inv := by
  obtain ⟨-, rfl⟩ | ⟨-, d, hd, rfl⟩ := execAckTimeout_cases ht
  · exact h.quiet
  · split
    · next hw =>
      have hc := h.quiet.complete hd id ((h.poolOk _ d hd).ended hw d.ack) false
      rwa [modifyHead_id] at hc
    · next hw =>
      refine h.of_samePool ⟨rfl, rfl, rfl, rfl, rfl⟩ h.atBitSmall h.jitterSmall fun e he hwait => ?_
      obtain rfl : d = e := Option.some.inj (hd.symm.trans he)
      exact absurd hwait hw

/-- RESET leaves the state after reset, but for the environment's fields (`70_reset_and_hazards.md` R260). -/
theorem exec_reset_keepsInv {s t : State} (h : s.Inv) (ht : exec .reset s = .next t) : t.Inv := by
  cases ht
  exact (resetWith_inv h.legal).of_sameRegisters ⟨rfl, rfl, rfl, rfl, rfl⟩ rfl rfl rfl

theorem exec_keepsInv {i : Instr} {s t : State} (h : s.Inv) (ht : exec i s = .next t) : t.Inv := by
  by_cases hc : i.isCommand = true
  · obtain ⟨st, v, u, w, rfl⟩ := exec_command hc ht
    exact (w.keepsInv h).answered st v
  · cases i with
    | edge L c => exact exec_edge_keepsInv h ht
    | ackTimeout => exact exec_ackTimeout_keepsInv h ht
    | reset => exact exec_reset_keepsInv h ht
    | _ => exact absurd rfl hc

end Sys2Proof.Machine

namespace Sys2Proof

open Machine

/-- Settles O44: a step is idle, an illegal word or an `exec` (`step_next`), and each keeps the invariant. -/
theorem stepKeepsInvariant : Obligations.StepKeepsInvariant := by
  intro s t h ht
  obtain ⟨-, rfl⟩ | ⟨p, rest, -, ⟨i, -, he⟩ | ⟨-, rfl⟩⟩ := step_next ht
  · exact h.quiet
  · exact exec_keepsInv (h.withInputs rest) he
  · exact (h.withInputs rest).answered .illegal 0#32

end Sys2Proof

/-! PROOFS. Every step keeps the queue in order (O46). What the order speaks of is a mark of each slot (`SameMark`); a
step leaves the marks and the ends of the queue (`SameOrder`), or the head frame is confirmed, or it is completed
(`QueueStep`), or RECEIVE drains the tail frame, or RESET empties the block. -/

namespace Sys2Proof.Machine

/-! ### The circle of slots -/

/-- An index that advances, as a number: the pool's indices fit the 7-bit field. -/
theorem nextIndex_toNat {p : Config.Params} (hp : p.Legal) (k : SlotIndex) :
    (nextIndex p k).toNat = (k.toNat + 1) % p.q := by
  have hq : p.q ≤ 128 := hp.1.1.2
  have hlt : (k.toNat + 1) % p.q < p.q := Nat.mod_lt _ hp.1.1.1
  simp only [nextIndex, BitVec.toNat_ofNat]
  omega

section Circle

variable {s : State}

/-- Different places after TAIL, fewer than `Q` of them, are different slots. -/
theorem State.afterTail_inj {i j : Nat} (hi : i < s.params.q) (hj : j < s.params.q)
    (h : s.afterTail i = s.afterTail j) : i = j :=
  Nat.ModEq.eq_of_lt_of_lt (Nat.ModEq.add_left_cancel' s.tail.toNat h) hi hj

theorem State.afterTail_zero (h : s.tail.toNat < s.params.q) : s.afterTail 0 = s.tail.toNat := Nat.mod_eq_of_lt h

/-- `Q` places after TAIL is TAIL again. -/
theorem State.afterTail_q : s.afterTail s.params.q = s.afterTail 0 := Nat.add_mod_right _ _

/-- The slot after one of the circle. -/
theorem State.afterTail_succ (j : Nat) : (s.afterTail j + 1) % s.params.q = s.afterTail (j + 1) :=
  Nat.mod_add_mod _ _ _

theorem State.afterTail_congr {t : State} (hp : t.params = s.params) (ht : t.tail = s.tail) (j : Nat) :
    t.afterTail j = s.afterTail j := by
  simp only [State.afterTail, hp, ht]

/-- Once TAIL has advanced, each slot is one place nearer to it. -/
theorem State.afterTail_advanced {t : State} (hl : s.params.Legal) (hp : t.params = s.params)
    (ht : t.tail = nextIndex s.params s.tail) (j : Nat) : t.afterTail j = s.afterTail (j + 1) := by
  simp only [State.afterTail, hp, ht, nextIndex_toNat hl, Nat.mod_add_mod, Nat.add_assoc, Nat.add_comm 1 j]

end Circle

/-- One number more down from `c`. -/
theorem sub_ofNat_succ (c : Word) (n : Nat) : c - BitVec.ofNat 32 (n + 1) = c - BitVec.ofNat 32 n - 1#32 := by
  rw [BitVec.ofNat_add]
  ring

/-! ### What the order speaks of -/

/-- `e'` has of `e` what the queue's order speaks of. -/
structure SameMark (e e' : Descriptor) : Prop where
  done : e'.state = .done ↔ e.state = .done
  confirmed : e'.state.confirmed = e.state.confirmed
  seqNo : e'.seqNo = e.seqNo

theorem SameMark.refl (e : Descriptor) : SameMark e e := ⟨Iff.rfl, rfl, rfl⟩

/-- A write that leaves the state and the sequence number leaves the mark. -/
theorem SameMark.of_eq {e e' : Descriptor} (hs : e'.state = e.state) (hn : e'.seqNo = e.seqNo) : SameMark e e' :=
  ⟨by rw [hs], by rw [hs], hn⟩

/-- `t` has of `s` what the queue's order speaks of. -/
structure SameOrder (s t : State) : Prop where
  params : t.params = s.params
  head : t.head = s.head
  tail : t.tail = s.tail
  count : t.count = s.count
  seq : t.seq = s.seq
  out : SameMark s.out t.out
  slot : ∀ (k : Nat) (e' : Descriptor), t.slot[k]? = some e' → ∃ e, s.slot[k]? = some e ∧ SameMark e e'

/-- A write of none of the registers the order speaks of. -/
theorem SameOrder.of_samePool {s t : State} (e : SamePool s t) (hc : t.count = s.count) (hs : t.seq = s.seq) :
    SameOrder s t where
  params := e.params
  head := e.head
  tail := e.tail
  count := hc
  seq := hs
  out := by rw [e.out]; exact .refl _
  slot := fun k d hd => ⟨d, by rwa [e.slot] at hd, .refl d⟩

theorem SameOrder.trans {s t u : State} (h : SameOrder s t) (h' : SameOrder t u) : SameOrder s u where
  params := h'.params.trans h.params
  head := h'.head.trans h.head
  tail := h'.tail.trans h.tail
  count := h'.count.trans h.count
  seq := h'.seq.trans h.seq
  out := ⟨h'.out.done.trans h.out.done, h'.out.confirmed.trans h.out.confirmed, h'.out.seqNo.trans h.out.seqNo⟩
  slot := fun k e hu => by
    obtain ⟨d', ht, m'⟩ := h'.slot k e hu
    obtain ⟨d, hs, m⟩ := h.slot k d' ht
    exact ⟨d, hs, m'.done.trans m.done, m'.confirmed.trans m.confirmed, m'.seqNo.trans m.seqNo⟩

theorem sameOrder_clearAssembly (s : State) : SameOrder s (clearAssembly s) :=
  .of_samePool ⟨rfl, rfl, rfl, rfl, rfl⟩ rfl rfl

/-- What a lookup in a pool with one written slot finds. -/
theorem slot_of_modify {l : List Descriptor} {k j : Nat} {d e : Descriptor} {f : Descriptor → Descriptor}
    (hd : l[k]? = some d) (he : (l.modify k f)[j]? = some e) : (j = k ∧ e = f d) ∨ (j ≠ k ∧ l[j]? = some e) := by
  rw [getElem?_modify_slot] at he
  split at he
  · next hj =>
    subst hj
    rw [hd] at he
    exact .inl ⟨rfl, (Option.some.inj he).symm⟩
  · next hj => exact .inr ⟨Ne.symm hj, he⟩

/-- A write of one slot that leaves its mark. -/
theorem sameOrder_modifySlot {s : State} {k : Nat} {d : Descriptor} {f : Descriptor → Descriptor}
    (hd : s.slot[k]? = some d) (hm : SameMark d (f d)) : SameOrder s (s.modifySlot k f) where
  params := rfl
  head := rfl
  tail := rfl
  count := rfl
  seq := rfl
  out := .refl _
  slot := fun j e he => by
    obtain ⟨rfl, rfl⟩ | ⟨-, he⟩ := slot_of_modify hd he
    · exact ⟨d, hd, hm⟩
    · exact ⟨e, he, .refl e⟩

/-- A repair of the buffer a BUFSEL names leaves every mark. -/
theorem sameOrder_setBuffer {s : State} {sel : Byte} {ref : BufferRef} {m : Memory} {n : Nat} (m' : Memory)
    (hr : resolve sel s = .buffer ref m n) : SameOrder s (s.setBuffer ref m') := by
  obtain ⟨-, rfl, -⟩ | ⟨-, -, rfl, d, hd, -⟩ := resolve_buffer.mp hr
  · exact ⟨rfl, rfl, rfl, rfl, rfl, .of_eq rfl rfl, fun k e he => ⟨e, he, .refl e⟩⟩
  · exact sameOrder_modifySlot hd (.of_eq rfl rfl)

/-! ### Steps that leave the order -/

/-- Which frames are held is a matter of the two ends and of the DONE slots alone. -/
theorem State.Holds.congr {s t : State} {held : Nat} (h : s.Holds held) (hp : t.params = s.params)
    (hhead : t.head = s.head) (htail : t.tail = s.tail)
    (hslot : ∀ (k : Nat) (e' : Descriptor), t.slot[k]? = some e' →
      ∃ e, s.slot[k]? = some e ∧ (e'.state = .done ↔ e.state = .done)) : t.Holds held where
  fits := hp ▸ h.fits
  headFollows := by rw [hhead, State.afterTail_congr hp htail]; exact h.headFollows
  doneExactly := fun j e' hj he' => by
    rw [State.afterTail_congr hp htail] at he'
    obtain ⟨e, he, hdone⟩ := hslot _ e' he'
    exact hdone.trans (h.doneExactly j e (hp ▸ hj) he)

theorem SameOrder.keepsInOrder {s t : State} (o : SameOrder s t) (h : s.InOrder) : t.InOrder := by
  obtain ⟨held, hh, hn⟩ := h
  refine ⟨held, hh.congr o.params o.head o.tail fun k e' he' => ?_, ?_, ?_, ?_, ?_⟩
  · obtain ⟨e, he, m⟩ := o.slot k e' he'
    exact ⟨e, he, m.done⟩
  · intro j e' hj he'
    rw [State.afterTail_congr o.params o.tail] at he'
    obtain ⟨e, he, m⟩ := o.slot _ e' he'
    rw [m.seqNo, o.count]
    exact hn.queued j e hj he
  · intro hdone
    rw [o.out.seqNo, o.count]
    exact hn.drained (o.out.done.mp hdone)
  · intro e' he' hc
    obtain ⟨e, he, m⟩ := o.slot _ e' he'
    rw [m.seqNo, o.count, o.seq]
    rw [o.head] at he
    exact hn.confirmed e he (m.confirmed ▸ hc)
  · intro e' he' hc
    obtain ⟨e, he, m⟩ := o.slot _ e' he'
    rw [o.count, o.seq]
    rw [o.head] at he
    exact hn.unconfirmed e he (m.confirmed ▸ hc)

theorem State.InOrder.of_samePool {s t : State} (h : s.InOrder) (e : SamePool s t) (hc : t.count = s.count)
    (hs : t.seq = s.seq) : t.InOrder :=
  (SameOrder.of_samePool e hc hs).keepsInOrder h

theorem State.InOrder.quiet {s : State} (h : s.InOrder) : s.quiet.InOrder :=
  h.of_samePool ⟨rfl, rfl, rfl, rfl, rfl⟩ rfl rfl

theorem State.InOrder.answered {s : State} (h : s.InOrder) (st : Status) (v : Word) : (answered st v s).InOrder :=
  h.of_samePool ⟨rfl, rfl, rfl, rfl, rfl⟩ rfl rfl

theorem State.InOrder.withInputs {s : State} (h : s.InOrder) (l : List Presentation) :
    ({ s with inputs := l } : State).InOrder :=
  h.of_samePool ⟨rfl, rfl, rfl, rfl, rfl⟩ rfl rfl

/-! ### The head frame -/

theorem ne_done_of_confirmed {st : DState} (h : st.confirmed = true) : st ≠ .done := by
  rintro rfl
  cases h

/-- An inactive slot holds no confirmed frame. -/
theorem not_confirmed_of_idle {st : DState} (h : st = .vacant ∨ st = .done) : st.confirmed = false := by
  obtain rfl | rfl := h <;> rfl

/-- `t` is `s` with `f` written to the head slot, as far as the parameters, TAIL, OUT and the pool go. -/
structure HeadWrite (s t : State) (f : Descriptor → Descriptor) : Prop where
  params : t.params = s.params
  tail : t.tail = s.tail
  out : t.out = s.out
  slot : t.slot = s.slot.modify s.head.toNat f

/-- The SOF match gives the head frame `d` its number (`42_frame_fsm.md` R169). -/
structure ConfirmsHead (s : State) (d : Descriptor) (t : State) (f : Descriptor → Descriptor) : Prop
    extends HeadWrite s t f where
  was : d.state = .searching
  now : (f d).state = .loading
  seqNo : (f d).seqNo = s.seq
  head : t.head = s.head
  count : t.count = s.count
  seq : t.seq = s.seq + 1#32

/-- The head frame `d`, confirmed before, completes with its number and HEAD advances (`42_frame_fsm.md` R175). -/
structure CompletesHead (s : State) (d : Descriptor) (t : State) (f : Descriptor → Descriptor) : Prop
    extends HeadWrite s t f where
  was : d.state.confirmed = true
  now : (f d).state = .done
  seqNo : (f d).seqNo = d.seqNo
  head : t.head = nextIndex s.params s.head
  count : t.count = s.count + 1#32
  seq : t.seq = s.seq

/-- What an edge or a timeout does to the queue, `d` being the head descriptor. -/
inductive QueueStep (s : State) (d : Descriptor) (t : State) : Prop where
  | keeps (o : SameOrder s t)
  | confirms (f : Descriptor → Descriptor) (c : ConfirmsHead s d t f)
  | completes (f : Descriptor → Descriptor) (c : CompletesHead s d t f)

/-- A queue that holds `Q` frames has a DONE head. -/
theorem State.Holds.lt_of_head {s : State} {held : Nat} (h : s.Holds held) (hq : 0 < s.params.q) {d : Descriptor}
    (hd : s.slot[s.head.toNat]? = some d) (hnd : d.state ≠ .done) : held < s.params.q := by
  refine Nat.lt_of_le_of_ne h.fits fun hfull => hnd ?_
  have hhead := h.headFollows
  rw [hfull, State.afterTail_q] at hhead
  exact (h.doneExactly 0 d hq (hhead ▸ hd)).mpr (hfull ▸ hq)

section HeadFrame

variable {s t : State} {d : Descriptor} {f : Descriptor → Descriptor} {held : Nat}
  (hd : s.slot[s.head.toNat]? = some d) (hh : s.Holds held) (hlt : held < s.params.q) (hn : s.Numbered held)
include hd hh hlt

/-- A place of the circle is the head slot, as it is after the write, or another slot, which the write leaves. -/
theorem HeadWrite.slot_cases (w : HeadWrite s t f) {j : Nat} {e : Descriptor} (hj : j < s.params.q)
    (he : t.slot[t.afterTail j]? = some e) : (j = held ∧ e = f d) ∨ (j ≠ held ∧ s.slot[s.afterTail j]? = some e) := by
  rw [State.afterTail_congr w.params w.tail, w.slot] at he
  obtain ⟨hjh, he⟩ | ⟨hjh, he⟩ := slot_of_modify hd he
  · exact .inl ⟨State.afterTail_inj hj hlt (hjh.trans hh.headFollows), he⟩
  · refine .inr ⟨?_, he⟩
    rintro rfl
    exact hjh hh.headFollows.symm

include hn

/-- The frames in the queue keep their numbers. -/
theorem HeadWrite.queued_seqNo (w : HeadWrite s t f) {j : Nat} {e : Descriptor} (hj : j < held)
    (he : t.slot[t.afterTail j]? = some e) : e.seqNo = s.count - BitVec.ofNat 32 held + BitVec.ofNat 32 j := by
  obtain ⟨rfl, -⟩ | ⟨-, he⟩ := w.slot_cases hd hh hlt (Nat.lt_trans hj hlt) he
  · exact absurd hj (Nat.lt_irrefl _)
  · exact hn.queued j e hj he

/-- The SOF match takes SEQ, which is COUNT, as the frame's number. -/
theorem ConfirmsHead.inOrder (c : ConfirmsHead s d t f) : t.InOrder := by
  have w := c.toHeadWrite
  have hwas : s.seq = s.count := hn.unconfirmed d hd (by rw [c.was]; rfl)
  have hnow : ∀ e, t.headSlot? = some e → e = f d := by
    intro e he
    rw [State.headSlot?, c.head, w.slot] at he
    obtain ⟨-, rfl⟩ | ⟨hne, -⟩ := slot_of_modify hd he
    · rfl
    · exact absurd rfl hne
  refine ⟨held, hh.congr w.params c.head w.tail fun k e he => ?_, ?_, ?_, ?_, ?_⟩
  · rw [w.slot] at he
    obtain ⟨rfl, rfl⟩ | ⟨-, he⟩ := slot_of_modify hd he
    · exact ⟨d, hd, by simp [c.was, c.now]⟩
    · exact ⟨e, he, Iff.rfl⟩
  · intro j e hj he
    rw [c.count]
    exact w.queued_seqNo hd hh hlt hn hj he
  · rw [w.out, c.count]
    exact hn.drained
  · intro e he _
    obtain rfl := hnow e he
    rw [c.seqNo, c.seq, c.count, hwas]
    exact ⟨rfl, rfl⟩
  · intro e he hc
    obtain rfl := hnow e he
    rw [c.now] at hc
    cases hc

/-- The completed frame joins the queue's end with the number it has; the next head slot is inactive. -/
theorem CompletesHead.inOrder (c : CompletesHead s d t f) (hinv : s.Inv) : t.InOrder := by
  have w := c.toHeadWrite
  obtain ⟨hnum, hseq⟩ := hn.confirmed d hd c.was
  have hidle : ∀ e, t.headSlot? = some e → e.state.confirmed = false := by
    intro e he
    rw [State.headSlot?, w.slot] at he
    obtain ⟨-, rfl⟩ | ⟨hne, he⟩ := slot_of_modify hd he
    · exact not_confirmed_of_idle (.inr c.now)
    · exact not_confirmed_of_idle (hinv.onlyHeadActive _ e he hne)
  have hbase : t.count - BitVec.ofNat 32 (held + 1) = s.count - BitVec.ofNat 32 held := by
    rw [c.count, sub_ofNat_succ, add_sub_right_comm, BitVec.add_sub_cancel]
  refine ⟨held + 1, ⟨?_, ?_, ?_⟩, ?_, ?_, ?_, ?_⟩
  · rw [w.params]
    exact hlt
  · rw [c.head, nextIndex_toNat hinv.legal, hh.headFollows, State.afterTail_succ, State.afterTail_congr w.params w.tail]
  · intro j e hj he
    rw [w.params] at hj
    obtain ⟨rfl, rfl⟩ | ⟨hne, he⟩ := w.slot_cases hd hh hlt hj he
    · exact iff_of_true c.now (Nat.lt_succ_self _)
    · rw [hh.doneExactly j e hj he]
      omega
  · intro j e hj he
    rw [hbase]
    obtain rfl | hj := Nat.eq_or_lt_of_le (Nat.le_of_lt_succ hj)
    · obtain ⟨-, rfl⟩ | ⟨hne, -⟩ := w.slot_cases hd hh hlt hlt he
      · rw [c.seqNo, hnum, BitVec.sub_add_cancel]
      · exact absurd rfl hne
    · exact w.queued_seqNo hd hh hlt hn hj he
  · rw [w.out, hbase]
    exact hn.drained
  · intro e he hce
    cases (hidle e he).symm.trans hce
  · intro e he _
    rw [c.seq, hseq, c.count]

end HeadFrame

/-- Whatever an edge or a timeout does to the queue keeps it in order. -/
theorem QueueStep.keepsInOrder {s t : State} {d : Descriptor} (q : QueueStep s d t) (hinv : s.Inv)
    (hd : s.slot[s.head.toNat]? = some d) (h : s.InOrder) : t.InOrder := by
  cases q with
  | keeps o => exact o.keepsInOrder h
  | confirms f c =>
    obtain ⟨held, hh, hn⟩ := h
    exact c.inOrder hd hh (hh.lt_of_head hinv.legal.1.1.1 hd (by simp [c.was])) hn
  | completes f c =>
    obtain ⟨held, hh, hn⟩ := h
    exact c.inOrder hd hh (hh.lt_of_head hinv.legal.1.1.1 hd (ne_done_of_confirmed c.was)) hn hinv

/-! ### What an edge does to the queue -/

/-- A step of the queue from a state with the same pool, ends and counters. -/
theorem QueueStep.of_samePool {s x t : State} {d : Descriptor} (q : QueueStep x d t) (e : SamePool s x)
    (hc : x.count = s.count) (hs : x.seq = s.seq) : QueueStep s d t := by
  have hw : ∀ {f : Descriptor → Descriptor}, HeadWrite x t f → HeadWrite s t f := fun w =>
    ⟨w.params.trans e.params, w.tail.trans e.tail, w.out.trans e.out, by rw [w.slot, e.slot, e.head]⟩
  cases q with
  | keeps o => exact .keeps ((SameOrder.of_samePool e hc hs).trans o)
  | confirms f c =>
    exact .confirms f ⟨hw c.toHeadWrite, c.was, c.now, c.seqNo.trans hs, c.head.trans e.head, c.count.trans hc,
      by rw [c.seq, hs]⟩
  | completes f c =>
    exact .completes f ⟨hw c.toHeadWrite, c.was, c.now, c.seqNo, by rw [c.head, e.params, e.head],
      by rw [c.count, hc], c.seq.trans hs⟩

/-- A confirmed head frame is written, its number kept, and completed. -/
theorem queueStep_advanceHead (s : State) {d : Descriptor} (hc : d.state.confirmed = true)
    {f : Descriptor → Descriptor} (hf : (f d).seqNo = d.seqNo) : QueueStep s d (advanceHead (s.modifyHead f)) :=
  .completes _ ⟨⟨rfl, rfl, rfl, modify_modify_slot _ _ f _⟩, hc, rfl, hf, rfl, rfl, rfl⟩

section Edge

variable {s t : State} {d : Descriptor} {u : LineUnit} (hd : s.slot[s.head.toNat]? = some d)
include hd

theorem onSofUnit_queueStep (hs : d.state = .searching) (ht : onSofUnit d u s = .next t) : QueueStep s d t := by
  unfold onSofUnit at ht
  split at ht
  · cases ht
    exact .keeps (sameOrder_modifySlot hd ⟨by simp [hs], by rw [hs]; rfl, rfl⟩)
  · split at ht
    · next s' hst =>
      obtain ⟨-, rfl⟩ := storeHeadByte_some hst
      cases ht
      rw [modifyHead_modifyHead]
      exact .confirms _ ⟨⟨rfl, rfl, rfl, rfl⟩, hs, rfl, rfl, rfl, rfl, rfl⟩
    · cases ht

/-- A data unit leaves the head frame confirmed, or completes it with the buffer full (`42_frame_fsm.md` R170). -/
theorem onDataUnit_queueStep (hs : d.state = .loading) (ht : onDataUnit d u s = .next t) : QueueStep s d t := by
  obtain ⟨f, hf, rfl⟩ := onDataUnit_next ht
  unfold afterAppend
  split
  · have o : SameOrder s (s.modifyHead ((fun e => { e with state := .waitingAck }) ∘ f)) :=
      sameOrder_modifySlot hd ⟨by simp [hs], by rw [hs]; rfl, by simp [hf, Descriptor.grown]⟩
    unfold enterWaitAck
    rw [modifyHead_modifyHead]
    exact .keeps (o.trans (.of_samePool ⟨rfl, rfl, rfl, rfl, rfl⟩ rfl rfl))
  · split
    · unfold overflow forceComplete
      rw [modifyHead_modifyHead]
      exact queueStep_advanceHead s (by rw [hs]; rfl) (by simp [hf, Descriptor.grown])
    · exact .keeps (sameOrder_modifySlot hd (hf ▸ .of_eq rfl rfl))

theorem onUnit_queueStep (hact : d.state = .searching ∨ d.state = .loading) (ht : onUnit d s = .next t) :
    QueueStep s d t := by
  refine QueueStep.of_samePool (x := { s with atBit := s.atBit - 10#5 }) ?_ ⟨rfl, rfl, rfl, rfl, rfl⟩ rfl rfl
  simp only [onUnit] at ht
  obtain hs | hs := hact
  · rw [if_pos hs] at ht
    exact onSofUnit_queueStep hd hs ht
  · rw [if_neg (by simp [hs])] at ht
    exact onDataUnit_queueStep hd hs ht

variable {L : Level}

/-- An over-long run restarts the search or completes the frame (`42_frame_fsm.md` R165). -/
theorem onLongRun_queueStep (hact : d.state = .searching ∨ d.state = .loading) : QueueStep s d (onLongRun d s) := by
  unfold onLongRun
  obtain hs | hs := hact
  · rw [if_pos hs]
    have o : SameOrder s (s.modifyHead fun e => { e with size := 0#8 }) := sameOrder_modifySlot hd (.of_eq rfl rfl)
    exact .keeps (o.trans (sameOrder_clearAssembly _))
  · rw [if_neg (by simp [hs])]
    exact queueStep_advanceHead s (by rw [hs]; rfl) rfl

/-- A short run appends to the unit registers alone, before the unit it may complete (`42_frame_fsm.md` R165). -/
theorem onShortRun_queueStep (hact : d.state = .searching ∨ d.state = .loading) {n : Nat}
    (ht : onShortRun d L n s = .next t) : QueueStep s d t := by
  have hpool : SamePool s (appendRun L (eatenLength s n) (eatRule n s)) := by constructor <;> simp
  have hcount : (appendRun L (eatenLength s n) (eatRule n s)).count = s.count := by simp
  have hseq : (appendRun L (eatenLength s n) (eatRule n s)).seq = s.seq := by simp
  simp only [onShortRun] at ht
  generalize appendRun L (eatenLength s n) (eatRule n s) = x at *
  split at ht
  · exact (onUnit_queueStep (by rw [hpool.slot, hpool.head, hd]) hact ht).of_samePool hpool hcount hseq
  · cases ht
    exact .keeps (.of_samePool hpool hcount hseq)

theorem onEdgeRun_queueStep (hact : d.state = .searching ∨ d.state = .loading) {delta : Word}
    (ht : onEdgeRun d L delta s = .next t) : QueueStep s d t := by
  simp only [onEdgeRun] at ht
  generalize classify s.params (effectiveCycles delta s) = run at ht
  refine QueueStep.of_samePool (x := storeJitter run.2 s) ?_ ⟨rfl, rfl, rfl, rfl, rfl⟩ rfl rfl
  split at ht
  · cases ht
    exact onLongRun_queueStep hd hact
  · exact onShortRun_queueStep hd hact ht

/-- An edge, whatever the head state (`42_frame_fsm.md` R161). -/
theorem onEdge_queueStep {delta : Word} (ht : onEdge d L delta s = .next t) : QueueStep s d t := by
  unfold onEdge at ht
  cases hs : d.state <;> rw [hs] at ht <;> dsimp only at ht
  case done =>
    cases ht
    exact .keeps (.of_samePool ⟨rfl, rfl, rfl, rfl, rfl⟩ rfl rfl)
  case vacant =>
    cases ht
    cases L with
    | high => exact .keeps (.of_samePool ⟨rfl, rfl, rfl, rfl, rfl⟩ rfl rfl)
    | low =>
      have o : SameOrder s (s.modifyHead Descriptor.started) :=
        sameOrder_modifySlot hd ⟨by simp [hs, Descriptor.started], by rw [hs]; rfl, rfl⟩
      exact .keeps (o.trans (sameOrder_clearAssembly _))
  case waitingAck =>
    cases ht
    exact queueStep_advanceHead s (by rw [hs]; rfl) rfl
  case searching => exact onEdgeRun_queueStep hd (.inl hs) ht
  case loading => exact onEdgeRun_queueStep hd (.inr hs) ht

end Edge

/-! ### Every instruction -/

theorem exec_edge_keepsInOrder {L : Level} {c : Word} {s t : State} (h : s.Inv) (ho : s.InOrder)
    (ht : exec (.edge L c) s = .next t) : t.InOrder := by
  obtain ⟨-, rfl⟩ | ⟨-, d, hd, he, -⟩ := execEdge_cases ht
  · exact ho.quiet
  · have hinv : (recordEdge c s.quiet).Inv := h.of_sameRegisters ⟨rfl, rfl, rfl, rfl, rfl⟩ rfl rfl rfl
    have hord : (recordEdge c s.quiet).InOrder := ho.of_samePool ⟨rfl, rfl, rfl, rfl, rfl⟩ rfl rfl
    have q := onEdge_queueStep (s := recordEdge c s.quiet) hd he
    exact q.keepsInOrder hinv hd hord

theorem exec_ackTimeout_keepsInOrder {s t : State} (h : s.Inv) (ho : s.InOrder)
    (ht : exec .ackTimeout s = .next t) : t.InOrder := by
  obtain ⟨-, rfl⟩ | ⟨-, d, hd, rfl⟩ := execAckTimeout_cases ht
  · exact ho.quiet
  · have o : SamePool s { s.quiet with timerArmed := false } := ⟨rfl, rfl, rfl, rfl, rfl⟩
    split
    · next hw =>
      have q := queueStep_advanceHead { s.quiet with timerArmed := false } (d := d) (f := id) (by rw [hw]; rfl) rfl
      rw [modifyHead_id] at q
      exact (q.of_samePool o rfl rfl).keepsInOrder h hd ho
    · exact ho.of_samePool o rfl rfl

/-- RESET leaves the empty queue (`70_reset_and_hazards.md` R260). -/
theorem exec_reset_inOrder {s t : State} (ht : exec .reset s = .next t) : t.InOrder := by
  cases ht
  have hord : (State.resetWith s.params).InOrder := ⟨0, resetWith_holds_none _, resetWith_numbered_none _⟩
  exact hord.of_samePool ⟨rfl, rfl, rfl, rfl, rfl⟩ rfl rfl

section Drain

variable {s : State} {d : Descriptor} (h : s.Inv) (hd : s.slot[s.tail.toNat]? = some d)
include h

/-- The tail frame drained, the places count from the next slot (`43_queue.md` R201). -/
theorem drainTail_afterTail (j : Nat) : (drainTail d s).afterTail j = s.afterTail (j + 1) :=
  State.afterTail_advanced (t := drainTail d s) h.legal rfl rfl j

include hd

/-- The freed slot is the last of the circle, and the others are as they were. -/
theorem drainTail_slot_cases {j : Nat} {e : Descriptor} (hj : j < s.params.q)
    (he : (drainTail d s).slot[(drainTail d s).afterTail j]? = some e) :
    (j + 1 = s.params.q ∧ e = d.freed) ∨ (j + 1 < s.params.q ∧ s.slot[s.afterTail (j + 1)]? = some e) := by
  have hzero := State.afterTail_zero h.tailInPool
  rw [drainTail_afterTail h] at he
  obtain hlt | hlast : j + 1 < s.params.q ∨ j + 1 = s.params.q := Nat.lt_or_eq_of_le hj
  · obtain ⟨htail, -⟩ | ⟨-, he⟩ := slot_of_modify hd he
    · have hj0 := State.afterTail_inj hlt h.legal.1.1.1 (htail.trans hzero.symm)
      cases hj0
    · exact .inr ⟨hlt, he⟩
  · obtain ⟨-, he⟩ | ⟨hne, -⟩ := slot_of_modify hd he
    · exact .inl ⟨hlast, he⟩
    · rw [hlast, State.afterTail_q, hzero] at hne
      exact absurd rfl hne

omit h in
/-- The head frame stays unless the head slot is the freed one, which held no frame being decoded. -/
theorem drainTail_headSlot (hdone : d.state = .done) {e : Descriptor} (he : (drainTail d s).headSlot? = some e) :
    ∃ e', s.headSlot? = some e' ∧ e'.state.confirmed = e.state.confirmed ∧ e'.seqNo = e.seqNo := by
  obtain ⟨heq, rfl⟩ | ⟨-, he⟩ := slot_of_modify hd he
  · refine ⟨d, ?_, by rw [hdone]; rfl, rfl⟩
    rw [State.headSlot?, ← hd]
    exact congrArg _ heq
  · exact ⟨e, he, rfl, rfl⟩

/-- RECEIVE takes the oldest frame: those left are one nearer to TAIL, and OUT has the number before theirs. -/
theorem drainTail_keepsInOrder (ho : s.InOrder) (hdone : d.state = .done) : (drainTail d s).InOrder := by
  obtain ⟨held, hh, hn⟩ := ho
  have hq : 0 < s.params.q := h.legal.1.1.1
  have htail : s.slot[s.afterTail 0]? = some d := by rwa [State.afterTail_zero h.tailInPool]
  have hpos : 0 < held := (hh.doneExactly 0 d hq htail).mp hdone
  obtain ⟨rest, rfl⟩ := Nat.exists_eq_add_one.mpr hpos
  have hfits : rest + 1 ≤ s.params.q := hh.fits
  refine ⟨rest, ⟨Nat.le_of_succ_le hfits, ?_, ?_⟩, ?_, ?_, ?_, ?_⟩
  · rw [drainTail_afterTail h]
    exact hh.headFollows
  · intro j e hj he
    obtain ⟨hlast, rfl⟩ | ⟨hlt, he⟩ := drainTail_slot_cases h hd hj he
    · exact iff_of_false (by simp [Descriptor.freed]) (by omega)
    · rw [hh.doneExactly (j + 1) e hlt he]
      exact Nat.add_lt_add_iff_right
  · intro j e hj he
    obtain ⟨hlast, -⟩ | ⟨-, he⟩ := drainTail_slot_cases h hd (by omega) he
    · omega
    · rw [hn.queued (j + 1) e (Nat.succ_lt_succ hj) he, sub_ofNat_succ, BitVec.ofNat_add, drainTail_count]
      ring
  · intro _
    rw [drainTail_out, drainTail_count, hn.queued 0 d hpos htail, sub_ofNat_succ]
    exact BitVec.add_zero _
  · intro e he hc
    obtain ⟨e', he', hce, hse⟩ := drainTail_headSlot hd hdone he
    rw [← hse]
    exact hn.confirmed e' he' (hce.trans hc)
  · intro e he hc
    obtain ⟨e', he', hce, -⟩ := drainTail_headSlot hd hdone he
    exact hn.unconfirmed e' he' (hce.trans hc)

end Drain

/-- Every command keeps the queue in order. -/
theorem CommandWrites.keepsInOrder {s u : State} {i : Instr} {st : Status} {v : Word}
    (w : CommandWrites s i st v u) (h : s.Inv) (ho : s.InOrder) : u.InOrder := by
  cases w with
  | nothing => exact ho
  | attach => exact ho.of_samePool ⟨rfl, rfl, rfl, rfl, rfl⟩ rfl rfl
  | drain d hd hdone => exact drainTail_keepsInOrder h hd ho hdone
  | fixed sel ref m n i j hr hbad m' hs =>
    have ho' := (sameOrder_setBuffer m' hr).keepsInOrder ho
    cases ref <;> exact ho'.of_samePool ⟨rfl, rfl, rfl, rfl, rfl⟩ rfl rfl
  | unfixed sel ref m n hr hbad m' hs =>
    have ho' := (sameOrder_setBuffer m' hr).keepsInOrder ho
    cases ref <;> exact ho'.of_samePool ⟨rfl, rfl, rfl, rfl, rfl⟩ rfl rfl

theorem exec_keepsInOrder {i : Instr} {s t : State} (h : s.Inv) (ho : s.InOrder) (ht : exec i s = .next t) :
    t.InOrder := by
  by_cases hc : i.isCommand = true
  · obtain ⟨st, v, u, w, rfl⟩ := exec_command hc ht
    exact (w.keepsInOrder h ho).answered st v
  · cases i with
    | edge L c => exact exec_edge_keepsInOrder h ho ht
    | ackTimeout => exact exec_ackTimeout_keepsInOrder h ho ht
    | reset => exact exec_reset_inOrder ht
    | _ => exact absurd rfl hc

end Sys2Proof.Machine

namespace Sys2Proof

open Machine

/-- Settles O46: a step is idle, an illegal word or an `exec` (`step_next`). The events confirm or complete the head
frame or leave the queue (`QueueStep`), RECEIVE drains the tail frame, and the other commands leave the queue. -/
theorem stepKeepsQueueInOrder : Obligations.StepKeepsQueueInOrder := by
  intro s t h ho ht
  obtain ⟨-, rfl⟩ | ⟨p, rest, -, ⟨i, -, he⟩ | ⟨-, rfl⟩⟩ := step_next ht
  · exact ho.quiet
  · exact exec_keepsInOrder (h.withInputs rest) (ho.withInputs rest) he
  · exact (ho.withInputs rest).answered .illegal 0#32

end Sys2Proof

/-! PROOFS. Every instruction answers a next state in a state that meets the invariant (O45): the slots HEAD, TAIL and a
BUFSEL name exist, and every byte a rule accesses lies inside its buffer. -/

namespace Sys2Proof.Machine

/-- The result is a next state: no fault, and no refusal. -/
def Completes (r : Result) : Prop := ∃ t, r = .next t

theorem completes_next (t : State) : Completes (.next t) := ⟨t, rfl⟩

theorem completes_respond (v : Word) (s : State) : Completes (respond v s) := completes_next _

theorem completes_raise (st : Status) (s : State) : Completes (raise st s) := completes_next _

/-! ### The shared operations -/

section Operations

variable {s : State} (h : s.Inv)
include h

/-- Every index below `Q` is that of a slot (`10_state.md` R35). -/
theorem State.Inv.slot_exists {k : Nat} (hk : k < s.params.q) : ∃ d, s.slot[k]? = some d :=
  ⟨_, List.getElem?_eq_getElem (h.poolSize ▸ hk)⟩

theorem completes_withHead {f : Descriptor → Result}
    (hf : ∀ d, s.slot[s.head.toNat]? = some d → Completes (f d)) : Completes (s.withHead f) := by
  obtain ⟨d, hd⟩ := h.slot_exists h.headInPool
  rw [withHead_some hd]
  exact hf d hd

theorem completes_withTail {f : Descriptor → Result} (hf : ∀ d, Completes (f d)) : Completes (s.withTail f) := by
  obtain ⟨d, hd⟩ := h.slot_exists h.tailInPool
  rw [withTail_some hd]
  exact hf d

/-- `Resolve(ARG)` names no slot and no byte that does not exist (`40_crc.md` R121). -/
theorem resolve_not_absent (sel : Byte) (why : Fault) : resolve sel s ≠ .absent why := by
  have sized : ∀ {ref : BufferRef} {d : Descriptor}, d.BufferOk s.params →
      sizedBuffer s.params ref d ≠ .absent why := fun hd => by simp [sizedBuffer, hd.sizeFits]
  unfold resolve bufSel
  by_cases hsel : sel = 0x80#8
  · rw [if_pos hsel]
    exact sized h.outOk.buffer
  · rw [if_neg hsel]
    by_cases hq : sel.toNat < s.params.q
    · obtain ⟨d, hd⟩ := h.slot_exists hq
      simp only [hq, if_true, hd]
      split
      · exact sized (h.poolOk _ d hd).buffer
      · simp
    · simp [hq]

theorem completes_withBuffer {sel : Byte} {f : BufferRef → Memory → Nat → Result}
    (hf : ∀ ref m n, Completes (f ref m n)) : Completes (withBuffer sel s f) := by
  unfold withBuffer
  cases hr : resolve sel s with
  | buffer ref m n => exact hf ref m n
  | busy => exact completes_raise _ s
  | illegal => exact completes_raise _ s
  | absent why => exact absurd hr (resolve_not_absent h sel why)

/-- A byte of the frame in OUT exists (`20_memory.md` R64). -/
theorem completes_withOutByte {k : Nat} {f : Byte → Result} (hk : k < s.out.size.toNat) (hf : ∀ b, Completes (f b)) :
    Completes (withOutByte s k f) := by
  have hcap : k < s.params.maxPacket := Nat.lt_of_lt_of_le hk h.outOk.buffer.sizeFits
  unfold withOutByte
  rw [memRead_some.mpr ⟨hcap, rfl⟩]
  exact hf _

omit h in
theorem completes_requireSize {k : Nat} {run : Result} (hrun : k ≤ s.out.size.toNat → Completes run) :
    Completes (requireSize k s run) := by
  unfold requireSize
  split
  · exact completes_raise _ s
  · next hk => exact hrun (Nat.le_of_not_lt hk)

end Operations

/-! ### Commands -/

/-- A repair's search is bounded by its list of flips, and it answers whether or not one is kept. -/
theorem completes_repairBuffer (ref : BufferRef) (m : Memory) (n : Nat) (s : State) :
    Completes (repairBuffer ref m n s) := by
  unfold repairBuffer
  dsimp only
  split <;> exact completes_respond _ _

/-- Register 0x00 is read through HEAD and TAIL; the others name no slot (`43_queue.md` R206). -/
theorem completes_execReadReg {s : State} (h : s.Inv) (num : Byte) : Completes (execReadReg num s) := by
  unfold execReadReg
  split
  · exact completes_withTail h fun _ => completes_withHead h fun _ _ => completes_respond _ s
  all_goals exact completes_next _

theorem exec_command_completes {i : Instr} {s : State} (h : s.Inv) (hc : i.isCommand = true) :
    Completes (exec i s) := by
  cases i with
  | setup =>
    simp only [exec, execSetup]
    split <;> exact completes_respond _ _
  | receive =>
    refine completes_withTail h fun d => ?_
    split <;> exact completes_respond _ _
  | available => exact completes_withTail h fun d => completes_respond _ s
  | getCount | getCorrupt | getRepaired | outSize | outMeta | outSeqno => exact completes_respond _ s
  | readReg num => exact completes_execReadReg h num
  | crcCompute sel | crcVerify sel => exact completes_withBuffer h fun _ m n => completes_respond _ s
  | crcRepair sel =>
    refine completes_withBuffer h fun ref m n => ?_
    split
    · exact completes_respond _ s
    · exact completes_repairBuffer ref m n s
  | outByte index =>
    simp only [exec, execOutByte]
    split
    · exact completes_raise _ s
    · next hk => exact completes_withOutByte h (Nat.lt_of_not_le hk) fun b => completes_respond _ s
  | frameIden =>
    exact completes_requireSize fun hk => completes_withOutByte h (by omega) fun b1 =>
      completes_withOutByte h (by omega) fun b2 => completes_respond _ s
  | frameFlags =>
    exact completes_requireSize fun hk => completes_withOutByte h (by omega) fun b2 => completes_respond _ s
  | frameDatalen => exact completes_requireSize fun _ => completes_respond _ s
  | frameCrc =>
    exact completes_requireSize fun hk => completes_withOutByte h (by omega) fun hi =>
      completes_withOutByte h (by omega) fun lo => completes_respond _ s
  | edge _ _ | ackTimeout | reset => cases hc

/-! ### Edges -/

/-- A store inside the buffer is not refused. -/
theorem storeHeadByte_of_lt {d : Descriptor} {k : Nat} {v : Byte} {s : State} (hk : k < s.params.maxPacket) :
    storeHeadByte d k v s = some (s.modifyHead fun d' => { d' with bytes := d.bytes.write k v }) := by
  unfold storeHeadByte
  rw [memWrite_some.mpr ⟨hk, rfl⟩]

/-- The byte the head frame's next unit is stored at exists: byte 0 for the SOF byte, and the next one, below capacity,
for a data byte (`42_frame_fsm.md` R169, R170). -/
structure HasRoom (p : Config.Params) (d : Descriptor) : Prop where
  first : 0 < p.maxPacket
  next : d.state ≠ .searching → d.size.toNat < p.maxPacket

theorem hasRoom_of_active {p : Config.Params} {k : Nat} {d : Descriptor} (hp : p.Legal) (h : d.PoolOk p k)
    (hact : d.state = .searching ∨ d.state = .loading) : HasRoom p d where
  first := Nat.lt_of_lt_of_le (by decide) hp.1.2.1
  next := fun hs => ((Descriptor.phase_loading (hact.resolve_left hs)).mp h.phase).2

theorem completes_onSofUnit {s : State} (d : Descriptor) (u : LineUnit) (h : 0 < s.params.maxPacket) :
    Completes (onSofUnit d u s) := by
  unfold onSofUnit
  split
  · exact completes_next _
  · rw [storeHeadByte_of_lt h]
    exact completes_next _

theorem completes_onDataUnit {s : State} {d : Descriptor} (u : LineUnit) (h : d.size.toNat < s.params.maxPacket) :
    Completes (onDataUnit d u s) := by
  unfold onDataUnit
  rw [storeHeadByte_of_lt h]
  exact completes_next _

theorem completes_onUnit {s : State} {d : Descriptor} (h : HasRoom s.params d) : Completes (onUnit d s) := by
  simp only [onUnit]
  split
  · exact completes_onSofUnit d _ h.first
  · next hs => exact completes_onDataUnit _ (h.next hs)

theorem completes_onShortRun {s : State} {d : Descriptor} (h : HasRoom s.params d) (L : Level) (n : Nat) :
    Completes (onShortRun d L n s) := by
  simp only [onShortRun]
  split
  · exact completes_onUnit (by simpa using h)
  · exact completes_next _

theorem completes_onEdgeRun {s : State} {d : Descriptor} (h : HasRoom s.params d) (L : Level) (delta : Word) :
    Completes (onEdgeRun d L delta s) := by
  simp only [onEdgeRun]
  split
  · exact completes_next _
  · exact completes_onShortRun (s := storeJitter _ s) h L _

/-- An edge completes, whatever the head state (`42_frame_fsm.md` R161). -/
theorem completes_onEdge {s : State} {d : Descriptor} {k : Nat} (hp : s.params.Legal) (h : d.PoolOk s.params k)
    (L : Level) (delta : Word) : Completes (onEdge d L delta s) := by
  unfold onEdge
  cases hs : d.state <;> dsimp only
  case searching => exact completes_onEdgeRun (hasRoom_of_active hp h (.inl hs)) L delta
  case loading => exact completes_onEdgeRun (hasRoom_of_active hp h (.inr hs)) L delta
  all_goals exact completes_next _

/-! ### Every instruction -/

theorem exec_edge_completes {s : State} (h : s.Inv) (L : Level) (c : Word) : Completes (exec (.edge L c) s) := by
  simp only [exec, execEdge]
  split
  · refine completes_withHead h.quiet fun d hd => ?_
    exact completes_onEdge (s := recordEdge c s.quiet) h.legal (h.poolOk _ d hd) L _
  · exact completes_next _

theorem exec_ackTimeout_completes {s : State} (h : s.Inv) : Completes (exec .ackTimeout s) := by
  simp only [exec, execAckTimeout]
  split
  · exact completes_withHead h.quiet fun d _ => completes_next _
  · exact completes_next _

theorem exec_completes {s : State} (h : s.Inv) (i : Instr) : Completes (exec i s) := by
  by_cases hc : i.isCommand = true
  · exact exec_command_completes h hc
  · cases i with
    | edge L c => exact exec_edge_completes h L c
    | ackTimeout => exact exec_ackTimeout_completes h
    | reset => exact completes_next _
    | _ => exact absurd rfl hc

/-- A step with a presentation to take completes, or the presentation spells no event and is refused. -/
theorem step_completes_or_refused {s : State} (h : s.Inv) {p : Presentation} {rest : List Presentation}
    (hin : s.inputs = p :: rest) :
    (Completes (step s) ∧ ∀ why, decode p ≠ .noEvent why) ∨
      (step s = .refused .noSuchEvent ∧ ∃ why, decode p = .noEvent why) := by
  cases hp : decode p with
  | instr i =>
    rw [step_instr hin hp]
    exact .inl ⟨exec_completes (h.withInputs rest) i, by simp⟩
  | illegalWord why =>
    rw [step_illegalWord hin hp]
    exact .inl ⟨completes_next _, by simp⟩
  | noEvent why => exact .inr ⟨step_noEvent hin hp, why, rfl⟩

end Sys2Proof.Machine

namespace Sys2Proof

open Machine

/-- Settles O45: an idle step completes, and any other completes or is refused (`step_completes_or_refused`). -/
theorem everyPresentationCompletes : Obligations.EveryPresentationCompletes := by
  intro s h
  refine ⟨fun f hf => ?_, fun p rest hin => ?_⟩
  · cases hin : s.inputs with
    | nil =>
      simp only [step, takeInput, hin] at hf
      cases hf
    | cons p rest =>
      obtain ⟨⟨t, ht⟩, -⟩ | ⟨hr, -⟩ := step_completes_or_refused h hin
      · cases ht.symm.trans hf
      · cases hr.symm.trans hf
  · obtain ⟨hc, hne⟩ | ⟨hr, hne⟩ := step_completes_or_refused h hin
    · exact iff_of_true hc fun ⟨why, hw⟩ => hne why hw
    · refine iff_of_false ?_ (not_not_intro hne)
      rintro ⟨t, ht⟩
      cases hr.symm.trans ht

end Sys2Proof

/-! PROOFS. The commands without side effects write nothing but the response (O53). -/

namespace Sys2Proof.Machine

open Claims

theorem isCommand_of_readsOnly {i : Instr} (h : ReadsOnly i) : i.isCommand = true := by
  cases i with
  | edge _ _ | ackTimeout | reset => exact absurd h not_false
  | _ => rfl

/-- The three commands that can write a register, SETUP, RECEIVE and CRC_REPAIR, are not among them. -/
theorem CommandWrites.unchanged_of_readsOnly {s u : State} {i : Instr} {st : Status} {v : Word}
    (w : CommandWrites s i st v u) (h : ReadsOnly i) : u = s := by
  cases w with
  | nothing => rfl
  | attach | drain | fixed | unfixed => exact absurd h not_false

end Sys2Proof.Machine

namespace Sys2Proof

open Machine

/-- Settles O53: a command without side effects leaves every register (`CommandWrites.unchanged_of_readsOnly`), and its
answer is written to the step ports alone. -/
theorem readOnlyCommands : Obligations.ReadOnlyCommands := by
  intro i s t hr h
  obtain ⟨st, v, u, w, rfl⟩ := exec_command (isCommand_of_readsOnly hr) h
  rw [w.unchanged_of_readsOnly hr]
  rfl

end Sys2Proof

/-! PROOFS. The decoder reads an instruction from exactly its encoding (O1). -/

namespace Sys2Proof

open Laws.RoundTrip

/-! ### Command words -/

/-- A NONE argument is read only when it is 0 (`30_encoding.md` R84). -/
theorem decodeNone_eq_instr {arg : Byte} {i j : Instr} : decodeNone arg j = .instr i ↔ arg = 0#8 ∧ j = i := by
  unfold decodeNone
  by_cases ha : arg = 0#8 <;> simp [ha]

/-- A command word is known by its two bytes. -/
theorem command_of_parts {w : CommandWord} {opc arg : Byte} (ho : opcodeOf w = opc) (ha : argOf w = arg) :
    Presentation.command (commandWord opc arg) = .command w := by
  rw [← ho, ← ha, commandWord_parts]

/-- A word read as a NONE-argument command is that command's encoding. -/
theorem encode_of_decodeNone {w : CommandWord} {opc : Byte} {i j : Instr} (ho : opcodeOf w = opc)
    (he : encode j = .command (commandWord opc 0#8)) (h : decodeNone (argOf w) j = .instr i) :
    encode i = .command w := by
  obtain ⟨ha, rfl⟩ := decodeNone_eq_instr.mp h
  rw [he, command_of_parts ho ha]

/-- A word read as a command with an argument is that command's encoding. -/
theorem encode_of_argument {w : CommandWord} {opc : Byte} {i j : Instr} (ho : opcodeOf w = opc)
    (he : encode j = .command (commandWord opc (argOf w))) (h : Decoded.instr j = .instr i) :
    encode i = .command w := by
  cases h
  rw [he, command_of_parts ho rfl]

/-- Every row of the opcode table is read from its own encoding alone (`30_encoding.md` R87). -/
theorem encode_of_decodeCommand {w : CommandWord} {i : Instr} (h : decodeCommand w = .instr i) :
    encode i = .command w := by
  unfold decodeCommand at h
  split at h
  case h_7 ho | h_8 ho | h_9 ho | h_10 ho | h_11 ho => exact encode_of_argument ho rfl h
  case h_19 => cases h
  all_goals
    next ho => exact encode_of_decodeNone ho rfl h

/-! ### Event records -/

/-- A timeout or reset record is read only when LEVEL and CYCLE are 0 (`30_encoding.md` R82). -/
theorem decodePlainEvent_eq_instr {r : EventRecord} {i j : Instr} :
    decodePlainEvent r j = .instr i ↔ (levelOf r = 0#1 ∧ cycleOf r = 0#32) ∧ j = i := by
  unfold decodePlainEvent
  split <;> simp [*]

theorem toBit_ofBit (b : BitVec 1) : (Level.ofBit b).toBit = b := by
  decide +revert

/-- A record with bit 33 clear is known by its fields. -/
theorem event_of_parts {r : EventRecord} {kind : BitVec 2} {level : BitVec 1} {cycle : Word} (h33 : reservedOf r ≠ 1#1)
    (hk : kindOf r = kind) (hl : levelOf r = level) (hc : cycleOf r = cycle) :
    Presentation.event (eventRecord kind level cycle) = .event r := by
  have hclear : ∀ b : BitVec 1, b ≠ 1#1 → b = 0#1 := by decide
  rw [← hk, ← hl, ← hc, eventRecord_parts r (hclear _ h33)]

/-- A record read as a timeout or a reset is that event's encoding. -/
theorem encode_of_decodePlainEvent {r : EventRecord} {kind : BitVec 2} {i j : Instr} (h33 : reservedOf r ≠ 1#1)
    (hk : kindOf r = kind) (he : encode j = .event (eventRecord kind 0#1 0#32))
    (h : decodePlainEvent r j = .instr i) : encode i = .event r := by
  obtain ⟨⟨hl, hc⟩, rfl⟩ := decodePlainEvent_eq_instr.mp h
  rw [he, event_of_parts h33 hk hl hc]

/-- Every event is read from its own record alone (`30_encoding.md` R82). -/
theorem encode_of_decodeEvent {r : EventRecord} {i : Instr} (h : decodeEvent r = .instr i) : encode i = .event r := by
  unfold decodeEvent at h
  split at h
  case isTrue => cases h
  case isFalse h33 =>
    split at h
    case h_1 hk =>
      cases h
      exact event_of_parts h33 hk (toBit_ofBit _).symm rfl
    case h_2 hk => exact encode_of_decodePlainEvent h33 hk rfl h
    case h_3 hk => exact encode_of_decodePlainEvent h33 hk rfl h
    case h_4 => cases h

/-! ### Both -/

theorem encode_of_decode {p : Presentation} {i : Instr} (h : decode p = .instr i) : encode i = p := by
  cases p with
  | command w => exact encode_of_decodeCommand h
  | event r => exact encode_of_decodeEvent h

theorem decode_encode (i : Instr) : decode (encode i) = .instr i := by
  cases i with
  | readReg num => exact readReg num
  | crcCompute sel => exact crcCompute sel
  | crcVerify sel => exact crcVerify sel
  | crcRepair sel => exact crcRepair sel
  | outByte index => exact outByte index
  | edge level cycle => exact edge level cycle
  | _ => rfl

/-- Settles O1: the encoding of an instruction decodes to it (`decode_encode`), and what decodes to it is its encoding
(`encode_of_decode`). -/
theorem decodeInvertsEncode : Obligations.DecodeInvertsEncode := by
  intro p i
  refine ⟨encode_of_decode, ?_⟩
  rintro rfl
  exact decode_encode i

end Sys2Proof

/-! PROOFS. What the block answers to a word that is no row of the opcode table (O3), and to an event record (O4). -/

namespace Sys2Proof.Machine

open Claims Laws.RoundTrip

/-! ### Command words outside the table -/

/-- An opcode without a row is reserved, whatever its argument (`30_encoding.md` R88). -/
theorem decodeCommand_reservedOpcode {w : CommandWord} (h : ReservedOpcode (opcodeOf w)) :
    decodeCommand w = .illegalWord .reservedOpcode := by
  unfold decodeCommand
  split
  case h_19 => rfl
  all_goals
    next ho =>
    rw [ho] at h
    exact absurd h (by unfold ReservedOpcode; decide)

theorem noneOpcode_mem : ∀ {opc : Byte}, NoneOpcode opc →
    opc ∈ [0x01#8, 0x02#8, 0x03#8, 0x04#8, 0x05#8, 0x06#8, 0x21#8, 0x22#8, 0x23#8, 0x24#8, 0x25#8, 0x26#8, 0x27#8] := by
  unfold NoneOpcode
  decide

/-- A NONE argument that is not 0 is illegal, whatever the row (`30_encoding.md` R88). -/
theorem decodeCommand_nonzeroArgument {w : CommandWord} (h : NoneOpcode (opcodeOf w)) (ha : argOf w ≠ 0#8) :
    decodeCommand w = .illegalWord .nonzeroArgument := by
  have hmem := noneOpcode_mem h
  simp only [List.mem_cons, List.not_mem_nil, or_false] at hmem
  rcases hmem with ho | ho | ho | ho | ho | ho | ho | ho | ho | ho | ho | ho | ho <;>
    simp only [decodeCommand, ho, decodeNone, if_neg ha]

theorem bufselOpcode_cases : ∀ {opc : Byte}, BufselOpcode opc → opc = 0x10#8 ∨ opc = 0x11#8 ∨ opc = 0x12#8 := by
  unfold BufselOpcode
  decide

/-! ### What a BUFSEL raises -/

theorem sizedBuffer_ne_illegal (p : Config.Params) (ref : BufferRef) (d : Descriptor) :
    sizedBuffer p ref d ≠ .illegal := by
  unfold sizedBuffer
  split <;> simp

theorem sizedBuffer_ne_busy (p : Config.Params) (ref : BufferRef) (d : Descriptor) :
    sizedBuffer p ref d ≠ .busy := by
  unfold sizedBuffer
  split <;> simp

/-- A BUFSEL is illegal exactly when it is neither 0x80 nor below `Q` (`30_encoding.md` R85). -/
theorem resolve_illegal {s : State} {sel : Byte} :
    resolve sel s = .illegal ↔ sel ≠ 0x80#8 ∧ s.params.q ≤ sel.toNat := by
  unfold resolve bufSel
  by_cases h : sel = 0x80#8
  · simp [h, sizedBuffer_ne_illegal]
  · by_cases hq : sel.toNat < s.params.q
    · cases hd : s.slot[sel.toNat]? with
      | none => simp [h, hq, hd]
      | some d => by_cases hdone : d.state = .done <;> simp [h, hq, hd, hdone, sizedBuffer_ne_illegal]
    · simp [h, hq, Nat.le_of_not_lt hq]

/-- A BUFSEL is busy exactly when it names a pool slot that is not DONE (`40_crc.md` R121). -/
theorem resolve_busy {s : State} {sel : Byte} : resolve sel s = .busy ↔ BusyCause s sel := by
  unfold resolve bufSel BusyCause
  by_cases h : sel = 0x80#8
  · simp [h, sizedBuffer_ne_busy]
  · by_cases hq : sel.toNat < s.params.q
    · cases hd : s.slot[sel.toNat]? with
      | none => simp [h, hq, hd]
      | some d => by_cases hdone : d.state = .done <;> simp [h, hq, hd, hdone, sizedBuffer_ne_busy]
    · simp [h, hq]

/-- An illegal BUFSEL raises ST_ILLEGAL, whatever the command would do with the buffer. -/
theorem withBuffer_illegal {s : State} {sel : Byte} (h : sel ≠ 0x80#8 ∧ s.params.q ≤ sel.toNat)
    (f : BufferRef → Memory → Nat → Result) : withBuffer sel s f = .next (answer .illegal 0#32 s) := by
  unfold withBuffer
  rw [resolve_illegal.mpr h]
  rfl

/-! ### Event records -/

/-- A record that spells no event: KIND 00, or bit 33 set (`30_encoding.md` R82). -/
theorem decodeEvent_reserved {r : EventRecord} (h : kindOf r = 0b00#2 ∨ reservedOf r = 1#1) :
    ∃ why, decodeEvent r = .noEvent why := by
  unfold decodeEvent
  by_cases h33 : reservedOf r = 1#1
  · exact ⟨_, if_pos h33⟩
  · rw [if_neg h33, h.resolve_right h33]
    exact ⟨_, rfl⟩

/-- With bit 33 clear the KIND field selects the event. -/
theorem decodeEvent_edge {r : EventRecord} (h33 : reservedOf r ≠ 1#1) (hk : kindOf r = 0b01#2) :
    decodeEvent r = .instr (.edge (Level.ofBit (levelOf r)) (cycleOf r)) := by
  simp only [decodeEvent, if_neg h33, hk]

theorem decodeEvent_ackTimeout {r : EventRecord} (h33 : reservedOf r ≠ 1#1) (hk : kindOf r = 0b10#2) :
    decodeEvent r = decodePlainEvent r .ackTimeout := by
  simp only [decodeEvent, if_neg h33, hk]

theorem decodeEvent_reset {r : EventRecord} (h33 : reservedOf r ≠ 1#1) (hk : kindOf r = 0b11#2) :
    decodeEvent r = decodePlainEvent r .reset := by
  simp only [decodeEvent, if_neg h33, hk]

/-- A timeout or reset record with a nonzero LEVEL or CYCLE spells no event (`30_encoding.md` R82). -/
theorem decodeEvent_nonzeroField {r : EventRecord} (hk : kindOf r = 0b10#2 ∨ kindOf r = 0b11#2)
    (hf : levelOf r ≠ 0#1 ∨ cycleOf r ≠ 0#32) : ∃ why, decodeEvent r = .noEvent why := by
  by_cases h33 : reservedOf r = 1#1
  · exact decodeEvent_reserved (.inr h33)
  · have plain : ∀ i, decodePlainEvent r i = .noEvent .nonzeroField := fun i =>
      if_neg fun ⟨hl, hc⟩ => hf.elim (absurd hl) (absurd hc)
    obtain hk | hk := hk
    · exact ⟨_, (decodeEvent_ackTimeout h33 hk).trans (plain _)⟩
    · exact ⟨_, (decodeEvent_reset h33 hk).trans (plain _)⟩

end Sys2Proof.Machine

namespace Sys2Proof

open Machine Claims Laws.RoundTrip

/-- Settles O3: a reserved opcode and a nonzero NONE argument are illegal by the decoder, and an illegal BUFSEL by
`Resolve` (`withBuffer_illegal`). -/
theorem illegalWordsAnswerIllegal : Obligations.IllegalWordsAnswerIllegal := by
  intro s rest opc arg hin h
  have ho : opcodeOf (opc ++ arg) = opc := opcodeOf_commandWord opc arg
  have ha : argOf (opc ++ arg) = arg := argOf_commandWord opc arg
  obtain hres | ⟨hnone, hne⟩ | ⟨hsel, hne, hq⟩ := h
  · exact step_illegalWord hin (decodeCommand_reservedOpcode (by rwa [ho]))
  · exact step_illegalWord hin (decodeCommand_nonzeroArgument (by rwa [ho]) (by rwa [ha]))
  · have raises := withBuffer_illegal (s := { s with inputs := rest }) ⟨hne, hq⟩
    obtain rfl | rfl | rfl := bufselOpcode_cases hsel
    · exact (step_instr hin (crcCompute arg)).trans (raises _)
    · exact (step_instr hin (crcVerify arg)).trans (raises _)
    · exact (step_instr hin (crcRepair arg)).trans (raises _)

/-- Settles O4: the decoder's reading of each kind of record, carried to the step by `step_noEvent` and
`step_instr`. -/
theorem recordsSpellEvents : Obligations.RecordsSpellEvents := by
  intro s r rest hin
  refine ⟨fun h => ?_, fun hk hf => ?_, fun h33 => ?_⟩
  · obtain ⟨_, hd⟩ := decodeEvent_reserved h
    exact step_noEvent hin hd
  · obtain ⟨_, hd⟩ := decodeEvent_nonzeroField hk hf
    exact step_noEvent hin hd
  · have hclear : reservedOf r ≠ 1#1 := fun h => absurd (h33.symm.trans h) (by decide)
    refine ⟨fun hk => step_instr hin (decodeEvent_edge hclear hk), fun hl hc => ⟨fun hk => ?_, fun hk => ?_⟩⟩
    · exact step_instr hin ((decodeEvent_ackTimeout hclear hk).trans (if_pos ⟨hl, hc⟩))
    · exact step_instr hin ((decodeEvent_reset hclear hk).trans (if_pos ⟨hl, hc⟩))

end Sys2Proof

/-! PROOFS. Words written out in the spec (O2), what a step runs (O5), and the line code (O40). -/

namespace Sys2Proof.Machine

open Claims

theorem dataByte_getLsbD (u : LineUnit) (i : Nat) :
    (dataByte u).getLsbD i = if i < 4 then (u.extractLsb' 1 4).getLsbD i else (u.extractLsb' 6 4).getLsbD (i - 4) :=
  BitVec.getLsbD_append

/-- `Unpack` takes bits 9 to 6 and 4 to 1 of a unit (`30_encoding.md` R96). -/
theorem unpack_eq_dataByte (u : LineUnit) : unpack u = dataByte u := by
  apply BitVec.eq_of_getLsbD_eq
  intro i hi
  rw [dataByte_getLsbD]
  interval_cases i <;> simp [unpack]

end Sys2Proof.Machine

namespace Sys2Proof

open Machine Claims

/-- Settles O2: the decoder evaluates on each of the written words. -/
theorem writtenWordsDecode : Obligations.WrittenWordsDecode := by
  unfold Obligations.WrittenWordsDecode
  decide

/-- Settles O5: `step_instr` for a presentation that decodes, and the idle step for none. -/
theorem stepRunsDecoded : Obligations.StepRunsDecoded := by
  refine ⟨fun s p rest i hin hd => step_instr hin hd, fun s hin => ?_⟩
  simp only [step, takeInput, hin]
  rfl

/-- Settles O40: what `Unpack` takes is `unpack_eq_dataByte`; the packed units are those of the 256 bytes. -/
theorem unpackInvertsPack : Obligations.UnpackInvertsPack :=
  ⟨by decide, unpack_eq_dataByte, rfl, rfl⟩

end Sys2Proof

/-! PROOFS. What the response port carries after each instruction: one response after a command and none after an event
(O51), a raise that changes nothing (O50), and the cause of each status (O52). -/

namespace Sys2Proof.Machine

open Claims

/-! ### Whether there is a response -/

/-- An event has no response (`30_encoding.md` R81). -/
theorem exec_event_rsp {i : Instr} {s t : State} (hc : i.isCommand = false) (h : exec i s = .next t) :
    t.outputs.rsp = none := by
  cases i with
  | edge L c =>
    obtain ⟨-, rfl⟩ | ⟨-, d, -, -, w⟩ := execEdge_cases h
    · rfl
    · exact w.rsp
  | ackTimeout =>
    obtain ⟨-, rfl⟩ | ⟨-, d, -, rfl⟩ := execAckTimeout_cases h
    · rfl
    · split <;> rfl
  | reset =>
    cases h
    rfl
  | _ => cases hc

/-- An instruction with a response is a command. -/
theorem isCommand_of_rsp {i : Instr} {s t : State} {r : Response} (h : exec i s = .next t)
    (hr : t.outputs.rsp = some r) : i.isCommand = true := by
  by_contra hc
  cases (exec_event_rsp (Bool.eq_false_iff.mpr hc) h).symm.trans hr

/-- A command that answers a status other than ST_OK wrote no register and carries data 0 (`60_exceptions.md` R243). -/
theorem CommandWrites.of_raise {s u : State} {i : Instr} {st : Status} {v : Word} (w : CommandWrites s i st v u)
    (h : st ≠ .ok) : u = s ∧ v = 0#32 := by
  cases w with
  | nothing _ _ _ hv => exact ⟨rfl, hv.resolve_left h⟩
  | attach | drain | fixed | unfixed => exact absurd rfl h

/-- A response that is not ST_OK is all that its command wrote. -/
theorem exec_raise {i : Instr} {s t : State} {r : Response} (h : exec i s = .next t) (hr : t.outputs.rsp = some r)
    (hst : r.status ≠ .ok) : r.data = 0#32 ∧ t = answer r.status 0#32 s := by
  obtain ⟨st, v, u, w, rfl⟩ := exec_command (isCommand_of_rsp h hr) h
  cases hr
  obtain ⟨rfl, rfl⟩ := w.of_raise hst
  exact ⟨rfl, rfl⟩

/-! ### The cause of each status -/

/-- A next state that `i` answers in `s` carries a response with the status that the causes ask for
(`60_exceptions.md` R242). -/
def AnswersByCause (s : State) (i : Instr) : Result → Prop
  | .next t => ∃ (st : Status) (v : Word), t.outputs.rsp = some { status := st, data := v } ∧
      (st = .illegal ↔ IllegalCause s i) ∧ (st = .busy ↔ BusyInstr s i)
  | .fault _ => True
  | .refused _ => True

section Causes

variable {s : State} {i : Instr}

theorem answersByCause_respond (hill : ¬ IllegalCause s i) (hbusy : ¬ BusyInstr s i) {v : Word} {u : State} :
    AnswersByCause s i (respond v u) :=
  ⟨.ok, v, rfl, by simpa using hill, by simpa using hbusy⟩

theorem answersByCause_illegal (hill : IllegalCause s i) (hbusy : ¬ BusyInstr s i) :
    AnswersByCause s i (raiseIllegal s) :=
  ⟨.illegal, 0#32, rfl, by simpa using hill, by simpa using hbusy⟩

theorem answersByCause_busy (hill : ¬ IllegalCause s i) (hbusy : BusyInstr s i) :
    AnswersByCause s i (raiseBusy s) :=
  ⟨.busy, 0#32, rfl, by simpa using hill, by simpa using hbusy⟩

theorem answersByCause_withTail {f : Descriptor → Result} (hf : ∀ d, AnswersByCause s i (f d)) :
    AnswersByCause s i (s.withTail f) := by
  unfold State.withTail
  split
  · exact hf _
  · trivial

theorem answersByCause_withHead {f : Descriptor → Result} (hf : ∀ d, AnswersByCause s i (f d)) :
    AnswersByCause s i (s.withHead f) := by
  unfold State.withHead
  split
  · exact hf _
  · trivial

theorem answersByCause_withOutByte {k : Nat} {f : Byte → Result} (hf : ∀ b, AnswersByCause s i (f b)) :
    AnswersByCause s i (withOutByte s k f) := by
  unfold withOutByte
  split
  · exact hf _
  · trivial

/-- An accessor whose only cause is a frame in OUT that is too short. -/
theorem answersByCause_requireSize {k : Nat} {run : Result} (hill : IllegalCause s i ↔ s.out.size.toNat < k)
    (hbusy : ¬ BusyInstr s i) (hrun : ¬ IllegalCause s i → AnswersByCause s i run) :
    AnswersByCause s i (requireSize k s run) := by
  unfold requireSize
  split
  · next hk => exact answersByCause_illegal (hill.mpr hk) hbusy
  · next hk => exact hrun (mt hill.mp hk)

/-- A command whose causes are those of its BUFSEL (`40_crc.md` R121). -/
theorem answersByCause_withBuffer {sel : Byte} {f : BufferRef → Memory → Nat → Result}
    (hill : IllegalCause s i ↔ sel ≠ 0x80#8 ∧ s.params.q ≤ sel.toNat) (hbusy : BusyInstr s i ↔ BusyCause s sel)
    (hf : ¬ IllegalCause s i → ¬ BusyInstr s i → ∀ ref m n, AnswersByCause s i (f ref m n)) :
    AnswersByCause s i (withBuffer sel s f) := by
  rw [← resolve_illegal] at hill
  rw [← resolve_busy] at hbusy
  unfold withBuffer
  cases hr : resolve sel s with
  | buffer ref m n => exact hf (by simp [hill, hr]) (by simp [hbusy, hr]) ref m n
  | busy => exact answersByCause_busy (by simp [hill, hr]) (hbusy.mpr hr)
  | illegal => exact answersByCause_illegal (hill.mpr hr) (by simp [hbusy, hr])
  | absent why => trivial

theorem answersByCause_repairBuffer (hill : ¬ IllegalCause s i) (hbusy : ¬ BusyInstr s i) (ref : BufferRef) (m : Memory)
    (n : Nat) (u : State) : AnswersByCause s i (repairBuffer ref m n u) := by
  unfold repairBuffer
  dsimp only
  split <;> exact answersByCause_respond hill hbusy

end Causes

/-- The register numbers 0 to 5 are assigned, and no other (`10_state.md` R41). -/
theorem regNum_eq_none {num : Byte} : regNum num = none ↔ 6 ≤ num.toNat := by
  rw [← Option.not_isSome_iff_eq_none, regNum_isSome, regNumLegal, decide_eq_true_iff]
  omega

theorem answersByCause_execReadReg (s : State) (num : Byte) :
    AnswersByCause s (.readReg num) (execReadReg num s) := by
  have hbusy : ¬ BusyInstr s (.readReg num) := not_false
  have hill : IllegalCause s (.readReg num) ↔ regNum num = none := regNum_eq_none.symm
  unfold execReadReg
  split
  case h_1 hr =>
    exact answersByCause_withTail fun t => answersByCause_withHead fun h =>
      answersByCause_respond (by simp [hill, hr]) hbusy
  case h_7 hr => exact answersByCause_illegal (hill.mpr hr) hbusy
  all_goals next hr => exact answersByCause_respond (by simp [hill, hr]) hbusy

/-- Every command answers by its causes. -/
theorem exec_answersByCause {i : Instr} (s : State) (hc : i.isCommand = true) : AnswersByCause s i (exec i s) := by
  cases i with
  | setup =>
    simp only [exec, execSetup]
    split <;> exact answersByCause_respond (i := .setup) not_false not_false
  | receive =>
    refine answersByCause_withTail fun d => ?_
    split <;> exact answersByCause_respond (i := .receive) not_false not_false
  | available => exact answersByCause_withTail fun d => answersByCause_respond (i := .available) not_false not_false
  | getCount | getCorrupt | getRepaired | outSize | outMeta | outSeqno =>
    refine answersByCause_respond ?_ ?_ <;> exact not_false
  | readReg num => exact answersByCause_execReadReg s num
  | crcCompute sel | crcVerify sel =>
    exact answersByCause_withBuffer Iff.rfl Iff.rfl fun hill hbusy _ m n => answersByCause_respond hill hbusy
  | crcRepair sel =>
    refine answersByCause_withBuffer Iff.rfl Iff.rfl fun hill hbusy ref m n => ?_
    split
    · exact answersByCause_respond hill hbusy
    · exact answersByCause_repairBuffer hill hbusy ref m n s
  | outByte index =>
    simp only [exec, execOutByte]
    split
    · next hk => exact answersByCause_illegal hk not_false
    · next hk => exact answersByCause_withOutByte fun b => answersByCause_respond (i := .outByte index) hk not_false
  | frameIden =>
    exact answersByCause_requireSize Iff.rfl not_false fun hill => answersByCause_withOutByte fun b1 =>
      answersByCause_withOutByte fun b2 => answersByCause_respond hill not_false
  | frameFlags =>
    exact answersByCause_requireSize Iff.rfl not_false fun hill => answersByCause_withOutByte fun b2 =>
      answersByCause_respond hill not_false
  | frameDatalen =>
    exact answersByCause_requireSize Iff.rfl not_false fun hill => answersByCause_respond hill not_false
  | frameCrc =>
    exact answersByCause_requireSize Iff.rfl not_false fun hill => answersByCause_withOutByte fun hi =>
      answersByCause_withOutByte fun lo => answersByCause_respond hill not_false
  | edge _ _ | ackTimeout | reset => cases hc

/-! ### The codes of the response port -/

theorem Status.code_eq_illegal {st : Status} : st.code = 0b01#2 ↔ st = .illegal := by
  cases st <;> decide

theorem Status.code_eq_busy {st : Status} : st.code = 0b10#2 ↔ st = .busy := by
  cases st <;> decide

theorem Status.code_eq_ok {st : Status} : st.code = 0b00#2 ↔ st = .ok := by
  cases st <;> decide

theorem Status.code_ne_reserved (st : Status) : st.code ≠ 0b11#2 := by
  cases st <;> decide

/-- The response port shows the response of the step (`30_encoding.md` R80). -/
theorem responsePort_eq_some {t : State} {code : BitVec 2} {v : Word} :
    t.responsePort = some (code, v) ↔ ∃ r, t.outputs.rsp = some r ∧ r.status.code = code ∧ r.data = v := by
  simp [State.responsePort]

end Sys2Proof.Machine

namespace Sys2Proof

open Machine Claims

/-- Settles O50, by `exec_raise`. -/
theorem raiseChangesNothing : Obligations.RaiseChangesNothing :=
  fun _ _ _ _ h hr hst => (exec_raise h hr hst).2

/-- Settles O51: a command ends in `answered`, and an event by `exec_event_rsp`. -/
theorem oneResponsePerCommand : Obligations.OneResponsePerCommand := by
  refine fun i s t h => ⟨fun hc => ?_, fun hc => exec_event_rsp hc h⟩
  obtain ⟨st, v, u, -, rfl⟩ := exec_command hc h
  exact ⟨{ status := st, data := v }, rfl⟩

/-- Settles O52: a response is a command's, whose status follows its causes (`exec_answersByCause`), and a raise carries
data 0 (`exec_raise`). -/
theorem statusCauses : Obligations.StatusCauses := by
  intro i s t code v h hport
  obtain ⟨r, hr, rfl, rfl⟩ := responsePort_eq_some.mp hport
  have hcause := exec_answersByCause s (isCommand_of_rsp h hr)
  rw [h] at hcause
  obtain ⟨st, w, hw, hill, hbusy⟩ := hcause
  obtain rfl : r = { status := st, data := w } := Option.some.inj (hr.symm.trans hw)
  exact ⟨Status.code_eq_illegal.trans hill, Status.code_eq_busy.trans hbusy, Status.code_ne_reserved st,
    fun hne => (exec_raise h hr (mt Status.code_eq_ok.mpr hne)).1⟩

end Sys2Proof

/-! PROOFS. The edge that ends a run in a frame being decoded: the run's writes to the assembly registers, the unit it
completes, and the data unit that leaves room (O36). -/

namespace Sys2Proof.Machine

open Claims

/-! ### The run an edge ends -/

section Run

variable {s : State} {L : Level} {t : Word} {d : Descriptor} {n jout k left : Nat}

/-- The state in which the run is appended: the edge recorded, the step ports low, the run's jitter stored. -/
def classified (s : State) (t : Word) (jout : Nat) : State := storeJitter jout (recordEdge t s.quiet)

/-- An edge at an active head of an enabled block is the processing of its run (`42_frame_fsm.md` R161, R165). -/
theorem exec_edge_of_endsRun (h : EndsRun s t d n jout) :
    exec (.edge L t) s =
      if 9 < n then .next (onLongRun d (classified s t jout)) else onShortRun d L n (classified s t jout) := by
  have hrun : classify (recordEdge t s.quiet).params (effectiveCycles (edgeDelta t s) (recordEdge t s.quiet)) =
      (n, jout) := h.run
  have hedge : exec (.edge L t) s = onEdge d L (edgeDelta t s) (recordEdge t s.quiet) := by
    simp only [exec, execEdge, h.enabled, if_true]
    exact withHead_some h.head
  have hactive : onEdge d L (edgeDelta t s) (recordEdge t s.quiet) =
      onEdgeRun d L (edgeDelta t s) (recordEdge t s.quiet) := by
    unfold onEdge
    obtain hs | hs := h.active <;> rw [hs]
  rw [hedge, hactive]
  simp only [onEdgeRun, hrun]
  rfl

theorem eats_classified : eats (classified s t jout) n = true ↔ Eaten s n := decide_eq_true_iff

/-- The eat rule keeps the run's length as the statements say it (`41_bit_timing.md` R146). -/
theorem eatenLength_classified (hk : Kept s n k) : eatenLength (classified s t jout) n = k := by
  unfold eatenLength
  by_cases he : Eaten s n
  · rw [if_pos (eats_classified.mpr he), hk.1 he]
  · rw [if_neg (mt eats_classified.mp he), hk.2 he]

/-- A classification's jitter fits JIT (`10_state.md` R33). -/
theorem jitter_lt_of_endsRun (h : EndsRun s t d n jout) : jout < 2 ^ 32 := by
  have hrun : (runOf s t).2 = jout := congrArg Prod.snd h.run
  have hle : (runOf s t).2 ≤ s.params.thr6 - s.params.thr5 - 1 := classify_jitter_le _ _
  obtain ⟨-, ⟨-, -, -, -, -, hthr6⟩, -⟩ := h.legal
  omega

/-- The eat rule writes JIT as the statements say it, and at most the free-value counter beside it
(`41_bit_timing.md` R146, R148). -/
theorem eatRule_classified (h : EndsRun s t d n jout) :
    ∃ (j : Word) (f : Nat), JitterAfter s n jout j f ∧
      eatRule n (classified s t jout) = { classified s t jout with jit := j, freeCount := f } := by
  have hstored : (classified s t jout).jit.toNat = jout := Nat.mod_eq_of_lt (jitter_lt_of_endsRun h)
  unfold eatRule
  by_cases he : Eaten s n
  · rw [if_pos (eats_classified.mpr he), carryEatenBit, hstored]
    by_cases hfit : jout + s.params.eatCarry < 2 ^ 32
    · have hsum : (BitVec.ofNat 32 (jout + s.params.eatCarry)).toNat = jout + s.params.eatCarry :=
        Nat.mod_eq_of_lt hfit
      exact ⟨_, s.freeCount, ⟨absurd he, fun _ _ => ⟨hsum, rfl⟩⟩, if_pos hfit⟩
    · exact ⟨_, _, ⟨absurd he, fun _ hfit' => absurd hfit' hfit⟩, if_neg hfit⟩
  · rw [if_neg (mt eats_classified.mp he)]
    exact ⟨_, _, ⟨fun _ => ⟨hstored, rfl⟩, fun he' => absurd he' he⟩, rfl⟩

theorem runFill_eq (L : Level) (k : Nat) :
    runFill L k = if L = .low then BitVec.ofNat 32 (2 ^ k - 1) else 0#32 := by
  cases L <;> rfl

/-- What a run of at most nine bits leaves in the assembly registers (`42_frame_fsm.md` R167). -/
theorem appendRun_eatRule_classified (h : EndsRun s t d n jout) (L : Level) (hk : Kept s n k) :
    ∃ (j : Word) (f : Nat), JitterAfter s n jout j f ∧
      appendRun L (eatenLength (classified s t jout) n) (eatRule n (classified s t jout)) =
        assembled s L t k (s.atBit.toNat + k) j f := by
  obtain ⟨j, f, hj, heat⟩ := eatRule_classified h
  refine ⟨j, f, hj, ?_⟩
  rw [eatenLength_classified hk, heat, assembled, bitsAfter, ← runFill_eq, BitVec.ofNat_add, BitVec.ofNat_toNat,
    BitVec.setWidth_eq]
  rfl

/-! ### The unit a run completes -/

/-- The ten oldest unassembled bits (`42_frame_fsm.md` R168): the mask is that of the ten low ones. -/
theorem extractUnit_eq (bits : Word) (left : Nat) : extractUnit bits left = (bits >>> left).setWidth 10 := by
  unfold extractUnit
  rw [BitVec.setWidth_and]
  exact BitVec.and_allOnes

/-- A completed unit goes to the rule of the head state, with the surplus bits left unassembled
(`42_frame_fsm.md` R168). -/
theorem onUnit_assembled (hleft : left + 10 < 2 ^ 5) (j : Word) (f : Nat) :
    onUnit d (assembled s L t k (left + 10) j f) =
      if d.state = .searching then onSofUnit d (unitOf s L k left) (assembled s L t k left j f)
      else onDataUnit d (unitOf s L k left) (assembled s L t k left j f) := by
  have htake : BitVec.ofNat 5 (left + 10) - 10#5 = BitVec.ofNat 5 left := by
    rw [BitVec.ofNat_add, BitVec.add_sub_cancel]
  have hcount : (BitVec.ofNat 5 left).toNat = left := Nat.mod_eq_of_lt (by omega)
  have hunit : extractUnit (bitsAfter s L k) (BitVec.ofNat 5 left).toNat = unitOf s L k left := by
    rw [hcount, extractUnit_eq, unitOf]
  simp only [onUnit, assembled, htake, hunit]

/-- An edge that completes a unit runs the rule of the head state on it. -/
theorem exec_edge_of_completesUnit (h : CompletesUnit s t d n jout k left) (L : Level) :
    ∃ (j : Word) (f : Nat), JitterAfter s n jout j f ∧
      exec (.edge L t) s =
        if d.state = .searching then onSofUnit d (unitOf s L k left) (assembled s L t k left j f)
        else onDataUnit d (unitOf s L k left) (assembled s L t k left j f) := by
  obtain ⟨j, f, hj, happend⟩ := appendRun_eatRule_classified h.toEndsRun L h.kept
  rw [h.completes] at happend
  have hk : k ≤ n := eatenLength_classified (t := t) (jout := jout) h.kept ▸ eatenLength_le _ n
  have hleft : left + 10 < 2 ^ 5 := by
    have hshort := h.short
    have hassembling := h.assembling
    have hcompletes := h.completes
    omega
  have hfull : 10 ≤ (assembled s L t k (left + 10) j f).atBit.toNat :=
    (Nat.le_add_left 10 left).trans_eq (Nat.mod_eq_of_lt hleft).symm
  refine ⟨j, f, hj, ?_⟩
  rw [exec_edge_of_endsRun h.toEndsRun, if_neg (Nat.not_lt.mpr h.short)]
  simp only [onShortRun, happend, if_pos hfull]
  exact onUnit_assembled hleft j f

/-! ### The data unit -/

/-- What the data unit makes of the head descriptor, in the words of the statements (`42_frame_fsm.md` R170, R171). -/
theorem grown_eq_appended (p : Config.Params) (d : Descriptor) (u : LineUnit) : d.grown p u = appended p d u := by
  have hchecked : checkedResult p u d.result = (appended p d u).result := by
    unfold checkedResult manchesterResult appended checkBitsBad
    by_cases hp : p.manchesterCheck = true <;> simp [hp]
  unfold Descriptor.grown
  rw [hchecked, unpack_eq_dataByte]
  rfl

/-- A head-slot write at a known head descriptor sets that slot. -/
theorem modifyHead_eq_set {s : State} {d e : Descriptor} {g : Descriptor → Descriptor}
    (hd : s.slot[s.head.toNat]? = some d) (hg : g d = e) :
    s.modifyHead g = { s with slot := s.slot.set s.head.toNat e } := by
  rw [State.modifyHead, State.modifySlot, modify_eq_set_slot hd, hg]

/-- A data unit that finds room in the buffer is stored, and what is left to do is `afterAppend`. -/
theorem onDataUnit_eq {s : State} {d : Descriptor} (hd : s.slot[s.head.toNat]? = some d) (u : LineUnit)
    (hroom : d.size.toNat < s.params.maxPacket) :
    onDataUnit d u s = .next (afterAppend u (d.size + 1#8)
      { s with slot := s.slot.set s.head.toNat (appended s.params d u) }) := by
  obtain ⟨v, hv⟩ := completes_onDataUnit u hroom
  obtain ⟨g, hg, rfl⟩ := onDataUnit_next hv
  rw [hv, modifyHead_eq_set hd (hg.trans (grown_eq_appended s.params d u))]

/-- An edge that completes a data unit stores it (`42_frame_fsm.md` R170). -/
theorem exec_edge_of_dataUnit (h : CompletesUnit s t d n jout k left) (hs : d.state = .loading)
    (hroom : d.size.toNat < s.params.maxPacket) (L : Level) :
    ∃ (j : Word) (f : Nat), JitterAfter s n jout j f ∧
      exec (.edge L t) s = .next (afterAppend (unitOf s L k left) (d.size + 1#8)
        { assembled s L t k left j f with
          slot := s.slot.set s.head.toNat (appended s.params d (unitOf s L k left)) }) := by
  obtain ⟨j, f, hj, hexec⟩ := exec_edge_of_completesUnit h L
  refine ⟨j, f, hj, ?_⟩
  rw [hexec, if_neg (by simp [hs])]
  exact onDataUnit_eq (s := assembled s L t k left j f) h.head _ hroom

/-- A unit that is neither EOD nor the last that fits has no effect after its append. -/
theorem afterAppend_loading {s : State} {u : LineUnit} {size : Byte} (heod : isEod u = false)
    (hfull : size.toNat ≠ s.params.maxPacket) : afterAppend u size s = s := by
  unfold afterAppend
  rw [if_neg (by simp [heod]), if_neg hfull]

end Run
end Sys2Proof.Machine

namespace Sys2Proof

open Machine Claims

/-- Settles O36: the edge stores its unit (`exec_edge_of_dataUnit`), and no end of the frame follows
(`afterAppend_loading`). -/
theorem dataUnitAppendsByte : Obligations.DataUnitAppendsByte := by
  intro s L t d n jout k left h hs hmore heod
  have hroom : d.size.toNat < s.params.maxPacket := Nat.lt_of_succ_lt hmore
  have hfull : (d.size + 1#8).toNat ≠ s.params.maxPacket := by
    rw [size_succ h.legal hroom]
    exact Nat.ne_of_lt hmore
  obtain ⟨j, f, hj, hexec⟩ := exec_edge_of_dataUnit h hs hroom L
  refine ⟨j, f, hj, ?_⟩
  rw [hexec, afterAppend_loading]
  · simpa [isEod] using heod
  · exact hfull

end Sys2Proof

/-! PROOFS. The CRC register and the two functions of it: the register bit by bit (O11), the CRC field a frame should
carry, and its round trip (O19). A single-bit error changes the register (O17). -/

namespace Sys2Proof.Machine

open Claims

/-! ### The register -/

theorem shiftLeft_one_eq_ofNat (c : CrcRegister) : c <<< 1 = BitVec.ofNat 15 (2 * c.toNat) := by
  apply BitVec.eq_of_toNat_eq
  simp [Nat.shiftLeft_eq, Nat.mul_comm]

/-- The bit step is the one of `40_crc.md` R120. -/
theorem crcBit_eq_specCrcBit (c : CrcRegister) (b : Bool) : crcBit c b = specCrcBit c b := by
  unfold crcBit specCrcBit
  rw [← shiftLeft_one_eq_ofNat]
  simp [crcPoly]

/-- A byte is eight bit steps, bit 7 first. -/
theorem crcByte_eq_foldl_specCrcBit (c : CrcRegister) (v : Byte) :
    crcByte c v = (List.range 8).foldl (fun c k => specCrcBit c (v.getLsbD (7 - k))) c := by
  simp only [← crcBit_eq_specCrcBit]
  rfl

/-! ### The CRC field -/

/-- A frame below 3 bytes has no body: the complement of the initial register is 0 (`40_crc.md` R124). -/
theorem crcCompute_short {m : Memory} {n : Nat} (h : n < 3) : crcCompute m n = 0#16 := by
  unfold crcCompute
  rw [if_neg (by omega)]
  decide

/-- The field of a frame of at least 3 bytes (`40_crc.md` R122). -/
theorem crcCompute_eq {m : Memory} {n : Nat} (h : 3 ≤ n) :
    crcCompute m n = (crcReg m 1 (n - 2) ^^^ 0x7FFF#15).setWidth 16 <<< 1 := by
  unfold crcCompute
  rw [if_pos h]

theorem toNat_setWidth_shiftLeft_one (c : CrcRegister) : (c.setWidth 16 <<< 1).toNat = 2 * c.toNat := by
  have hc := c.isLt
  rw [BitVec.toNat_shiftLeft, BitVec.toNat_setWidth, Nat.shiftLeft_eq]
  omega

/-- Bit 0 of the field is 0: it is shifted in. -/
theorem crcCompute_getLsbD_zero (m : Memory) (n : Nat) : (crcCompute m n).getLsbD 0 = false := by
  simp [crcCompute]

/-- The field is a function of the frame's body (`40_crc.md` R124). -/
theorem crcCompute_congr {m m' : Memory} {n : Nat} (h : ∀ i, 1 ≤ i → i + 2 < n → m.read i = m'.read i) :
    crcCompute m n = crcCompute m' n := by
  by_cases hn : 3 ≤ n
  · rw [crcCompute_eq hn, crcCompute_eq hn, crcReg_congr fun i h1 hi => h i h1 (by omega)]
  · rw [crcCompute_short (by omega), crcCompute_short (by omega)]

/-! ### The verdict -/

theorem crcVerify_eq_true {m : Memory} {n : Nat} : crcVerify m n = true ↔ crcReg m 1 n = crcResidue := beq_iff_eq

/-- An empty range leaves the initial register, which is not the residue (`40_crc.md` R123). -/
theorem crcVerify_short {m : Memory} {n : Nat} (h : n ≤ 1) : crcVerify m n = false := by
  unfold crcVerify
  rw [crcReg_empty h]
  decide

/-- Flipping one covered bit of a frame that verifies changes its register, so the verdict (`40_crc.md` R125). -/
theorem crcVerify_flipped {m : Memory} {n i j : Nat} (hm : m.wf = true) (hv : crcVerify m n = true) (hi : 1 ≤ i)
    (hn : i < n) (hj : j < 8) : crcVerify (flipped m i j) n = false := by
  rw [crcVerify_eq_true] at hv
  have hflip : crcReg (flipped m i j) 1 n = crcResidue ^^^ crcShifts (j + 8 * (n - 1 - i)) crcPoly :=
    hv ▸ crcReg_flip hm hi hn hj
  refine Bool.eq_false_iff.mpr fun hbad => crcShifts_poly_ne_zero (j + 8 * (n - 1 - i)) ?_
  rw [crcVerify_eq_true, hflip] at hbad
  simpa using hbad

/-! ### The round trip

The register after the field's two bytes is linear in the register before them. With the register's own bits as the
field it comes to 0; the complement adds a constant, the residue. -/

/-- With its own top bit as the input bit, a step only shifts. -/
theorem crcBit_top (c : CrcRegister) : crcBit c (c.getLsbD 14) = c <<< 1 := by
  simp [crcBit]

/-- With the register's own top eight bits as the input byte, the register is shifted out. -/
theorem crcByte_top {c : CrcRegister} {v : Byte} {a : Nat}
    (h : ∀ k < 8, v.getLsbD (7 - k) = (c <<< (a + k)).getLsbD 14) : crcByte (c <<< a) v = c <<< (a + 8) := by
  have step : ∀ k < 8, crcBit (c <<< (a + k)) (v.getLsbD (7 - k)) = c <<< (a + k + 1) := fun k hk => by
    rw [h k hk, crcBit_top, BitVec.shiftLeft_add c (a + k) 1]
  simp only [crcByte, List.foldl_cons, List.foldl_nil]
  rw [show crcBit (c <<< a) (v.getLsbD 7) = c <<< (a + 1) from step 0 (by decide), step 1 (by decide),
    step 2 (by decide), step 3 (by decide), step 4 (by decide), step 5 (by decide), step 6 (by decide),
    step 7 (by decide)]

/-- The register after the two bytes of a 16-bit field, high byte first. -/
def crcField (c : CrcRegister) (f : BitVec 16) : CrcRegister :=
  crcByte (crcByte c (f.extractLsb' 8 8)) (f.extractLsb' 0 8)

theorem crcField_xor (a b : CrcRegister) (x y : BitVec 16) :
    crcField (a ^^^ b) (x ^^^ y) = crcField a x ^^^ crcField b y := by
  simp only [crcField, BitVec.extractLsb'_xor, crcByte_xor]

/-- The register's own bits as the field shift the whole register out. -/
theorem crcField_self (c : CrcRegister) : crcField c (c.setWidth 16 <<< 1) = 0#15 := by
  have bit : ∀ k < 16, (c.setWidth 16 <<< 1).getLsbD (15 - k) = (c <<< k).getLsbD 14 := by
    intro k hk
    rw [BitVec.getLsbD_shiftLeft, BitVec.getLsbD_shiftLeft, BitVec.getLsbD_setWidth]
    by_cases h15 : k = 15
    · subst h15
      rfl
    · simp [show 15 - k - 1 = 14 - k by omega, show ¬ 14 < k by omega, show ¬ 15 - k < 1 by omega,
        show 15 - k < 16 by omega, show 14 - k < 16 by omega]
  have high : crcByte c ((c.setWidth 16 <<< 1).extractLsb' 8 8) = c <<< (0 + 8) := by
    conv_lhs => rw [← BitVec.shiftLeft_zero c]
    refine crcByte_top fun k hk => ?_
    rw [BitVec.getLsbD_extractLsb', ← bit (0 + k) (by omega)]
    simp [show 7 - k < 8 by omega, show 8 + (7 - k) = 15 - k by omega]
  have low : crcByte (c <<< (0 + 8)) ((c.setWidth 16 <<< 1).extractLsb' 0 8) = c <<< (0 + 8 + 8) := by
    refine crcByte_top fun k hk => ?_
    rw [BitVec.getLsbD_extractLsb', ← bit (0 + 8 + k) (by omega)]
    simp [show 7 - k < 8 by omega, show 15 - (8 + k) = 7 - k by omega]
  rw [crcField, high, low]
  exact BitVec.shiftLeft_eq_zero (by decide)

/-- The complement of the register as the field gives the residue, whatever the register (`40_crc.md` R128). -/
theorem crcField_complement (c : CrcRegister) :
    crcField c ((c ^^^ 0x7FFF#15).setWidth 16 <<< 1) = crcResidue := by
  have hconst : crcField 0#15 ((0x7FFF#15).setWidth 16 <<< 1) = crcResidue := by decide +kernel
  have hlin := crcField_xor c 0#15 (c.setWidth 16 <<< 1) ((0x7FFF#15).setWidth 16 <<< 1)
  rw [BitVec.xor_zero, crcField_self, BitVec.zero_xor, hconst, ← BitVec.shiftLeft_xor_distrib,
    ← BitVec.setWidth_xor] at hlin
  exact hlin

/-- The register of a frame after a field is written at its end, high byte first. -/
theorem crcReg_write_field {m : Memory} {k : Nat} (hm : m.wf = true) (hk : 1 ≤ k) (f : BitVec 16) :
    crcReg ((m.write k (f.extractLsb' 8 8)).write (k + 1) (f.extractLsb' 0 8)) 1 (k + 2) =
      crcField (crcReg m 1 k) f := by
  have read : ∀ i, ((m.write k (f.extractLsb' 8 8)).write (k + 1) (f.extractLsb' 0 8)).read i =
      if i = k + 1 then f.extractLsb' 0 8 else if i = k then f.extractLsb' 8 8 else m.read i := fun i => by
    rw [Memory.read_write (Memory.wf_write hm), Memory.read_write hm]
  rw [crcReg_succ (Nat.le_succ_of_le hk), crcReg_succ hk, read, if_pos rfl, read, if_neg (Nat.ne_of_lt k.lt_succ_self),
    if_pos rfl, crcReg_congr (m' := m) fun i _ hi => by rw [read, if_neg (by omega), if_neg (by omega)]]
  rfl

end Sys2Proof.Machine

namespace Sys2Proof

open Machine Claims

/-- Settles O11: the empty range (`crcReg_empty`), one byte more (`crcReg_succ`) in the spec's bit steps
(`crcByte_eq_foldl_specCrcBit`), and the range read (`crcReg_congr`). -/
theorem crcRegisterFollowsBytes : Obligations.CrcRegisterFollowsBytes :=
  fun _ _ _ => ⟨crcReg_empty, fun h => (crcReg_succ h).trans (crcByte_eq_foldl_specCrcBit _ _),
    fun _ h => crcReg_congr h⟩

/-- Settles O17, by `crcVerify_flipped`. -/
theorem singleBitErrorDetected : Obligations.SingleBitErrorDetected :=
  fun _ _ _ _ => crcVerify_flipped

/-- Settles O19: the register after the field is that of the body run over the field (`crcReg_write_field`), and the
field is its complement (`crcField_complement`). -/
theorem computedCrcVerifies : Obligations.ComputedCrcVerifies := by
  intro m n hm hn
  obtain ⟨k, rfl⟩ : ∃ k, n = k + 2 := ⟨n - 2, by omega⟩
  rw [crcVerify_eq_true, crcCompute_eq hn]
  exact (crcReg_write_field hm (by omega) _).trans (crcField_complement _)

end Sys2Proof

/-! PROOFS. The CRC commands: the buffer a BUFSEL names and what it raises (O12), what CRC_COMPUTE and CRC_VERIFY
answer (O13, O14), and the repair (O15, O16, O18). -/

namespace Sys2Proof.Machine

open Claims

/-! ### The named buffer -/

/-- The buffer a legal BUFSEL reaches (`30_encoding.md` R85). -/
def namedRef (sel : Byte) : BufferRef := if sel = 0x80#8 then .out else .pool sel.toNat

/-- What `Resolve` answers, in the words of the statements (`40_crc.md` R121). -/
theorem resolve_buffer_iff_names {s : State} {sel : Byte} {ref : BufferRef} {m : Memory} {n : Nat} :
    resolve sel s = .buffer ref m n ↔
      ∃ d, Names s sel d ∧ d.size.toNat ≤ s.params.maxPacket ∧ ref = namedRef sel ∧ m = d.bytes ∧ n = d.size.toNat := by
  rw [resolve_buffer]
  constructor
  · rintro (⟨rfl, rfl, rfl, rfl, hfit⟩ | ⟨hsel, hq, rfl, d, hd, hdone, rfl, rfl, hfit⟩)
    · exact ⟨s.out, .inl ⟨rfl, rfl⟩, hfit, rfl, rfl, rfl⟩
    · exact ⟨d, .inr ⟨hsel, hq, hd, hdone⟩, hfit, (if_neg hsel).symm, rfl, rfl⟩
  · rintro ⟨d, ⟨rfl, rfl⟩ | ⟨hsel, hq, hd, hdone⟩, hfit, rfl, rfl, rfl⟩
    · exact .inl ⟨rfl, rfl, rfl, rfl, hfit⟩
    · exact .inr ⟨hsel, hq, if_neg hsel, d, hd, hdone, rfl, rfl, hfit⟩

theorem setBuffer_namedRef (s : State) (sel : Byte) (m : Memory) :
    s.setBuffer (namedRef sel) m = rewritten s sel m := by
  unfold namedRef rewritten
  split <;> rfl

theorem rewritten_params (s : State) (sel : Byte) (m : Memory) : (rewritten s sel m).params = s.params := by
  rw [← setBuffer_namedRef, State.setBuffer_params]

/-- A BUFSEL that names a pool slot that is not DONE raises ST_BUSY, whatever the command would do with the buffer. -/
theorem withBuffer_busy {s : State} {sel : Byte} (h : BusyCause s sel) (f : BufferRef → Memory → Nat → Result) :
    withBuffer sel s f = .next (answer .busy 0#32 s) := by
  unfold withBuffer
  rw [resolve_busy.mpr h]
  rfl

section Named

variable {s : State} {sel : Byte} {d : Descriptor} (hd : Names s sel d)
include hd

/-- Writing the named buffer's own contents changes nothing. -/
theorem rewritten_self : rewritten s sel d.bytes = s := by
  obtain ⟨rfl, rfl⟩ | ⟨hsel, -, hd, -⟩ := hd
  · rfl
  · rw [rewritten, if_neg hsel, modify_eq_self_slot]
    intro e he
    obtain rfl := Option.some.inj (hd.symm.trans he)
    rfl

/-- After the named buffer is rewritten the argument names the descriptor with the new contents. -/
theorem names_rewritten (m : Memory) : Names (rewritten s sel m) sel { d with bytes := m } := by
  obtain ⟨rfl, rfl⟩ | ⟨hsel, hq, hd, hdone⟩ := hd
  · exact .inl ⟨rfl, rfl⟩
  · rw [rewritten, if_neg hsel]
    exact .inr ⟨hsel, hq, by rw [getElem?_modify_slot, if_pos rfl, hd]; rfl, hdone⟩

/-- In a state that meets the invariant the named descriptor's buffer and length are in order. -/
theorem State.Inv.bufferOk_of_names (h : s.Inv) : d.BufferOk s.params := by
  obtain ⟨-, rfl⟩ | ⟨-, -, hd, -⟩ := hd
  · exact h.outOk.buffer
  · exact (h.poolOk _ d hd).buffer

variable (hfit : d.size.toNat ≤ s.params.maxPacket)
include hfit

theorem resolve_of_names : resolve sel s = .buffer (namedRef sel) d.bytes d.size.toNat :=
  resolve_buffer_iff_names.mpr ⟨d, hd, hfit, rfl, rfl, rfl⟩

theorem withBuffer_of_names (f : BufferRef → Memory → Nat → Result) :
    withBuffer sel s f = f (namedRef sel) d.bytes d.size.toNat := by
  unfold withBuffer
  rw [resolve_of_names hd hfit]

/-! ### What CRC_REPAIR answers for a named buffer -/

/-- A buffer that verifies is left alone (`40_crc.md` R126). -/
theorem exec_crcRepair_clean (hv : crcVerify d.bytes d.size.toNat = true) :
    exec (.crcRepair sel) s = .next (answer .ok 1#32 s) :=
  (withBuffer_of_names hd hfit _).trans (if_pos hv)

/-- A buffer that does not verify is searched. -/
theorem exec_crcRepair_bad (hv : crcVerify d.bytes d.size.toNat = false) :
    exec (.crcRepair sel) s = repairBuffer (namedRef sel) d.bytes d.size.toNat s :=
  (withBuffer_of_names hd hfit _).trans (if_neg (by simp [hv]))

/-- The flip that the search keeps is kept and counted (`40_crc.md` R126). -/
theorem exec_crcRepair_fixed (hv : crcVerify d.bytes d.size.toNat = false) {i j : Nat} {m : Memory}
    (hs : repairSearch d.size.toNat (repairOrder d.size.toNat) d.bytes = (some (i, j), m)) :
    exec (.crcRepair sel) s = .next (answer .ok (repairWord i j)
      { rewritten s sel m with nCorrupt := s.nCorrupt + 1#32, nRepaired := s.nRepaired + 1#32 }) := by
  rw [exec_crcRepair_bad hd hfit hv]
  simp only [repairBuffer, hs, setBuffer_namedRef]
  unfold rewritten
  split <;> rfl

/-- A search that keeps no flip has restored the buffer (`40_crc.md` R126). -/
theorem exec_crcRepair_unfixed (hv : crcVerify d.bytes d.size.toNat = false)
    (hs : repairSearch d.size.toNat (repairOrder d.size.toNat) d.bytes = (none, d.bytes)) :
    exec (.crcRepair sel) s = .next (answer .ok 0#32 { s with nCorrupt := s.nCorrupt + 1#32 }) := by
  have hcounted : Names { s with nCorrupt := s.nCorrupt + 1#32 } sel d := hd
  rw [exec_crcRepair_bad hd hfit hv]
  simp only [repairBuffer, hs, setBuffer_namedRef, rewritten_self hcounted]
  rfl

end Named

/-! ### The order of the flips -/

theorem repairOrder_pairwise (n : Nat) : (repairOrder n).Pairwise fun f g => TriedBefore f.1 f.2 g.1 g.2 := by
  refine List.pairwise_flatMap.mpr ⟨fun i _ => ?_, List.pairwise_lt_range.imp fun hlt f hf g hg => ?_⟩
  · exact List.pairwise_map.mpr (List.pairwise_lt_range.imp fun hlt => .inr ⟨rfl, hlt⟩)
  · obtain ⟨_, -, rfl⟩ := List.mem_map.mp hf
    obtain ⟨_, -, rfl⟩ := List.mem_map.mp hg
    exact .inl hlt

/-- The flips before a flip in the list are those tried before it (`40_crc.md` R126). -/
theorem repairOrder_split {n i j : Nat} (hi : i < n) (hj : j < 8) :
    ∃ before after, repairOrder n = before ++ (i, j) :: after ∧
      ∀ g ∈ before, (g.1 < n ∧ g.2 < 8) ∧ TriedBefore g.1 g.2 i j := by
  obtain ⟨before, after, heq⟩ := List.append_of_mem (mem_repairOrder.mpr ⟨hi, hj⟩)
  refine ⟨before, after, heq, fun g hg => ⟨mem_repairOrder.mp (by simp [heq, hg]), ?_⟩⟩
  have hpair := repairOrder_pairwise n
  rw [heq, List.pairwise_append] at hpair
  obtain ⟨-, -, hcross⟩ := hpair
  exact hcross g hg (i, j) (by simp)

/-- The search keeps the first flip that verifies (`40_crc.md` R126). -/
theorem repairSearch_first {m : Memory} {n i j : Nat} (hm : m.wf = true) (hi : i < n) (hj : j < 8)
    (hv : crcVerify (flipped m i j) n = true)
    (hfirst : ∀ i' j', i' < n → j' < 8 → TriedBefore i' j' i j → crcVerify (flipped m i' j') n = false) :
    repairSearch n (repairOrder n) m = (some (i, j), flipped m i j) := by
  obtain ⟨before, after, heq, hbefore⟩ := repairOrder_split hi hj
  refine (repairSearch_spec hm _).2 before (i, j) after heq (fun g hg => ?_) hv
  obtain ⟨⟨hgi, hgj⟩, htried⟩ := hbefore g hg
  exact hfirst g.1 g.2 hgi hgj htried

/-- The search keeps no flip where none verifies, and restores the buffer (`40_crc.md` R126). -/
theorem repairSearch_none {m : Memory} {n : Nat} (hm : m.wf = true)
    (hnone : ∀ i j, i < n → j < 8 → crcVerify (flipped m i j) n = false) :
    repairSearch n (repairOrder n) m = (none, m) := by
  refine (repairSearch_spec hm _).1 fun f hf => ?_
  obtain ⟨hi, hj⟩ := mem_repairOrder.mp hf
  exact hnone f.1 f.2 hi hj

/-! ### A flip of a frame with one wrong bit -/

theorem flipped_wf {m : Memory} {i j : Nat} (hm : m.wf = true) : (flipped m i j).wf = true := Memory.wf_write hm

/-- Flipping the same bit again restores the buffer. -/
theorem flipped_flipped {m : Memory} {i j : Nat} (hm : m.wf = true) : flipped (flipped m i j) i j = m := by
  refine Memory.ext_wf (flipped_wf (flipped_wf hm)) hm fun k => ?_
  rw [flipped, Memory.read_write (flipped_wf hm), flipped, Memory.read_write hm, Memory.read_write hm, if_pos rfl]
  by_cases hk : k = i
  · rw [if_pos hk, hk, BitVec.xor_assoc, BitVec.xor_self, BitVec.xor_zero]
  · rw [if_neg hk, if_neg hk]

/-- No flip of byte 0 changes the verdict (`40_crc.md` R126). -/
theorem crcVerify_flipped_zero {m : Memory} (n : Nat) (hm : m.wf = true) (j : Nat) :
    crcVerify (flipped m 0 j) n = crcVerify m n := crcVerify_write_zero hm

/-- In a frame of at most 224 bytes with one wrong bit, no flip but that of the wrong bit verifies (`40_crc.md` R127):
the two flips would shift the polynomial equally far, below the order of x. -/
theorem eq_of_crcVerify_flipped_flipped {m : Memory} {n i j i' j' : Nat} (hm : m.wf = true)
    (hv : crcVerify m n = true) (hn : n ≤ 224) (hi : 1 ≤ i) (hin : i < n) (hj : j < 8) (hin' : i' < n) (hj' : j' < 8)
    (h : crcVerify (flipped (flipped m i j) i' j') n = true) : i' = i ∧ j' = j := by
  have hbad : crcVerify (flipped m i j) n = false := crcVerify_flipped hm hv hi hin hj
  have hi' : 1 ≤ i' := Nat.one_le_iff_ne_zero.mpr fun h0 => by
    rw [h0, crcVerify_flipped_zero n (flipped_wf hm), hbad] at h
    exact absurd h Bool.false_ne_true
  have hreg : crcReg (flipped (flipped m i j) i' j') 1 n =
      crcReg m 1 n ^^^ crcShifts (j + 8 * (n - 1 - i)) crcPoly ^^^ crcShifts (j' + 8 * (n - 1 - i')) crcPoly :=
    (crcReg_flip (flipped_wf hm) hi' hin' hj').trans (congrArg (· ^^^ _) (crcReg_flip hm hi hin hj))
  rw [crcVerify_eq_true] at h hv
  rw [h, hv, BitVec.xor_assoc] at hreg
  have hshift : crcShifts (j + 8 * (n - 1 - i)) crcPoly = crcShifts (j' + 8 * (n - 1 - i')) crcPoly :=
    BitVec.xor_eq_zero_iff.mp (by simpa using hreg.symm)
  have hdist := crcShifts_poly_injective (by omega) (by omega) hshift
  omega

/-! ### A repair that answers FIXED -/

/-- A CRC_REPAIR whose answer has FIXED set has left a named buffer that verifies (`40_crc.md` R126). -/
theorem names_verifying_of_repair_fixed {s t : State} {sel : Byte} {v : Word} (h : s.Inv)
    (hexec : exec (.crcRepair sel) s = .next t) (hrsp : t.outputs.rsp = some { status := .ok, data := v })
    (hfixed : v.getLsbD 1 = true) :
    ∃ d, Names t sel d ∧ d.size.toNat ≤ t.params.maxPacket ∧ crcVerify d.bytes d.size.toNat = true := by
  have notFixed : ∀ (w : Word) (u : State), w.getLsbD 1 = false →
      exec (.crcRepair sel) s ≠ .next (answer .ok w u) := fun w u hw he => by
    cases he.symm.trans hexec
    cases hrsp
    exact absurd (hfixed.symm.trans hw) (by decide)
  obtain ⟨ref, m, n, hr, -⟩ | ⟨-, hraise⟩ | ⟨-, hraise⟩ := withBuffer_next hexec
  · obtain ⟨d, hd, hfit, -⟩ := resolve_buffer_iff_names.mp hr
    cases hv : crcVerify d.bytes d.size.toNat with
    | true => exact absurd (exec_crcRepair_clean hd hfit hv) (notFixed _ _ (by decide))
    | false =>
      have hcanonical := (h.bufferOk_of_names hd).canonical
      obtain hs | ⟨f, -, hok, hs⟩ := repairSearch_cases (n := d.size.toNat) hcanonical (repairOrder d.size.toNat)
      · exact absurd (exec_crcRepair_unfixed hd hfit hv hs) (notFixed _ _ (by decide))
      · cases (exec_crcRepair_fixed hd hfit hv hs).symm.trans hexec
        exact ⟨_, names_rewritten hd _, (rewritten_params s sel _).symm ▸ hfit, hok⟩
  · cases raise_next.mp hraise
    cases hrsp
  · cases raise_next.mp hraise
    cases hrsp

end Sys2Proof.Machine

namespace Sys2Proof

open Machine Claims

/-- Settles O12: the raises are `Resolve`'s, whatever the command (`withBuffer_illegal`, `withBuffer_busy`). -/
theorem resolveRaises : Obligations.ResolveRaises := by
  refine fun s sel => ⟨fun hsel hq => ?_, fun d hsel hq hd hbusy => ?_, fun d hd hfit => resolve_of_names hd hfit⟩
  · exact ⟨withBuffer_illegal ⟨hsel, hq⟩ _, withBuffer_illegal ⟨hsel, hq⟩ _, withBuffer_illegal ⟨hsel, hq⟩ _⟩
  · have hcause : BusyCause s sel := ⟨hsel, d, hq, hd, hbusy⟩
    exact ⟨withBuffer_busy hcause _, withBuffer_busy hcause _, withBuffer_busy hcause _⟩

/-- Settles O13: the answer is the field of the named buffer (`withBuffer_of_names`); the field itself by
`crcCompute_short`, `crcCompute_eq` and `crcCompute_congr`. -/
theorem crcComputeAnswers : Obligations.CrcComputeAnswers := by
  refine ⟨fun s sel d hd hfit => withBuffer_of_names hd hfit _, fun m n => ⟨crcCompute_short, fun hn => ?_,
    crcCompute_getLsbD_zero m n, fun _ h => crcCompute_congr h⟩⟩
  rw [crcCompute_eq hn, toNat_setWidth_shiftLeft_one]

/-- Settles O14: the answer is the verdict on the named buffer (`withBuffer_of_names`). -/
theorem crcVerifyAnswers : Obligations.CrcVerifyAnswers := by
  refine ⟨fun s sel d hd hfit => ?_, fun m n => ⟨crcVerify_short, fun _ hm => crcVerify_write_zero hm⟩⟩
  refine (withBuffer_of_names hd hfit _).trans ?_
  rw [boolWord, if_congr crcVerify_eq_true rfl rfl]
  rfl

/-- Settles O15: the raises of `Resolve`, and for a named buffer the clean path, the first flip of the order that
verifies (`repairSearch_first`), or none (`repairSearch_none`). -/
theorem repairKeepsFirstVerifyingFlip : Obligations.RepairKeepsFirstVerifyingFlip := by
  refine ⟨fun s sel hsel => ⟨fun hq => withBuffer_illegal ⟨hsel, hq⟩ _,
    fun d hq hd hbusy => withBuffer_busy ⟨hsel, d, hq, hd, hbusy⟩ _⟩, fun s sel d hd hfit hm => ?_⟩
  refine ⟨exec_crcRepair_clean hd hfit, fun hbad => ⟨fun i j hi hj hv hfirst => ?_, fun hnone => ?_⟩,
    crcVerify_flipped_zero _ hm⟩
  · exact exec_crcRepair_fixed hd hfit hbad (repairSearch_first hm hi hj hv hfirst)
  · exact exec_crcRepair_unfixed hd hfit hbad (repairSearch_none hm hnone)

/-- Settles O16: the first repair leaves a buffer that verifies (`names_verifying_of_repair_fixed`), which the second
leaves alone. -/
theorem repairTwiceCountsOnce : Obligations.RepairTwiceCountsOnce := by
  intro s t sel v h hexec hrsp hfixed
  obtain ⟨d, hd, hfit, hv⟩ := names_verifying_of_repair_fixed h hexec hrsp hfixed
  exact exec_crcRepair_clean hd hfit hv

/-- Settles O18: the first flip that verifies is that of the wrong bit, since no other verifies
(`eq_of_crcVerify_flipped_flipped`), and it restores the frame (`flipped_flipped`). -/
theorem repairRestoresSingleBitError : Obligations.RepairRestoresSingleBitError := by
  intro s sel d m i j hd hfit hn hm hv hi hin hj hwrong
  have hbad : crcVerify d.bytes d.size.toNat = false := hwrong ▸ crcVerify_flipped hm hv hi hin hj
  refine exec_crcRepair_fixed hd hfit hbad ?_
  have hrestore : flipped d.bytes i j = m := hwrong ▸ flipped_flipped hm
  have hfirst : ∀ i' j', i' < d.size.toNat → j' < 8 → TriedBefore i' j' i j →
      crcVerify (flipped d.bytes i' j') d.size.toNat = false := by
    intro i' j' hi' hj' htried
    refine Bool.eq_false_iff.mpr fun hv' => ?_
    obtain ⟨rfl, rfl⟩ := eq_of_crcVerify_flipped_flipped hm hv hn hi hin hj hi' hj' (hwrong ▸ hv')
    exact htried.elim (Nat.lt_irrefl _) fun ⟨_, hlt⟩ => Nat.lt_irrefl _ hlt
  have hkept := repairSearch_first (hwrong ▸ flipped_wf hm) hin hj (hrestore.symm ▸ hv) hfirst
  rwa [hrestore] at hkept

end Sys2Proof

/-! PROOFS. Bit timing: the bands of a classification (O25), its order (O26), the delta and the recorded edge (O27), and
the run that completes no unit (O34). -/

namespace Sys2Proof.Machine

open Claims

/-! ### The order of a classification -/

/-- A band of constant value `a` below the rest of a classification: where the rest takes over it is at least `a`, and
it grows with the count, so the whole does too. -/
theorem band_mono {a c c' thr v v' : Nat} (hc : c ≤ c') (hv : thr ≤ c → a ≤ v) (hv' : thr ≤ c' → a ≤ v')
    (hrest : v ≤ v') :
    a ≤ (if c < thr then a else v) ∧ (if c < thr then a else v) ≤ (if c' < thr then a else v') := by
  by_cases h : c < thr
  · rw [if_pos h]
    refine ⟨le_rfl, ?_⟩
    split_ifs with h'
    · exact le_rfl
    · exact hv' (Nat.le_of_not_lt h')
  · rw [if_neg h, if_neg (by omega)]
    exact ⟨hv (Nat.le_of_not_lt h), hrest⟩

/-- The same where the rest is at least `b` everywhere, and the band's constant at most that. -/
theorem band_below_mono {a b c c' thr v v' : Nat} (hc : c ≤ c') (hab : a ≤ b) (hrest : b ≤ v ∧ v ≤ v') :
    a ≤ (if c < thr then a else v) ∧ (if c < thr then a else v) ≤ (if c' < thr then a else v') := by
  obtain ⟨hb, hv⟩ := hrest
  exact band_mono hc (fun _ => hab.trans hb) (fun _ => hab.trans (hb.trans hv)) hv

/-- The linear formula grows with the count. -/
theorem linear_mono (p : Config.Params) {c c' : Nat} (hc : c ≤ c') :
    (c + p.linAdd) / p.linDiv ≤ (c' + p.linAdd) / p.linDiv :=
  Nat.div_le_div_right (Nat.add_le_add_right hc p.linAdd)

/-- The jitter band and the linear formula above it: at least 5 bits, growing with the count (`00_scope.md` R8). -/
theorem linear_above_thr6_mono {p : Config.Params} {c c' : Nat} (h : p.FallbackLegal) (hc : c ≤ c') :
    5 ≤ (if c < p.thr6 then 5 else (c + p.linAdd) / p.linDiv) ∧
      (if c < p.thr6 then 5 else (c + p.linAdd) / p.linDiv) ≤
        (if c' < p.thr6 then 5 else (c' + p.linAdd) / p.linDiv) := by
  obtain ⟨-, -, -, hfive⟩ := h
  have habove : ∀ e, p.thr6 ≤ e → 5 ≤ (e + p.linAdd) / p.linDiv := fun e he => hfive.trans (linear_mono p he)
  exact band_mono hc (habove c) (habove c') (linear_mono p hc)

/-- The run length of a classification, band by band (`41_bit_timing.md` R143). -/
theorem classify_length (p : Config.Params) (c : Nat) :
    (classify p c).1 =
      if c < p.thr1 then 1 else if c < p.thr2 then 2 else if c < p.thr3 then 3 else if c < p.thr4 then 4
      else if c < p.thr5 then 5 else if c < p.thr6 then 5 else (c + p.linAdd) / p.linDiv := by
  simp only [classify, apply_ite Prod.fst]

/-! ### The delta -/

/-- The delta is the difference modulo 2^32 (`41_bit_timing.md` R140). -/
theorem edgeDelta_toNat (s : State) (t : Word) :
    (edgeDelta t s).toNat = (t.toNat + 2 ^ 32 - s.prev.toNat) % 2 ^ 32 := by
  have hprev : s.prev.toNat < 2 ^ 32 := s.prev.isLt
  have hdiff : 2 ^ 32 - s.prev.toNat + t.toNat = t.toNat + 2 ^ 32 - s.prev.toNat := by omega
  rw [edgeDelta, BitVec.toNat_sub, hdiff]

/-! ### The run that completes no unit -/

/-- An edge that ends a run of at most nine bits and leaves fewer than ten assembled only appends the run
(`42_frame_fsm.md` R165, R167). -/
theorem exec_edge_of_shortRun {s : State} {t : Word} {d : Descriptor} {n jout k : Nat} (h : EndsRun s t d n jout)
    (L : Level) (hshort : n ≤ 9) (hk : Kept s n k) (hfew : s.atBit.toNat + k < 10) :
    ∃ (j : Word) (f : Nat), JitterAfter s n jout j f ∧
      exec (.edge L t) s = .next (assembled s L t k (s.atBit.toNat + k) j f) := by
  obtain ⟨j, f, hj, happend⟩ := appendRun_eatRule_classified h L hk
  have hnone : ¬ 10 ≤ (assembled s L t k (s.atBit.toNat + k) j f).atBit.toNat :=
    Nat.not_le.mpr ((Nat.mod_le _ _).trans_lt hfew)
  refine ⟨j, f, hj, ?_⟩
  rw [exec_edge_of_endsRun h, if_neg (Nat.not_lt.mpr hshort)]
  simp only [onShortRun, happend, if_neg hnone]

end Sys2Proof.Machine

namespace Sys2Proof

open Machine Claims

/-- Settles O25: each band is a branch of the classification, reached past the thresholds below it; the jitter's bound
is `classify_jitter_le`. -/
theorem classifyBands : Obligations.ClassifyBands := by
  intro p c
  refine ⟨fun h1 => ?_, fun h1 h2 => ?_, fun h1 h2 h3 => ?_, fun h1 h2 h3 h4 => ?_, fun h1 h2 h3 h4 h5 => ?_,
    fun h1 h2 h3 h4 h5 h6 => ?_, fun h1 h2 h3 h4 h5 h6 => ?_, fun hband => ?_⟩
  · rw [classify, if_pos h1]
  · rw [classify, if_neg h1.not_gt, if_pos h2]
  · rw [classify, if_neg h1.not_gt, if_neg h2.not_gt, if_pos h3]
  · rw [classify, if_neg h1.not_gt, if_neg h2.not_gt, if_neg h3.not_gt, if_pos h4]
  · rw [classify, if_neg h1.not_gt, if_neg h2.not_gt, if_neg h3.not_gt, if_neg h4.not_gt, if_pos h5]
  · rw [classify, if_neg h1.not_gt, if_neg h2.not_gt, if_neg h3.not_gt, if_neg h4.not_gt, if_neg h5.not_gt, if_pos h6]
  · rw [classify, if_neg h1.not_gt, if_neg h2.not_gt, if_neg h3.not_gt, if_neg h4.not_gt, if_neg h5.not_gt,
      if_neg h6.not_gt]
  · exact (classify_jitter_le p c).trans_lt (Nat.sub_one_lt_of_lt (Nat.sub_pos_of_lt hband))

/-- Settles O26: the bands lie in order below the linear formula (`band_below_mono`), which at THR6 is already as long
as the band below it (`linear_above_thr6_mono`). -/
theorem classifyMonotone : Obligations.ClassifyMonotone := by
  intro p c c' hlegal hc
  obtain ⟨-, -, hfallback⟩ := hlegal
  rw [classify_length, classify_length]
  have from5 := band_below_mono (thr := p.thr5) hc (le_refl 5) (linear_above_thr6_mono hfallback hc)
  have from4 := band_below_mono (thr := p.thr4) hc (Nat.le_succ 4) from5
  have from3 := band_below_mono (thr := p.thr3) hc (Nat.le_succ 3) from4
  have from2 := band_below_mono (thr := p.thr2) hc (Nat.le_succ 2) from3
  exact band_below_mono hc (Nat.le_succ 1) from2

/-- Settles O27: the delta is a 32-bit subtraction (`edgeDelta_toNat`), and what an enabled edge writes after it is
recorded keeps PREV (`EdgeWrites`). -/
theorem edgeDeltaWrapsAndRecords : Obligations.EdgeDeltaWrapsAndRecords := by
  refine ⟨edgeDelta_toNat, fun s u L t henabled hexec => ?_⟩
  obtain ⟨hdisabled, -⟩ | ⟨-, d, -, -, hwrites⟩ := execEdge_cases hexec
  · exact absurd henabled (by simp [hdisabled])
  · exact hwrites.prev

/-- Settles O34: the run is appended and no unit follows (`exec_edge_of_shortRun`). -/
theorem shortRunAppends : Obligations.ShortRunAppends :=
  fun _ L _ _ _ _ _ h hshort hk hfew => exec_edge_of_shortRun h L hshort hk hfew

end Sys2Proof

/-! PROOFS. What an edge does at a head that decodes no run (O28 to O31), what a timeout does (O39), and how a run ends
a search or a frame: an over-long run (O32, O33), the first unit (O35), the end of data (O37), a full buffer (O38). -/

namespace Sys2Proof.Machine

open Claims

/-! ### The head slot's completion -/

section Head

variable {s : State} {d : Descriptor} (hd : s.slot[s.head.toNat]? = some d)
include hd

/-- `AdvanceHead` completes the frame the head slot holds (`42_frame_fsm.md` R175). -/
theorem advanceHead_eq : advanceHead s = completedWith s d := by
  rw [advanceHead, modifyHead_eq_set hd rfl]
  rfl

/-- The same after a write of the head slot. -/
theorem advanceHead_modifyHead (g : Descriptor → Descriptor) :
    advanceHead (s.modifyHead g) = completedWith s (g d) := by
  rw [advanceHead, modifyHead_modifyHead, modifyHead_eq_set hd rfl]
  rfl

/-! ### Units -/

/-- The SOF match (`42_frame_fsm.md` R169). -/
theorem onSofUnit_match (hroom : 0 < s.params.maxPacket) :
    onSofUnit d sofUnit s = .next
      { s with
        slot := s.slot.set s.head.toNat
          { d with bytes := d.bytes.write 0 sofByte, size := 1#8, seqNo := s.seq, state := .loading }
        seq := s.seq + 1#32 } := by
  rw [onSofUnit, if_neg (not_not.mpr rfl), storeHeadByte_of_lt hroom, unpack_sofUnit]
  dsimp only
  rw [modifyHead_modifyHead, modifyHead_eq_set hd rfl]
  rfl

/-- A false start (`42_frame_fsm.md` R169). -/
theorem onSofUnit_falseStart {u : LineUnit} (hu : u ≠ sofUnit) :
    onSofUnit d u s = .next { s with slot := s.slot.set s.head.toNat { d with state := .vacant } } := by
  rw [onSofUnit, if_pos hu, modifyHead_eq_set hd rfl]

/-- A stored unit that ends the data opens the acknowledgement window, full buffer or not (`42_frame_fsm.md` R172). -/
theorem afterAppend_eod {u : LineUnit} (size : Byte) (e : Descriptor) (heod : isEod u = true) :
    afterAppend u size { s with slot := s.slot.set s.head.toNat e } =
      { s with
        slot := s.slot.set s.head.toNat { e with state := .waitingAck }
        timerArmed := true
        outputs := { s.outputs with armAckTimer := true } } := by
  rw [afterAppend, if_pos heod, ← modifyHead_eq_set hd (g := fun _ => e) rfl, enterWaitAck, modifyHead_modifyHead,
    modifyHead_eq_set hd rfl]
  rfl

/-- A stored unit that fills the buffer and does not end the data ends the frame (`42_frame_fsm.md` R173). -/
theorem afterAppend_full {u : LineUnit} {size : Byte} (e : Descriptor) (heod : isEod u = false)
    (hfull : size.toNat = s.params.maxPacket) :
    afterAppend u size { s with slot := s.slot.set s.head.toNat e } =
      completedWith s { e with result := .errorMaxPacket } := by
  rw [afterAppend, if_neg (by simp [heod]), if_pos hfull, ← modifyHead_eq_set hd (g := fun _ => e) rfl, overflow,
    forceComplete, modifyHead_modifyHead, advanceHead_modifyHead hd]
  rfl

end Head

/-- An edge of an enabled block is recorded and goes to the rule of the head state (`42_frame_fsm.md` R161). -/
theorem exec_edge_of_enabled {s : State} {t : Word} {d : Descriptor} (L : Level) (henabled : s.enabled = true)
    (hd : s.slot[s.head.toNat]? = some d) :
    exec (.edge L t) s = onEdge d L (edgeDelta t s) (recordEdge t s.quiet) := by
  simp only [exec, execEdge, henabled, if_true]
  exact withHead_some hd

end Sys2Proof.Machine

namespace Sys2Proof

open Machine Claims

/-- Settles O28: ENABLED gates the edge before PREV is written. -/
theorem edgeBeforeSetupIgnored : Obligations.EdgeBeforeSetupIgnored := by
  intro s L t hdisabled
  simp only [exec, execEdge, hdisabled]
  rfl

/-- Settles O29: a DONE head's rule writes OVERRUN alone, at a falling edge. -/
theorem edgeAtDoneHead : Obligations.EdgeAtDoneHead := by
  intro s L t d henabled hd hs
  rw [exec_edge_of_enabled L henabled hd, onEdge, hs]
  cases L <;> rfl

/-- Settles O30: a VACANT head's rule starts a search at a falling edge alone. -/
theorem edgeAtVacantHead : Obligations.EdgeAtVacantHead := by
  intro s t d henabled hd hs
  constructor
  · rw [exec_edge_of_enabled .high henabled hd, onEdge, hs]
    rfl
  · have hstart := modifyHead_eq_set (s := recordEdge t s.quiet) (g := Descriptor.started) hd rfl
    rw [exec_edge_of_enabled .low henabled hd, onEdge, hs]
    dsimp only [onEdgeVacant]
    rw [hstart]
    rfl

/-- Settles O31: the acknowledgement is written to the frame and the frame is completed (`advanceHead_modifyHead`). -/
theorem edgeAcknowledges : Obligations.EdgeAcknowledges := by
  intro s L t d henabled hd hs
  rw [exec_edge_of_enabled L henabled hd, onEdge, hs]
  dsimp only [onEdgeAck]
  rw [advanceHead_modifyHead (s := recordEdge t s.quiet) hd]
  rfl

/-- Settles O39: a pending timeout completes the frame only at a head that waits (`advanceHead_eq`). -/
theorem ackTimeoutCompletes : Obligations.AckTimeoutCompletes := by
  refine fun s => ⟨fun hidle => ?_, fun d harmed hd => ?_⟩
  · simp only [exec, execAckTimeout, hidle]
    rfl
  · have hexec : exec .ackTimeout s = .next
        (if d.state = .waitingAck then advanceHead { s.quiet with timerArmed := false }
          else { s.quiet with timerArmed := false }) := by
      simp only [exec, execAckTimeout, harmed, if_true]
      exact withHead_some hd
    refine ⟨fun hs => ?_, fun hs => ?_⟩
    · rw [hexec, if_pos hs, advanceHead_eq (s := { s.quiet with timerArmed := false }) hd]
      rfl
    · rw [hexec, if_neg hs]
      rfl

/-- Settles O32: the restart clears the assembly registers, the run's jitter included. -/
theorem longRunRestartsSearch : Obligations.LongRunRestartsSearch := by
  intro s L t d n jout h hn hs
  rw [exec_edge_of_endsRun h, if_pos hn, onLongRun, if_pos hs, restartSearch,
    modifyHead_eq_set (s := classified s t jout) h.head rfl]
  rfl

/-- Settles O33: the result is written to the frame and the frame is completed (`advanceHead_modifyHead`). -/
theorem longRunEndsFrame : Obligations.LongRunEndsFrame := by
  intro s L t d n jout h hn hs
  rw [exec_edge_of_endsRun h, if_pos hn, onLongRun, if_neg (by simp [hs]), forceComplete,
    advanceHead_modifyHead (s := classified s t jout) h.head]
  rfl

/-- Settles O35: the first unit is the SOF pattern (`onSofUnit_match`) or a false start (`onSofUnit_falseStart`). -/
theorem firstUnitStartsOrReverts : Obligations.FirstUnitStartsOrReverts := by
  intro s L t d n jout k left h hs
  obtain ⟨j, f, hj, hexec⟩ := exec_edge_of_completesUnit h L
  obtain ⟨⟨-, hfive, -⟩, -⟩ := h.legal
  have hroom : 0 < s.params.maxPacket := Nat.lt_of_lt_of_le (by decide) hfive
  rw [if_pos hs] at hexec
  refine ⟨j, f, hj, fun hsof => ?_, fun hfalse => ?_⟩
  · rw [hexec, hsof]
    exact onSofUnit_match (s := assembled s L t k left j f) h.head hroom
  · rw [hexec]
    exact onSofUnit_falseStart (s := assembled s L t k left j f) h.head hfalse

/-- Settles O37: the unit is stored (`exec_edge_of_dataUnit`) and the end of data is looked at before the capacity
(`afterAppend_eod`). -/
theorem eodOpensAckWindow : Obligations.EodOpensAckWindow := by
  intro s L t d n jout k left h hs hroom heod
  obtain ⟨j, f, hj, hexec⟩ := exec_edge_of_dataUnit h hs hroom L
  refine ⟨j, f, hj, ?_⟩
  rw [hexec]
  exact congrArg _ (afterAppend_eod (s := assembled s L t k left j f) h.head _ _ (beq_iff_eq.mpr heod))

/-- Settles O38: the unit is stored (`exec_edge_of_dataUnit`) and completes the frame (`afterAppend_full`). -/
theorem fullBufferEndsFrame : Obligations.FullBufferEndsFrame := by
  intro s L t d n jout k left h hs hlast heod
  have hroom : d.size.toNat < s.params.maxPacket := Nat.lt_of_succ_le hlast.le
  have hfull : (d.size + 1#8).toNat = s.params.maxPacket := (size_succ h.legal hroom).trans hlast
  obtain ⟨j, f, hj, hexec⟩ := exec_edge_of_dataUnit h hs hroom L
  refine ⟨j, f, hj, ?_⟩
  rw [hexec]
  exact congrArg _ (afterAppend_full (s := assembled s L t k left j f) h.head _ (beq_eq_false_iff_ne.mpr heod) hfull)

end Sys2Proof

/-! PROOFS. An edge stores at most the next byte of the head frame (O49): the bytes of the head descriptor are read off
the whole next states of O28 to O38. -/

namespace Sys2Proof.Machine

open Claims

/-- Byte `i` is where the next unit of the frame `d` is stored: the SOF byte first, then the byte after the last
(`42_frame_fsm.md` R169, R170). -/
def Descriptor.StoresAt (d : Descriptor) (i : Nat) : Prop :=
  (d.state = .searching ∧ i = 0) ∨ (d.state = .loading ∧ i = d.size.toNat)

/-- `e` reads as `d` at every byte but the one where the next unit of `d` is stored. -/
def Descriptor.AgreesElsewhere (d e : Descriptor) : Prop := ∀ i, ¬ d.StoresAt i → e.bytes.read i = d.bytes.read i

theorem Descriptor.agreesElsewhere_of_bytes {d e : Descriptor} (h : e.bytes = d.bytes) : d.AgreesElsewhere e :=
  fun i _ => congrArg (Memory.read · i) h

/-- A store of the next unit's byte. -/
theorem Descriptor.agreesElsewhere_of_write {d e : Descriptor} {k : Nat} {v : Byte} (hwf : d.bytes.wf = true)
    (hk : d.StoresAt k) (h : e.bytes = d.bytes.write k v) : d.AgreesElsewhere e := by
  intro i hi
  have hne : i ≠ k := fun hik => hi (hik ▸ hk)
  rw [h, Memory.read_write hwf, if_neg hne]

/-- From `s` to `t`, OUT stays and the pool is written at the head slot alone, whose descriptor was `d` and agrees with
it elsewhere. -/
structure StoresNextByte (s t : State) (d : Descriptor) : Prop where
  out : t.out = s.out
  slot : ∃ e, t.slot = s.slot.set s.head.toNat e ∧ d.AgreesElsewhere e

section Edge

variable {s t : State} {d : Descriptor} {L : Level} {c : Word} {n jout k left : Nat}

/-- A write of the head slot that leaves its bytes. -/
theorem StoresNextByte.of_bytes (hout : t.out = s.out) {e : Descriptor} (hslot : t.slot = s.slot.set s.head.toNat e)
    (he : e.bytes = d.bytes) : StoresNextByte s t d :=
  ⟨hout, e, hslot, Descriptor.agreesElsewhere_of_bytes he⟩

theorem StoresNextByte.of_slot_eq (hd : s.slot[s.head.toNat]? = some d) (hout : t.out = s.out)
    (hslot : t.slot = s.slot) : StoresNextByte s t d := by
  refine .of_bytes hout (e := d) ?_ rfl
  obtain ⟨hlt, rfl⟩ := List.getElem?_eq_some_iff.mp hd
  rw [hslot, List.set_getElem_self]

/-- The run length that the eat rule keeps exists (`41_bit_timing.md` R146). -/
theorem exists_kept (s : State) (n : Nat) : ∃ k, Kept s n k := by
  by_cases he : Eaten s n
  · exact ⟨n - 1, fun _ => rfl, absurd he⟩
  · exact ⟨n, fun he' => absurd he' he, fun _ => rfl⟩

/-- An edge at a head that decodes no run stores nothing (`42_frame_fsm.md` R162 to R164). -/
theorem storesNextByte_of_inactive (henabled : s.enabled = true) (hd : s.slot[s.head.toNat]? = some d)
    (hs : d.state = .vacant ∨ d.state = .waitingAck ∨ d.state = .done) (ht : exec (.edge L c) s = .next t) :
    StoresNextByte s t d := by
  obtain hs | hs | hs := hs
  · have hexec := edgeAtVacantHead s c d henabled hd hs
    cases L with
    | high =>
      obtain rfl := Host.Outcome.next.inj (hexec.1.symm.trans ht)
      exact .of_slot_eq hd rfl rfl
    | low =>
      obtain rfl := Host.Outcome.next.inj (hexec.2.symm.trans ht)
      exact .of_bytes rfl rfl rfl
  · obtain rfl := Host.Outcome.next.inj ((edgeAcknowledges s L c d henabled hd hs).symm.trans ht)
    exact .of_bytes rfl rfl rfl
  · obtain rfl := Host.Outcome.next.inj ((edgeAtDoneHead s L c d henabled hd hs).symm.trans ht)
    exact .of_slot_eq hd rfl rfl

/-- An over-long run stores nothing (`42_frame_fsm.md` R165). -/
theorem storesNextByte_of_longRun (h : EndsRun s c d n jout) (hn : 9 < n) (ht : exec (.edge L c) s = .next t) :
    StoresNextByte s t d := by
  obtain hs | hs := h.active
  · obtain rfl := Host.Outcome.next.inj ((longRunRestartsSearch s L c d n jout h hn hs).symm.trans ht)
    exact .of_bytes rfl rfl rfl
  · obtain rfl := Host.Outcome.next.inj ((longRunEndsFrame s L c d n jout h hn hs).symm.trans ht)
    exact .of_bytes rfl rfl rfl

/-- The first unit of a search stores byte 0 or nothing (`42_frame_fsm.md` R169). -/
theorem storesNextByte_of_firstUnit (hwf : d.bytes.wf = true) (h : CompletesUnit s c d n jout k left)
    (hs : d.state = .searching) (ht : exec (.edge L c) s = .next t) : StoresNextByte s t d := by
  obtain ⟨j, f, -, hmatch, hfalse⟩ := firstUnitStartsOrReverts s L c d n jout k left h hs
  by_cases hsof : unitOf s L k left = 0x03D#10
  · obtain rfl := Host.Outcome.next.inj ((hmatch hsof).symm.trans ht)
    exact ⟨rfl, _, rfl, Descriptor.agreesElsewhere_of_write hwf (.inl ⟨hs, rfl⟩) rfl⟩
  · obtain rfl := Host.Outcome.next.inj ((hfalse hsof).symm.trans ht)
    exact .of_bytes rfl rfl rfl

/-- A data unit stores the byte after the last, whatever follows (`42_frame_fsm.md` R170). -/
theorem storesNextByte_of_dataUnit (hwf : d.bytes.wf = true) (h : CompletesUnit s c d n jout k left)
    (hs : d.state = .loading) (hroom : d.size.toNat < s.params.maxPacket) (ht : exec (.edge L c) s = .next t) :
    StoresNextByte s t d := by
  have hstored : ∀ e : Descriptor, e.bytes = (appended s.params d (unitOf s L k left)).bytes → d.AgreesElsewhere e :=
    fun e he => Descriptor.agreesElsewhere_of_write hwf (.inr ⟨hs, rfl⟩) he
  by_cases heod : (unitOf s L k left).extractLsb' 0 2 = 0b00#2
  · obtain ⟨j, f, -, hexec⟩ := eodOpensAckWindow s L c d n jout k left h hs hroom heod
    obtain rfl := Host.Outcome.next.inj (hexec.symm.trans ht)
    exact ⟨rfl, _, rfl, hstored _ rfl⟩
  · obtain hlast | hmore := Nat.eq_or_lt_of_le (Nat.succ_le_of_lt hroom)
    · obtain ⟨j, f, -, hexec⟩ := fullBufferEndsFrame s L c d n jout k left h hs hlast heod
      obtain rfl := Host.Outcome.next.inj (hexec.symm.trans ht)
      exact ⟨rfl, _, rfl, hstored _ rfl⟩
    · obtain ⟨j, f, -, hexec⟩ := dataUnitAppendsByte s L c d n jout k left h hs hmore heod
      obtain rfl := Host.Outcome.next.inj (hexec.symm.trans ht)
      exact ⟨rfl, _, rfl, hstored _ rfl⟩

variable (hinv : s.Inv) (hd : s.slot[s.head.toNat]? = some d)
include hinv hd

/-- An edge that ends a run stores at most the byte of the unit the run completes (`42_frame_fsm.md` R165). -/
theorem storesNextByte_of_endsRun (h : EndsRun s c d n jout) (ht : exec (.edge L c) s = .next t) :
    StoresNextByte s t d := by
  have hok := hinv.poolOk _ d hd
  have hwf := hok.buffer.canonical
  by_cases hn : 9 < n
  · exact storesNextByte_of_longRun h hn ht
  have hshort : n ≤ 9 := Nat.le_of_not_lt hn
  obtain ⟨k, hk⟩ := exists_kept s n
  by_cases hfew : s.atBit.toNat + k < 10
  · obtain ⟨j, f, -, hexec⟩ := exec_edge_of_shortRun h L hshort hk hfew
    obtain rfl := Host.Outcome.next.inj (hexec.symm.trans ht)
    exact .of_slot_eq hd rfl rfl
  · obtain ⟨left, hleft⟩ := Nat.exists_eq_add_of_le' (Nat.le_of_not_lt hfew)
    have hunit : CompletesUnit s c d n jout k left := ⟨h, hshort, hk, hinv.atBitSmall, hleft⟩
    obtain hs | hs := h.active
    · exact storesNextByte_of_firstUnit hwf hunit hs ht
    · obtain ⟨-, hroom⟩ := (Descriptor.phase_loading hs).mp hok.phase
      exact storesNextByte_of_dataUnit hwf hunit hs hroom ht

/-- An edge of an enabled block, whatever the head state (`42_frame_fsm.md` R161). -/
theorem storesNextByte_of_enabled (henabled : s.enabled = true) (ht : exec (.edge L c) s = .next t) :
    StoresNextByte s t d := by
  have active : d.state = .searching ∨ d.state = .loading → StoresNextByte s t d := fun hact =>
    storesNextByte_of_endsRun hinv hd ⟨hinv.legal, henabled, hd, hact, rfl⟩ ht
  cases hs : d.state with
  | vacant => exact storesNextByte_of_inactive henabled hd (.inl hs) ht
  | searching => exact active (.inl hs)
  | loading => exact active (.inr hs)
  | waitingAck => exact storesNextByte_of_inactive henabled hd (.inr (.inl hs)) ht
  | done => exact storesNextByte_of_inactive henabled hd (.inr (.inr hs)) ht

end Edge
end Sys2Proof.Machine

namespace Sys2Proof

open Machine Claims

/-- Settles O49: before SETUP an edge writes nothing; after it, the head slot alone, which agrees elsewhere
(`storesNextByte_of_enabled`). -/
theorem edgeStoresOnlyNextByte : Obligations.EdgeStoresOnlyNextByte := by
  intro s t L c hinv ht
  obtain ⟨d, hd⟩ := hinv.slot_exists hinv.headInPool
  have w : StoresNextByte s t d := by
    cases henabled : s.enabled with
    | false =>
      obtain rfl := Host.Outcome.next.inj ((edgeBeforeSetupIgnored s L c henabled).symm.trans ht)
      exact .of_slot_eq hd rfl rfl
    | true => exact storesNextByte_of_enabled hinv hd henabled ht
  obtain ⟨e, hset, he⟩ := w.slot
  refine ⟨w.out, fun k x hx => ?_⟩
  rw [hset]
  by_cases hk : s.head.toNat = k
  · subst hk
    obtain rfl : d = x := Option.some.inj (hd.symm.trans hx)
    obtain ⟨hlt, -⟩ := List.getElem?_eq_some_iff.mp hd
    exact ⟨e, List.getElem?_set_self hlt, fun i hi => he i fun hstores => hi ⟨rfl, hstores⟩⟩
  · exact ⟨x, (List.getElem?_set_ne hk).trans hx, fun _ _ => rfl⟩

end Sys2Proof

/-! PROOFS. The queue commands: SETUP (O6), RECEIVE (O7), AVAILABLE (O8), the statistics reads (O9) and the repair
counters they read (O57), the register view (O10), and the falling edge that finds the queue full (O47). -/

namespace Sys2Proof.Machine

open Claims Laws.RoundTrip

/-! ### Command words without an argument -/

/-- A row of the table with a NONE argument has one word, and every other word of its opcode is illegal
(`30_encoding.md` R88). -/
theorem noneCommand_of_encode {opc : Byte} {i : Instr} (hopc : NoneOpcode opc)
    (he : encode i = .command (opc ++ 0#8)) : NoneCommand opc i :=
  ⟨he ▸ decode_encode i, fun s rest arg harg hin =>
    illegalWordsAnswerIllegal s rest opc arg hin (.inr (.inl ⟨hopc, harg⟩))⟩

/-! ### What no event but RESET writes -/

/-- `t` has ENABLED, OUT and the repair counters of `s`, which the consumer writes (`60_exceptions.md` R254). -/
structure SameConsumer (s t : State) : Prop where
  enabled : t.enabled = s.enabled
  out : t.out = s.out
  nCorrupt : t.nCorrupt = s.nCorrupt
  nRepaired : t.nRepaired = s.nRepaired

theorem exec_edge_sameConsumer {L : Level} {c : Word} {s t : State} (h : exec (.edge L c) s = .next t) :
    SameConsumer s t := by
  obtain ⟨-, rfl⟩ | ⟨-, d, -, -, w⟩ := execEdge_cases h
  · exact ⟨rfl, rfl, rfl, rfl⟩
  · exact ⟨w.enabled, w.out, w.nCorrupt, w.nRepaired⟩

theorem exec_ackTimeout_sameConsumer {s t : State} (h : exec .ackTimeout s = .next t) : SameConsumer s t := by
  obtain ⟨-, rfl⟩ | ⟨-, d, -, rfl⟩ := execAckTimeout_cases h
  · exact ⟨rfl, rfl, rfl, rfl⟩
  · split <;> exact ⟨rfl, rfl, rfl, rfl⟩

/-- An instruction other than RESET is a command, or leaves the consumer's registers. -/
theorem exec_command_or_sameConsumer {i : Instr} {s t : State} (h : exec i s = .next t) (hreset : i ≠ .reset) :
    (∃ st v u, CommandWrites s i st v u ∧ t = answered st v u) ∨ SameConsumer s t := by
  by_cases hc : i.isCommand = true
  · exact .inl (exec_command hc h)
  · cases i with
    | edge L c => exact .inr (exec_edge_sameConsumer h)
    | ackTimeout => exact .inr (exec_ackTimeout_sameConsumer h)
    | reset => exact absurd rfl hreset
    | _ => exact absurd rfl hc

/-! ### ENABLED -/

theorem CommandWrites.keepsEnabled {s u : State} {i : Instr} {st : Status} {v : Word}
    (w : CommandWrites s i st v u) (henabled : s.enabled = true) : u.enabled = true := by
  cases w with
  | nothing | drain => exact henabled
  | attach => rfl
  | fixed | unfixed => simpa using henabled

/-- No instruction but RESET detaches the block (`43_queue.md` R200). -/
theorem exec_keepsEnabled {i : Instr} {s t : State} (h : exec i s = .next t) (hreset : i ≠ .reset)
    (henabled : s.enabled = true) : t.enabled = true := by
  obtain ⟨st, v, u, w, rfl⟩ | hsame := exec_command_or_sameConsumer h hreset
  · exact w.keepsEnabled henabled
  · exact hsame.enabled.trans henabled

/-! ### RECEIVE and AVAILABLE -/

section Tail

variable {s : State} {d : Descriptor} (hd : s.slot[s.tail.toNat]? = some d)
include hd

theorem exec_receive_eq : exec .receive s =
    if d.state = .done then .next (answer .ok (receiveWord s.overrun) (drainTail d s))
    else .next (answer .ok 0#32 s) := by
  have hrun : exec .receive s = if d.isDone then respond (receiveWord s.overrun) (drainTail d s) else respond 0#32 s :=
    withTail_some hd
  simp only [hrun, Descriptor.isDone, beq_iff_eq]
  rfl

theorem exec_available_eq : exec .available s = .next (answer .ok (bit (d.state == .done)) s) := withTail_some hd

theorem availPort_eq : s.availPort = (d.state == .done) := by
  unfold State.availPort State.tailSlot?
  rw [hd]
  rfl

/-- What a drain writes, field by field (`43_queue.md` R201). -/
theorem drainTail_eq : drainTail d s =
    { s with
      out := d
      overrun := false
      slot := s.slot.set s.tail.toNat { d with state := .vacant, size := 0#8, result := .ok, ack := .none }
      tail := succIndex s s.tail } := by
  unfold drainTail State.modifySlot
  rw [modify_eq_set_slot hd]
  rfl

end Tail

theorem availPort_eq_true {s : State} :
    s.availPort = true ↔ ∃ d, s.slot[s.tail.toNat]? = some d ∧ d.state = .done := by
  unfold State.availPort State.tailSlot?
  cases s.slot[s.tail.toNat]? <;> simp [Descriptor.isDone]

/-! ### The repair counters -/

/-- Both counters stay. -/
def CountersStay (s t : State) : Prop := t.nCorrupt = s.nCorrupt ∧ t.nRepaired = s.nRepaired

/-- A corrupt buffer is counted, and so is its repair if there is one (`40_crc.md` R126). -/
def CountsCorrupt (s t : State) : Prop :=
  t.nCorrupt = s.nCorrupt + 1#32 ∧ (t.nRepaired = s.nRepaired ∨ t.nRepaired = s.nRepaired + 1#32)

theorem CommandWrites.counters {s u : State} {i : Instr} {st : Status} {v : Word} (w : CommandWrites s i st v u) :
    CountersStay s u ∨ ((∃ sel, i = .crcRepair sel) ∧ CountsCorrupt s u) := by
  cases w with
  | nothing | attach | drain => exact .inl ⟨rfl, rfl⟩
  | fixed sel => exact .inr ⟨⟨sel, rfl⟩, by simp, .inr rfl⟩
  | unfixed sel => exact .inr ⟨⟨sel, rfl⟩, by simp, .inl (by simp)⟩

/-- Of the instructions but RESET, CRC_REPAIR alone counts (`43_queue.md` R204, R205). -/
theorem exec_counters {i : Instr} {s t : State} (h : exec i s = .next t) (hreset : i ≠ .reset) :
    CountersStay s t ∨ ((∃ sel, i = .crcRepair sel) ∧ CountsCorrupt s t) := by
  obtain ⟨st, v, u, w, rfl⟩ | hsame := exec_command_or_sameConsumer h hreset
  · exact w.counters
  · exact .inl ⟨hsame.nCorrupt, hsame.nRepaired⟩

/-- A repair is counted with the corrupt buffer it repairs. -/
theorem CountsCorrupt.repaired_le {s t : State} (h : CountsCorrupt s t)
    (hle : s.nRepaired.toNat ≤ s.nCorrupt.toNat) (hwrap : s.nCorrupt.toNat + 1 < 2 ^ 32) :
    t.nRepaired.toNat ≤ t.nCorrupt.toNat := by
  obtain ⟨hcorrupt, hrepaired⟩ := h
  obtain hrepaired | hrepaired := hrepaired <;> rw [hcorrupt, hrepaired] <;> bv_omega

/-! ### Words packed from fields -/

/-- The word with the field `v` at bit `n` and its other bits 0. -/
def fieldAt {w : Nat} (n : Nat) (v : BitVec w) : Word := zext v <<< n

theorem fieldAt_zero {w : Nat} (v : BitVec w) : fieldAt 0 v = zext v := BitVec.shiftLeft_zero _

theorem fieldAt_getLsbD {w : Nat} (n : Nat) (v : BitVec w) {i : Nat} (hi : i < 32) :
    (fieldAt n v).getLsbD i = (decide (n ≤ i) && v.getLsbD (i - n)) := by
  by_cases hn : n ≤ i
  · simp [fieldAt, zext, hi, hn]
  · simp [fieldAt, zext, hn]

/-- A field reads back at its own place. -/
theorem extract_fieldAt_same {w n : Nat} (h : n + w ≤ 32) (v : BitVec w) : (fieldAt n v).extractLsb' n w = v := by
  apply BitVec.eq_of_getLsbD_eq
  intro i hi
  simp [hi, fieldAt_getLsbD n v (show n + i < 32 by omega)]

/-- A field is 0 wherever it does not lie. -/
theorem extract_fieldAt_disjoint {w n m k : Nat} (h : m + k ≤ n ∨ n + w ≤ m) (hk : m + k ≤ 32) (v : BitVec w) :
    (fieldAt n v).extractLsb' m k = 0#k := by
  apply BitVec.eq_of_getLsbD_eq
  intro i hi
  have hbit : (decide (n ≤ m + i) && v.getLsbD (m + i - n)) = false := by
    obtain h | h := h
    · simp [show ¬ n ≤ m + i by omega]
    · simp [v.getLsbD_of_ge (m + i - n) (by omega)]
  simp [hi, fieldAt_getLsbD n v (show m + i < 32 by omega), hbit]

/-- Bit `i` of a word is its 1-bit field there. -/
theorem getLsbD_of_extract {v : Word} {i : Nat} {b : Bool} (h : v.extractLsb' i 1 = BitVec.ofBool b) :
    v.getLsbD i = b := by
  have hbit := congrArg (BitVec.getLsbD · 0) h
  simpa using hbit

theorem boolWord_eq_zext (b : Bool) : boolWord b = zext (BitVec.ofBool b) := by cases b <;> rfl

theorem ofNat_eq_zext {n : Nat} (h : n < 2 ^ 8) : BitVec.ofNat 32 n = zext (BitVec.ofNat 8 n) := by
  apply BitVec.eq_of_toNat_eq
  simp only [zext, BitVec.toNat_setWidth, BitVec.toNat_ofNat]
  omega

/-! ### The register view -/

theorem statusWord_eq (s : State) (t h : Descriptor) : statusWord s t h =
    fieldAt 0 (BitVec.ofBool t.isDone) ||| fieldAt 1 (BitVec.ofBool s.overrun) ||| fieldAt 2 (BitVec.ofBool s.enabled)
      ||| fieldAt 3 (BitVec.ofBool s.timerArmed) ||| fieldAt 4 h.state.code ||| fieldAt 8 s.head
      ||| fieldAt 16 s.tail := by
  simp only [statusWord, boolWord_eq_zext, fieldAt_zero]
  rfl

/-- Every bit of STATUS (`10_state.md` R41). -/
theorem statusWord_fields {s : State} {t h : Descriptor} {v : Word} (hv : v = statusWord s t h) :
    v.extractLsb' 0 1 = BitVec.ofBool t.isDone ∧ v.extractLsb' 1 1 = BitVec.ofBool s.overrun ∧
      v.extractLsb' 2 1 = BitVec.ofBool s.enabled ∧ v.extractLsb' 3 1 = BitVec.ofBool s.timerArmed ∧
      v.extractLsb' 4 3 = h.state.code ∧ v.extractLsb' 7 1 = 0#1 ∧ v.extractLsb' 8 7 = s.head ∧
      v.extractLsb' 15 1 = 0#1 ∧ v.extractLsb' 16 7 = s.tail ∧ v.extractLsb' 23 9 = 0#9 := by
  simp (disch := decide) only [hv, statusWord_eq, BitVec.extractLsb'_or, extract_fieldAt_same,
    extract_fieldAt_disjoint, BitVec.or_zero, BitVec.zero_or, and_self]

theorem configWord_eq {p : Config.Params} (hp : p.SizesLegal) : configWord p =
    fieldAt 0 (BitVec.ofNat 8 p.q) ||| fieldAt 8 (BitVec.ofNat 8 p.maxPacket)
      ||| fieldAt 16 (BitVec.ofBool p.manchesterCheck) := by
  obtain ⟨⟨-, hq⟩, -, hmax⟩ := hp
  rw [configWord, boolWord_eq_zext, ofNat_eq_zext (show p.q < 2 ^ 8 by omega),
    ofNat_eq_zext (show p.maxPacket < 2 ^ 8 by omega), fieldAt_zero]
  rfl

/-- Every bit of CONFIG (`10_state.md` R41). -/
theorem configWord_fields {p : Config.Params} (hp : p.SizesLegal) {v : Word} (hv : v = configWord p) :
    v.extractLsb' 0 8 = BitVec.ofNat 8 p.q ∧ v.extractLsb' 8 8 = BitVec.ofNat 8 p.maxPacket ∧
      v.extractLsb' 16 1 = BitVec.ofBool p.manchesterCheck ∧ v.extractLsb' 17 15 = 0#15 := by
  simp (disch := decide) only [hv, configWord_eq hp, BitVec.extractLsb'_or, extract_fieldAt_same,
    extract_fieldAt_disjoint, BitVec.or_zero, BitVec.zero_or, and_self]

theorem DState.code_eq_stateNumber (st : DState) : st.code = BitVec.ofNat 3 (stateNumber st) := by cases st <;> rfl

/-- A reserved register number raises ST_ILLEGAL (`43_queue.md` R206). -/
theorem exec_readReg_reserved (s : State) {num : Byte} (h : 6 ≤ num.toNat) :
    exec (.readReg num) s = .next (answer .illegal 0#32 s) := by
  simp only [exec, execReadReg, regNum_eq_none.mpr h]
  rfl

end Sys2Proof.Machine

namespace Sys2Proof

open Machine Claims

/-- Settles O6: SETUP's two cases, and that no instruction but RESET detaches (`exec_keepsEnabled`). -/
theorem setupAttachesOnce : Obligations.SetupAttachesOnce := by
  refine ⟨noneCommand_of_encode (.inl (by decide)) rfl, fun s henabled => ?_, fun s hdisabled => ?_,
    fun i s t h henabled hreset => exec_keepsEnabled h hreset henabled⟩
  · exact if_pos henabled
  · exact if_neg (by simp [hdisabled])

/-- Settles O7: the two cases of RECEIVE at the tail slot, the drained one as R201 writes it (`drainTail_eq`), and
that no event writes OUT. -/
theorem receiveDrainsTail : Obligations.ReceiveDrainsTail := by
  refine ⟨noneCommand_of_encode (.inl (by decide)) rfl, fun s d hd =>
    ⟨fun hdone => ?_, fun hdone => ?_, fun L c t h => (exec_edge_sameConsumer h).out,
    fun t h => (exec_ackTimeout_sameConsumer h).out⟩⟩
  · rw [exec_receive_eq hd, if_neg hdone]
  · rw [exec_receive_eq hd, if_pos hdone, drainTail_eq hd]
    rfl

/-- Settles O8: a RECEIVE after AVAILABLE finds the same tail slot, and an instruction that leaves TAIL (O56) leaves a
DONE tail slot DONE (O48). -/
theorem availableForetellsReceive : Obligations.AvailableForetellsReceive := by
  refine ⟨noneCommand_of_encode (.inl (by decide)) rfl,
    fun s d hd => ⟨exec_available_eq hd, availPort_eq hd, ?_⟩, fun i s t h hrecv hreset havail => ?_⟩
  · by_cases hdone : d.state = .done
    · exact ⟨_, _, (exec_receive_eq hd).trans (if_pos hdone), rfl, by rw [receiveWord_got, hdone]; rfl⟩
    · exact ⟨_, _, (exec_receive_eq hd).trans (if_neg hdone), rfl, by rw [beq_false_of_ne hdone]; rfl⟩
  · obtain ⟨d, hd, hdone⟩ := availPort_eq_true.mp havail
    obtain ⟨d', hd', hbytes⟩ := (doneSlotsAreTheConsumers s t i _ d h hd hdone).2 hrecv hreset
    obtain ⟨htail, -⟩ | ⟨hi, -⟩ := (indicesMoveForward i s t h hreset).2
    · exact availPort_eq_true.mpr ⟨d', htail ▸ hd', by rw [hbytes, hdone]⟩
    · exact absurd hi hrecv

/-- Settles O9: each read answers its counter, and CRC_REPAIR alone counts (`exec_counters`). -/
theorem counterReadsAnswer : Obligations.CounterReadsAnswer :=
  ⟨noneCommand_of_encode (.inl (by decide)) rfl, noneCommand_of_encode (.inl (by decide)) rfl,
    noneCommand_of_encode (.inl (by decide)) rfl,
    fun _ => ⟨rfl, rfl, rfl⟩, fun _ _ _ h hrepair hreset =>
      (exec_counters h hreset).resolve_right fun ⟨⟨sel, hi⟩, _⟩ => hrepair sel hi⟩

/-- Settles O10: STATUS and CONFIG are packed from fields that do not overlap (`statusWord_fields`,
`configWord_fields`), and the numbers above 5 are reserved. -/
theorem registerViewFields : Obligations.RegisterViewFields := by
  intro s t h hlegal ht hh
  obtain ⟨havail, hover, hen, harmed, hstate, h7, hhead, h15, htail, hhigh⟩ :=
    statusWord_fields (rfl : statusWord s t h = _)
  obtain ⟨hq, hmax, hcheck, hrest⟩ := configWord_fields hlegal.1 rfl
  obtain ⟨⟨-, hqle⟩, -, hmaxle⟩ := hlegal.1
  refine ⟨⟨statusWord s t h, (withTail_some ht).trans (withHead_some hh), getLsbD_of_extract havail,
      getLsbD_of_extract hover, getLsbD_of_extract hen, getLsbD_of_extract harmed,
      hstate.trans h.state.code_eq_stateNumber, getLsbD_of_extract h7, hhead, getLsbD_of_extract h15, htail, hhigh⟩,
    ⟨rfl, rfl, rfl, rfl⟩,
    ⟨configWord s.params, rfl, ?_, ?_, getLsbD_of_extract hcheck, hrest⟩,
    fun num hnum => exec_readReg_reserved s hnum⟩
  · rw [hq, BitVec.toNat_ofNat]
    omega
  · rw [hmax, BitVec.toNat_ofNat]
    omega

/-- Settles O57: RESET clears both counters, and of the other instructions one counts a repair only with a corrupt
buffer (`exec_counters`). -/
theorem repairedAtMostCorrupt : Obligations.RepairedAtMostCorrupt := by
  intro i s t h hle hwrap
  by_cases hreset : i = .reset
  · subst hreset
    cases h
    exact Nat.le_refl 0
  · obtain ⟨hcorrupt, hrepaired⟩ | ⟨-, hcounts⟩ := exec_counters h hreset
    · rwa [hcorrupt, hrepaired]
    · exact hcounts.repaired_le hle hwrap

/-- Settles O47: a queue that holds `Q` frames has a DONE head (`State.Holds.lt_of_head`), where a falling edge sets
OVERRUN alone (O29). -/
theorem fullQueueDropsFrame : Obligations.FullQueueDropsFrame := by
  intro s t hinv hfull henabled
  obtain ⟨d, hd⟩ := hinv.slot_exists hinv.headInPool
  have hdone : d.state = .done := by
    by_contra hnd
    exact absurd (hfull.lt_of_head hinv.legal.1.1.1 hd hnd) (Nat.lt_irrefl _)
  exact edgeAtDoneHead s .low t d henabled hd hdone

end Sys2Proof

/-! PROOFS. The accessors of OUT: its size and number (O21), its status word and how long it stays at reset (O22), one
byte of it (O20), and the fields of the frame's header (O23) and trailer (O24). -/

namespace Sys2Proof.Machine

open Claims

/-! ### Reading OUT -/

/-- A byte inside the buffer is read. -/
theorem withOutByte_eq {s : State} {k : Nat} (hk : k < s.params.maxPacket) (f : Byte → Result) :
    withOutByte s k f = f (s.out.bytes.read k) := by
  unfold withOutByte
  rw [memRead_some.mpr ⟨hk, rfl⟩]

/-- A frame that is too short raises ST_ILLEGAL (`60_exceptions.md` R242). -/
theorem requireSize_short {s : State} {k : Nat} (h : s.out.size.toNat < k) (run : Result) :
    requireSize k s run = .next (answer .illegal 0#32 s) := if_pos h

theorem requireSize_long {s : State} {k : Nat} (h : k ≤ s.out.size.toNat) (run : Result) :
    requireSize k s run = run := if_neg (Nat.not_lt.mpr h)

theorem exec_outByte_above {s : State} {index : Byte} (h : s.out.size.toNat ≤ index.toNat) :
    exec (.outByte index) s = .next (answer .illegal 0#32 s) := if_pos h

theorem exec_outByte_below {s : State} {index : Byte} (h : index.toNat < s.out.size.toNat)
    (hfits : s.out.size.toNat ≤ s.params.maxPacket) :
    exec (.outByte index) s = .next (answer .ok (zext (s.out.bytes.read index.toNat)) s) :=
  calc exec (.outByte index) s
      = withOutByte s index.toNat fun b => respond (zext b) s := if_neg (Nat.not_le.mpr h)
    _ = respond (zext (s.out.bytes.read index.toNat)) s := withOutByte_eq (Nat.lt_of_lt_of_le h hfits) _

/-! ### Words assembled from two bytes -/

theorem zext_toNat (b : Byte) : (zext b).toNat = b.toNat := BitVec.toNat_setWidth_of_le (by decide)

/-- A word over a field of `n` bits is their sum. -/
theorem shiftLeft_or_eq_ofNat {n : Nat} (v : Word) {w : Word} (h : w.toNat < 2 ^ n) :
    (v <<< n) ||| w = BitVec.ofNat 32 (v.toNat * 2 ^ n + w.toNat) := by
  have hsum : v.toNat * 2 ^ n + w.toNat = v.toNat <<< n ||| w.toNat := by
    rw [← Nat.shiftLeft_eq, Nat.shiftLeft_add_eq_or_of_lt h]
  apply BitVec.eq_of_toNat_eq
  rw [hsum, BitVec.toNat_or, BitVec.toNat_shiftLeft, BitVec.toNat_ofNat, Nat.or_mod_two_pow,
    Nat.mod_eq_of_lt w.isLt]

/-- The identifier: a byte over the high nibble of the next (`44_descriptor_access.md` R234). -/
theorem idenWord_eq (b1 b2 : Byte) :
    (zext b1 <<< 4) ||| (zext b2 >>> 4) = BitVec.ofNat 32 (b1.toNat * 16 + b2.toNat / 16) := by
  have hnibble : (zext b2 >>> 4).toNat = b2.toNat / 16 := by
    rw [BitVec.toNat_ushiftRight, zext_toNat, Nat.shiftRight_eq_div_pow]
  rw [shiftLeft_or_eq_ofNat (zext b1) (by omega), zext_toNat, hnibble]
  rfl

/-- The flags: the low nibble (`44_descriptor_access.md` R235). -/
theorem flagsWord_eq (b : Byte) : zext b &&& 0xF#32 = BitVec.ofNat 32 (b.toNat % 16) := by
  apply BitVec.eq_of_toNat_eq
  calc (zext b &&& 0xF#32).toNat
      = b.toNat &&& (2 ^ 4 - 1) := by rw [BitVec.toNat_and, zext_toNat]; rfl
    _ = b.toNat % 16 := Nat.and_two_pow_sub_one_eq_mod b.toNat 4
    _ = (BitVec.ofNat 32 (b.toNat % 16)).toNat := by rw [BitVec.toNat_ofNat]; omega

/-- The CRC field: high byte first (`44_descriptor_access.md` R237). -/
theorem crcFieldWord_eq (hi lo : Byte) :
    (zext hi <<< 8) ||| zext lo = BitVec.ofNat 32 (hi.toNat * 256 + lo.toNat) := by
  rw [shiftLeft_or_eq_ofNat (zext hi) ((zext_toNat lo).trans_lt lo.isLt), zext_toNat, zext_toNat]
  rfl

/-- The payload length: all but the SOF byte, the header and the CRC field (`44_descriptor_access.md` R236). -/
theorem datalenWord_eq {n : Byte} (h : 5 ≤ n.toNat) : zext n - 5#32 = BitVec.ofNat 32 (n.toNat - 5) := by
  have hn := zext_toNat n
  bv_omega

/-! ### OUT_META -/

theorem Ack.code_eq_ackNumber (a : Ack) : a.code = BitVec.ofNat 1 (ackNumber a) := by cases a <;> rfl

theorem DecodeResult.code_eq_resultNumber (r : DecodeResult) : r.code = BitVec.ofNat 2 (resultNumber r) := by
  cases r <;> rfl

theorem metaWord_eq (d : Descriptor) : metaWord d =
    fieldAt 0 d.state.code ||| fieldAt 4 d.ack.code ||| fieldAt 8 d.result.code ||| fieldAt 16 d.slot := by
  rw [metaWord, fieldAt_zero]
  rfl

/-- Every bit of OUT_META (`44_descriptor_access.md` R232). -/
theorem metaWord_fields {d : Descriptor} {v : Word} (hv : v = metaWord d) :
    v.extractLsb' 0 3 = d.state.code ∧ v.extractLsb' 3 1 = 0#1 ∧ v.extractLsb' 4 1 = d.ack.code ∧
      v.extractLsb' 5 3 = 0#3 ∧ v.extractLsb' 8 2 = d.result.code ∧ v.extractLsb' 10 6 = 0#6 ∧
      v.extractLsb' 16 7 = d.slot ∧ v.extractLsb' 23 9 = 0#9 := by
  simp (disch := decide) only [hv, metaWord_eq, BitVec.extractLsb'_or, extract_fieldAt_same,
    extract_fieldAt_disjoint, BitVec.or_zero, BitVec.zero_or, and_self]

/-! ### How long OUT stays empty -/

/-- OUT of `t` is that of `s`, or the DONE tail frame that a RECEIVE copied (`43_queue.md` R201). -/
def KeepsOrCopiesOut (i : Instr) (s t : State) : Prop :=
  t.out = s.out ∨ (i = .receive ∧ t.out.state = .done ∧ s.slot[s.tail.toNat]? = some t.out)

/-- A repair puts an empty OUT back as it was: there is no byte to flip. -/
theorem setBuffer_repaired_out {s u : State} {sel : Byte} {ref : BufferRef} {m m' : Memory} {n : Nat}
    {kept : Option (Nat × Nat)} (hempty : s.out.size = 0#8) (hout : u.out = s.out)
    (hr : resolve sel s = .buffer ref m n) (hs : repairSearch n (repairOrder n) m = (kept, m')) :
    (u.setBuffer ref m').out = s.out := by
  obtain ⟨-, rfl, rfl, rfl, -⟩ | ⟨-, -, rfl, -⟩ := resolve_buffer.mp hr
  · have hm : m' = s.out.bytes := by
      rw [hempty] at hs
      exact (congrArg Prod.snd hs).symm
    show { u.out with bytes := m' } = s.out
    rw [hm, hout]
  · exact hout

theorem CommandWrites.keepsOrCopiesOut {s u : State} {i : Instr} {st : Status} {v : Word}
    (w : CommandWrites s i st v u) (hempty : s.out.size = 0#8) : KeepsOrCopiesOut i s u := by
  cases w with
  | nothing | attach => exact .inl rfl
  | drain d hd hdone => exact .inr ⟨rfl, hdone, hd⟩
  | fixed sel ref m n i j hr hbad m' hs => exact .inl (setBuffer_repaired_out hempty rfl hr hs)
  | unfixed sel ref m n hr hbad m' hs => exact .inl (setBuffer_repaired_out hempty rfl hr hs)

/-- OUT keeps its reset value until a RECEIVE copies a DONE slot (`44_descriptor_access.md` R232). -/
theorem exec_keepsResetOut {i : Instr} {s t : State} (h : exec i s = .next t)
    (hout : s.out = Descriptor.atReset 0) : KeepsOrCopiesOut i s t := by
  by_cases hreset : i = .reset
  · subst hreset
    cases h
    exact .inl hout.symm
  · obtain ⟨st, v, u, w, rfl⟩ | hsame := exec_command_or_sameConsumer h hreset
    · exact w.keepsOrCopiesOut (congrArg Descriptor.size hout)
    · exact .inl hsame.out

/-! ### The size of OUT -/

theorem Descriptor.phase_vacant {p : Config.Params} {d : Descriptor} (h : d.state = .vacant) :
    d.Phase p ↔ d.Blank := by
  unfold Descriptor.Phase; rw [h]

theorem Descriptor.phase_done {p : Config.Params} {d : Descriptor} (h : d.state = .done) :
    d.Phase p ↔ d.Completed p := by
  unfold Descriptor.Phase; rw [h]

/-- Before any copy OUT has no byte. -/
theorem Descriptor.OutOk.size_eq_zero {p : Config.Params} {d : Descriptor} (h : d.OutOk p) (hd : d.state ≠ .done) :
    d.size = 0#8 := by
  obtain ⟨hsize, -, -⟩ := (Descriptor.phase_vacant (h.copied.resolve_right hd)).mp h.phase
  exact hsize

/-- A copied frame holds at least its SOF byte (`44_descriptor_access.md` R231). -/
theorem Descriptor.OutOk.one_le_size {p : Config.Params} {d : Descriptor} (h : d.OutOk p) (hd : d.state = .done) :
    1 ≤ d.size.toNat := by
  obtain ⟨hsize, -⟩ := (Descriptor.phase_done hd).mp h.phase
  exact hsize

/-! ### The frame fields -/

section Fields

variable {s : State}

/-- The identifier of a frame that has it (`44_descriptor_access.md` R234). -/
theorem exec_frameIden_eq (hlegal : s.params.Legal) (h : 3 ≤ s.out.size.toNat) :
    exec .frameIden s = .next (answer .ok
      (BitVec.ofNat 32 ((s.out.bytes.read 1).toNat * 16 + (s.out.bytes.read 2).toNat / 16)) s) := by
  obtain ⟨⟨-, hmax, -⟩, -⟩ := hlegal
  simp only [exec, execFrameIden]
  rw [requireSize_long h, withOutByte_eq (by omega), withOutByte_eq (by omega), idenWord_eq]
  rfl

/-- The flags of a frame that has them (`44_descriptor_access.md` R235). -/
theorem exec_frameFlags_eq (hlegal : s.params.Legal) (h : 3 ≤ s.out.size.toNat) :
    exec .frameFlags s = .next (answer .ok (BitVec.ofNat 32 ((s.out.bytes.read 2).toNat % 16)) s) := by
  obtain ⟨⟨-, hmax, -⟩, -⟩ := hlegal
  simp only [exec, execFrameFlags]
  rw [requireSize_long h, withOutByte_eq (by omega), flagsWord_eq]
  rfl

/-- The payload length of a frame that holds a whole header and CRC field (`44_descriptor_access.md` R236). -/
theorem exec_frameDatalen_eq (h : 5 ≤ s.out.size.toNat) :
    exec .frameDatalen s = .next (answer .ok (BitVec.ofNat 32 (s.out.size.toNat - 5)) s) := by
  simp only [exec, execFrameDatalen]
  rw [requireSize_long h, datalenWord_eq h]
  rfl

/-- The CRC field of a frame that holds it (`44_descriptor_access.md` R237). -/
theorem exec_frameCrc_eq (hfits : s.out.size.toNat ≤ s.params.maxPacket) (h : 5 ≤ s.out.size.toNat) :
    exec .frameCrc s = .next (answer .ok
      (BitVec.ofNat 32 ((s.out.bytes.read (s.out.size.toNat - 2)).toNat * 256
        + (s.out.bytes.read (s.out.size.toNat - 1)).toNat)) s) := by
  simp only [exec, execFrameCrc]
  rw [requireSize_long h, withOutByte_eq (by omega), withOutByte_eq (by omega), crcFieldWord_eq]
  rfl

end Fields

end Sys2Proof.Machine

namespace Sys2Proof

open Machine Claims

/-- Settles O21: the two answers, and the size of OUT by what the invariant says of it (`Descriptor.OutOk`). -/
theorem outSizeAndSeqnoAnswer : Obligations.OutSizeAndSeqnoAnswer :=
  ⟨noneCommand_of_encode (.inr (by decide)) rfl, noneCommand_of_encode (.inr (by decide)) rfl, fun _ =>
    ⟨rfl, rfl, fun hinv => ⟨hinv.outOk.size_eq_zero,
      fun hdone => ⟨hinv.outOk.one_le_size hdone, hinv.outOk.buffer.sizeFits⟩⟩⟩⟩

/-- Settles O22: OUT_META is packed from fields that do not overlap (`metaWord_fields`), and OUT keeps its reset value
until a RECEIVE copies a DONE slot (`exec_keepsResetOut`). -/
theorem outMetaFields : Obligations.OutMetaFields := by
  refine ⟨noneCommand_of_encode (.inr (by decide)) rfl, fun s => ?_, fun i s t hout h => ⟨?_, ?_⟩⟩
  · obtain ⟨hstate, h3, hack, h5, hresult, h10, hslot, hhigh⟩ := metaWord_fields (rfl : metaWord s.out = _)
    exact ⟨metaWord s.out, rfl, hstate.trans s.out.state.code_eq_stateNumber, getLsbD_of_extract h3,
      hack.trans s.out.ack.code_eq_ackNumber, h5, hresult.trans s.out.result.code_eq_resultNumber, h10, hslot, hhigh,
      fun hdone => hstate.trans (congrArg DState.code hdone)⟩
  · exact (exec_keepsResetOut h hout).imp_left fun hkept => hkept.trans hout
  · show respond (metaWord s.out) s = _
    rw [hout]
    rfl

/-- Settles O20: an index on either side of OUT's size. -/
theorem outByteAnswers : Obligations.OutByteAnswers :=
  fun _ _ hfits => ⟨exec_outByte_above, fun hindex => exec_outByte_below hindex hfits⟩

/-- Settles O23: a frame too short for its header raises, and the words of bytes 1 and 2 are arithmetic on them
(`idenWord_eq`, `flagsWord_eq`). -/
theorem frameHeaderAnswers : Obligations.FrameHeaderAnswers :=
  ⟨noneCommand_of_encode (.inr (by decide)) rfl, noneCommand_of_encode (.inr (by decide)) rfl, fun _ hlegal =>
    ⟨fun hshort => ⟨requireSize_short hshort _, requireSize_short hshort _⟩,
      fun hlong => ⟨exec_frameIden_eq hlegal hlong, exec_frameFlags_eq hlegal hlong⟩⟩⟩

/-- Settles O24: a frame too short for its CRC field raises, and the words of the size and of the last two bytes are
arithmetic on them (`datalenWord_eq`, `crcFieldWord_eq`). -/
theorem frameTrailerAnswers : Obligations.FrameTrailerAnswers :=
  ⟨noneCommand_of_encode (.inr (by decide)) rfl, noneCommand_of_encode (.inr (by decide)) rfl, fun _ hfits =>
    ⟨fun hshort => ⟨requireSize_short hshort _, requireSize_short hshort _⟩,
      fun hlong => ⟨exec_frameDatalen_eq hlong, exec_frameCrc_eq hfits hlong⟩⟩⟩

end Sys2Proof

/-! PROOFS. The columns of `60_exceptions.md` R254: what a command leaves of the producer's registers and slots (O54),
and what an edge or a timeout leaves of the consumer's (O55). -/

namespace Sys2Proof.Machine

/-! ### What no command writes -/

/-- `t` has the registers of `s` that belong to the frame being received: its number, the run in progress, the unit
being assembled and the acknowledgement timer. -/
structure SameReception (s t : State) : Prop where
  seq : t.seq = s.seq
  prev : t.prev = s.prev
  atBit : t.atBit = s.atBit
  bits : t.bits = s.bits
  jit : t.jit = s.jit
  timerArmed : t.timerArmed = s.timerArmed
  freeCount : t.freeCount = s.freeCount

theorem CommandWrites.sameReception {s u : State} {i : Instr} {st : Status} {v : Word}
    (w : CommandWrites s i st v u) : SameReception s u := by
  cases w with
  | nothing | attach | drain => exact ⟨rfl, rfl, rfl, rfl, rfl, rfl, rfl⟩
  | fixed | unfixed => constructor <;> simp

/-- `Resolve` gives the buffer of no slot but a DONE one (`40_crc.md` R121). -/
theorem ref_ne_of_undone {s : State} {sel : Byte} {ref : BufferRef} {m : Memory} {n : Nat}
    (hr : resolve sel s = .buffer ref m n) {k : Nat} {e : Descriptor} (he : s.slot[k]? = some e)
    (hundone : e.state ≠ .done) : ref ≠ .pool k := by
  rintro rfl
  obtain ⟨-, href, -⟩ | ⟨-, -, href, d, hd, hdone, -⟩ := resolve_buffer.mp hr
  · cases href
  · cases href
    cases hd.symm.trans he
    exact hundone hdone

/-- Putting a buffer back leaves every slot it is not the buffer of. -/
theorem setBuffer_otherSlot (s : State) {ref : BufferRef} (m : Memory) {k : Nat} (h : ref ≠ .pool k) :
    (s.setBuffer ref m).slot[k]? = s.slot[k]? := by
  cases ref with
  | out => rfl
  | pool j => exact (getElem?_modify_slot ..).trans (if_neg fun hj => h (congrArg _ hj))

/-- No command writes a slot that is not DONE: RECEIVE drains a DONE tail, and CRC_REPAIR resolves to a DONE slot. -/
theorem CommandWrites.keepsUndone {s u : State} {i : Instr} {st : Status} {v : Word}
    (w : CommandWrites s i st v u) {k : Nat} {e : Descriptor} (he : s.slot[k]? = some e)
    (hundone : e.state ≠ .done) : u.slot[k]? = some e := by
  cases w with
  | nothing | attach => exact he
  | drain d hd hdone =>
    have hk : s.tail.toNat ≠ k := by
      rintro rfl
      cases hd.symm.trans he
      exact hundone hdone
    rw [drainTail_slot, getElem?_modify_slot, if_neg hk]
    exact he
  | fixed sel ref m n i j hr _ m' _ => exact (setBuffer_otherSlot _ m' (ref_ne_of_undone hr he hundone)).trans he
  | unfixed sel ref m n hr _ m' _ => exact (setBuffer_otherSlot _ m' (ref_ne_of_undone hr he hundone)).trans he

/-! ### What one command alone writes -/

theorem CommandWrites.enabled_of_ne_setup {s u : State} {i : Instr} {st : Status} {v : Word}
    (w : CommandWrites s i st v u) (hi : i ≠ .setup) : u.enabled = s.enabled := by
  cases w with
  | nothing | drain => rfl
  | attach => exact absurd rfl hi
  | fixed | unfixed => simp

theorem CommandWrites.tail_of_ne_receive {s u : State} {i : Instr} {st : Status} {v : Word}
    (w : CommandWrites s i st v u) (hi : i ≠ .receive) : u.tail = s.tail ∧ u.overrun = s.overrun := by
  cases w with
  | nothing | attach => exact ⟨rfl, rfl⟩
  | drain => exact absurd rfl hi
  | fixed | unfixed => exact ⟨by simp, by simp⟩

/-! ### What an edge and a timeout write -/

/-- An edge can only arm the timer (`42_frame_fsm.md` R172). -/
theorem exec_edge_timerArmed {L : Level} {c : Word} {s t : State} (h : exec (.edge L c) s = .next t)
    (harmed : s.timerArmed = true) : t.timerArmed = true := by
  obtain ⟨-, rfl⟩ | ⟨-, d, -, -, w⟩ := execEdge_cases h
  · exact harmed
  · exact w.timerArmed harmed

/-- An edge writes the head slot alone. -/
theorem exec_edge_otherSlot {L : Level} {c : Word} {s t : State} (h : exec (.edge L c) s = .next t) {k : Nat}
    (hk : k ≠ s.head.toNat) : t.slot[k]? = s.slot[k]? := by
  obtain ⟨-, rfl⟩ | ⟨-, d, -, -, w⟩ := execEdge_cases h
  · rfl
  · obtain ⟨f, hf, -⟩ := w.slot
    rw [hf, getElem?_modify_slot]
    exact if_neg hk.symm

/-- Clearing TIMER_ARMED where it is clear changes nothing. -/
theorem disarm_eq_self {s : State} (h : s.timerArmed = false) : { s with timerArmed := false } = s := by
  rw [← h]

end Sys2Proof.Machine

namespace Sys2Proof

open Machine Claims

/-- Settles O54: a command writes what `CommandWrites` says, and the response. -/
theorem consumerFrame : Obligations.ConsumerFrame := by
  intro i s t hc h
  obtain ⟨st, v, u, w, rfl⟩ := exec_command hc h
  obtain ⟨hparams, hinputs⟩ := w.sameSurroundings
  obtain ⟨hhead, hcount⟩ := w.headStays
  obtain ⟨hseq, hprev, hatBit, hbits, hjit, harmed, hfree⟩ := w.sameReception
  have hcounters : (∀ sel, i ≠ .crcRepair sel) → CountersStay s u := fun hrepair =>
    w.counters.resolve_right fun ⟨⟨sel, hi⟩, _⟩ => hrepair sel hi
  exact ⟨hparams, hinputs, hhead, hcount, hseq, hprev, hatBit, hbits, hjit, harmed, hfree, w.enabled_of_ne_setup,
    w.tail_of_ne_receive, hcounters, fun _ _ => w.keepsUndone⟩

/-- Settles O55: an edge leaves the consumer's registers (`exec_edge_sameConsumer`) and every slot but the head one; a
timeout clears TIMER_ARMED, if it is not clear already, and completes a head frame that waits. -/
theorem producerFrame : Obligations.ProducerFrame := by
  refine ⟨fun L c s t h => ?_, fun s t h => ?_⟩
  · obtain ⟨hparams, hinputs⟩ := exec_edge_sameSurroundings h
    obtain ⟨henabled, hout, hcorrupt, hrepaired⟩ := exec_edge_sameConsumer h
    obtain ⟨-, htail, hoverrun⟩ := exec_edge_moves h
    exact ⟨hparams, hinputs, henabled, htail, hcorrupt, hrepaired, hout, hoverrun, exec_edge_timerArmed h,
      fun _ => exec_edge_otherSlot h⟩
  · obtain ⟨hidle, rfl⟩ | ⟨-, d, -, rfl⟩ := execAckTimeout_cases h
    · exact .inl (congrArg State.quiet (disarm_eq_self hidle).symm)
    · by_cases hw : d.state = .waitingAck
      · exact .inr (if_pos hw)
      · exact .inl (if_neg hw)

end Sys2Proof

/-! PROOFS. RESET gives the state after reset of the same parameters (O42), and what that state holds (O41). -/

namespace Sys2Proof.Machine

/-- The descriptor RESET writes is the reset descriptor of the initial state (`10_state.md` R36, R37). -/
theorem clearedDescriptor_eq_atReset (k : Nat) : clearedDescriptor k = Descriptor.atReset k := rfl

/-- RESET writes every field of the initial state but those that are not the block's own. -/
theorem resetBlock_eq_resetWith (s : State) : resetBlock s =
    { State.resetWith s.params with inputs := s.inputs, outputs := s.outputs, freeCount := s.freeCount } := by
  have hpool : (List.range s.params.q).map clearedDescriptor = (List.range s.params.q).map Descriptor.atReset :=
    List.map_congr_left fun k _ => clearedDescriptor_eq_atReset k
  simp only [resetBlock, State.resetWith, hpool, clearedDescriptor_eq_atReset]

theorem resetWith_slot_length (p : Config.Params) : (State.resetWith p).slot.length = p.q :=
  (List.length_map _).trans List.length_range

/-- The converse of `resetWith_slot`: every index of the pool has its reset descriptor. -/
theorem resetWith_slot_of_lt {p : Config.Params} {k : Nat} (hk : k < p.q) :
    (State.resetWith p).slot[k]? = some (Descriptor.atReset k) := by
  simp [State.resetWith, hk]

theorem atReset_fields (k : Nat) :
    (Descriptor.atReset k).state = .vacant ∧ (Descriptor.atReset k).size = 0#8 ∧
      (Descriptor.atReset k).ack = .none ∧ (Descriptor.atReset k).result = .ok ∧
      (Descriptor.atReset k).seqNo = 0#32 ∧ (Descriptor.atReset k).slot = BitVec.ofNat 7 k ∧
      ∀ i, (Descriptor.atReset k).bytes.read i = 0#8 :=
  ⟨rfl, rfl, rfl, rfl, rfl, rfl, Memory.read_nil⟩

end Sys2Proof.Machine

namespace Sys2Proof

open Machine

/-- Settles O42: RESET clears the block of a step with its ports low, and `resetBlock_eq_resetWith` names what that
leaves. -/
theorem resetIsInitialState : Obligations.ResetIsInitialState := fun s =>
  congrArg Host.Outcome.next (resetBlock_eq_resetWith s.quiet)

/-- Settles O41: the state after RESET is the initial state of the parameters (`resetIsInitialState`), whose registers
are 0 and whose pool and OUT hold reset descriptors. -/
theorem resetClearsBlock : Obligations.ResetClearsBlock := by
  intro s
  exact ⟨_, resetIsInitialState s, rfl, rfl, rfl, rfl, rfl, rfl, rfl, rfl, rfl, rfl, rfl, rfl, rfl,
    resetWith_slot_length s.params, fun k hk => ⟨_, resetWith_slot_of_lt hk, atReset_fields k⟩, atReset_fields 0,
    rfl, rfl, rfl, rfl⟩

end Sys2Proof
